-- ==== Sys2Proof/Word.lean ====
section
/-! DEFINITION. The word types and the two sizes every rule is written over: the element size `W` and the address
size `A` (00_scope.md R5, R6; notation of section 6). -/

namespace Sys2Proof

/-- A 64-bit register or linear address (R10, R18, R26). -/
abbrev Word := BitVec 64

/-- One byte of memory or of an instruction (R26, R32). -/
abbrev Byte := BitVec 8

/-- `OperandSize`, the width `W` of one string element (R6). -/
inductive OpSize where
  | b8 | b16 | b32 | b64
  deriving DecidableEq, Repr

/-- `w = W / 8`, the element size in bytes. -/
def OpSize.bytes : OpSize → Nat
  | .b8 => 1
  | .b16 => 2
  | .b32 => 4
  | .b64 => 8

/-- `W` in bits. -/
def OpSize.bits : OpSize → Nat
  | .b8 => 8
  | .b16 => 16
  | .b32 => 32
  | .b64 => 64

/-- `AddressSize`, the width `A` of the count and index registers (R5). -/
inductive AddrSize where
  | a16 | a32 | a64
  deriving DecidableEq, Repr

/-- `A` in bits. -/
def AddrSize.bits : AddrSize → Nat
  | .a16 => 16
  | .a32 => 32
  | .a64 => 64

end Sys2Proof
end

