-- ==== Sys2Proof/Config.lean ====
section
/-! DEFINITION. The parameters of 00_scope.md section 4 as plain data (a launch gives them, R171; no in-scope
instruction writes one), and the free values: opaque constants nothing can evaluate. -/

namespace Sys2Proof

/-- A default size outside 64-bit mode: 16 or 32 (R5, R6). -/
inductive LegacySize where
  | d16 | d32
  deriving DecidableEq, Repr

/-- `other(16) = 32`, `other(32) = 16` (R68). -/
def LegacySize.other : LegacySize → LegacySize
  | .d16 => .d32
  | .d32 => .d16

/-- `Mode` (R4). The defaults of R5 and R6 are free only in `ModeCL`; in `Mode64` they are 64 and 32. -/
inductive Mode where
  | mode64
  | modeCL (defaultAddrSize defaultOpSize : LegacySize)
  deriving DecidableEq, Repr

/-- `VA_BITS`, the implemented linear-address bits (R7, D9). -/
inductive VaBits where
  | va48 | va57
  deriving DecidableEq, Repr

def VaBits.bits : VaBits → Nat
  | .va48 => 48
  | .va57 => 57

/-- `A32Upper` (R86, D10): what an implicit register write leaves in bits 63:32 at `A = 32` in `Mode64`. -/
inductive A32Upper where
  | zero | keep | any
  deriving DecidableEq, Repr

/-- `FaultOrder` (R149 step 3, D22): whose exception is reported when both memory operands fault. -/
inductive FaultOrder where
  | sourceFirst | destinationFirst
  deriving DecidableEq, Repr

/-- `FaultFlagsImage` (R83, D16). -/
inductive FlagsImage where
  | beforeInstruction | afterLastIteration
  deriving DecidableEq, Repr, Inhabited

/-- The segments an operand can name (R24, R56). -/
inductive SegReg where
  | es | cs | ss | ds | fs | gs
  deriving DecidableEq, Repr

/-- `SegBase(s)` for each segment (R7). -/
structure SegBases where
  es : Word
  cs : Word
  ss : Word
  ds : Word
  fs : Word
  gs : Word
  deriving DecidableEq, Repr

def SegBases.get (b : SegBases) : SegReg → Word
  | .es => b.es
  | .cs => b.cs
  | .ss => b.ss
  | .ds => b.ds
  | .fs => b.fs
  | .gs => b.gs

/-- The kind of a memory access (R8). -/
inductive AccessKind where
  | read | write
  deriving DecidableEq, Repr

/-- The exceptions an in-scope instruction can raise (R153), each with its error code; the code of `#PF` comes from
the memory rule that raises it (R42). -/
inductive Exn where
  | gp0 | ss0 | pf (code : BitVec 32) | ac0
  deriving DecidableEq, Repr

/-- What `MemFault` can return besides `none` (R153, R155). -/
inductive MemEvent where
  | exn (e : Exn)
  | vmExit
  deriving DecidableEq, Repr

/-- Which accesses a memory rule rejects: those that touch a byte of a range, or exactly the access of `size` bytes
at `addr` (so that any function `MemFault` can be written, log entry 26). -/
inductive MemScope where
  | range (first last : Nat)
  | element (addr size : Nat)
  deriving DecidableEq, Repr

/-- One rule of `MemFault(kind, addr, n)` (R8, R41, R42). -/
structure MemRule where
  kind : AccessKind
  scope : MemScope
  event : MemEvent
  deriving DecidableEq, Repr

/-- The launch configuration (R4 to R8, R171). -/
structure Launch where
  mode : Mode
  bases : SegBases
  vaBits : VaBits
  a32Upper : A32Upper
  faultOrder : FaultOrder
  admitUnlisted : Bool
  memRules : List MemRule
  ioDenied : List (BitVec 16 × Nat)
  /-- the program bytes, by linear address: a parameter of the launch, not mutable state (R45, D14, R171 item 5; log
  entry 33) -/
  program : List Host.Cell
  /-- the exit address given with the program, if one is (R172 a) -/
  exitAddress : Option Word
  deriving DecidableEq, Repr

/-- FREE VALUE (log entry 7): what `IoRead(port, n)` returns once the launch's list of answers is used up. -/
opaque Config.portRead : Nat → BitVec 16 → Nat → BitVec 32

/-- FREE VALUE (log entry 8): bits 63:32 under `A32Upper = any` (R86). -/
opaque Config.upperHalf : Nat → BitVec 32

/-- FREE VALUE (log entry 9): the EFLAGS image drawn at a fault of REPE/REPNE CMPS/SCAS (R83). -/
opaque Config.faultFlagsImage : Nat → FlagsImage

/-- FREE VALUE (log entry 10): whether a REP INS whose write faults has read the port (R84, R87). -/
opaque Config.insReadsFirst : Nat → Bool

/-- FREE VALUE (log entry 14): where a VM exit stands among the events of one access (R149 is silent). -/
opaque Config.vmExitRank : Nat

end Sys2Proof
end

