-- ==== Sys2Proof/Syntax.lean ====
section
/-! DEFINITION. The syntax: one constructor of `Instr` for each of the 68 rows of spec/opcode_table.json (R69, R145), the
legacy and REX bytes an instruction carries (R50), and the form `(kind, op, W, A)` of each row. No operand is encoded
(R57), so a constructor carries the prefix bytes alone, and the rows of the "(E)CX" class also their `A`. -/

namespace Sys2Proof

/-- The legacy prefixes other than the repeat prefix (R50): 67H, 66H, and the six segment overrides. -/
inductive Legacy where
  | addrSize | opSize | seg (r : SegReg)
  deriving DecidableEq, Repr

/-- A REX byte `0100WRXB` (R54). -/
structure Rex where
  w : Bool
  r : Bool
  x : Bool
  b : Bool
  deriving DecidableEq, Repr

/-- The bytes of an instruction other than its repeat prefix and its opcode, in address order (R50, R58): the legacy
prefixes before the repeat prefix, those after it, and the REX byte. -/
structure Prefixes where
  before : List Legacy
  after : List Legacy
  rex : Option Rex
  deriving DecidableEq, Repr

/-- The legacy prefixes, the repeat prefix left out. -/
def Prefixes.legacy (p : Prefixes) : List Legacy := p.before ++ p.after

/-- 67H is present (R53). -/
def Prefixes.has67 (p : Prefixes) : Bool := p.legacy.contains .addrSize

/-- 66H is present (R55). -/
def Prefixes.has66 (p : Prefixes) : Bool := p.legacy.contains .opSize

/-- REX.W is 1 (R54). -/
def Prefixes.rexW (p : Prefixes) : Bool :=
  match p.rex with
  | some r => r.w
  | none => false

/-- The seven string instructions (R2, R51). -/
inductive StringOp where
  | ins | movs | outs | lods | stos | cmps | scas
  deriving DecidableEq, Repr

/-- The repeat kinds (R52). -/
inductive RepKind where
  | rep | repe | repne
  deriving DecidableEq, Repr

/-- The address sizes of the "(E)CX" rows (R69). -/
inductive AddrEC where
  | a16 | a32
  deriving DecidableEq, Repr

def AddrEC.size : AddrEC → AddrSize
  | .a16 => .a16
  | .a32 => .a32

/-- What decoding gives besides the prefixes: `(kind, op, W, A)` of R68. -/
structure Form where
  kind : RepKind
  op : StringOp
  w : OpSize
  a : AddrSize
  deriving DecidableEq, Repr

/-- The instructions. A name without a suffix is a row of the "(E)CX" class; `A64` and `A32` name the address size of
the other rows. -/
inductive Instr where
  /-- row 1, R100: `REP INS m8, DX`, `F3 6C` -/
  | repInsM8 (a : AddrEC) (p : Prefixes)
  /-- row 2, R101: `REP INS m8, DX`, `F3 6C` -/
  | repInsM8A64 (p : Prefixes)
  /-- row 3, R102: `REP INS m16, DX`, `F3 6D` -/
  | repInsM16 (a : AddrEC) (p : Prefixes)
  /-- row 4, R103: `REP INS m32, DX`, `F3 6D` -/
  | repInsM32 (a : AddrEC) (p : Prefixes)
  /-- row 5, R104: `REP INS r/m32, DX`, `F3 6D` -/
  | repInsRm32A64 (p : Prefixes)
  /-- row 6, R105: `REP MOVS m8, m8`, `F3 A4` -/
  | repMovsM8 (a : AddrEC) (p : Prefixes)
  /-- row 7, R106: `REP MOVS m8, m8`, `F3 48 A4` -/
  | repMovsM8A64 (p : Prefixes)
  /-- row 8, R107: `REP MOVS m16, m16`, `F3 A5` -/
  | repMovsM16 (a : AddrEC) (p : Prefixes)
  /-- row 9, R108: `REP MOVS m32, m32`, `F3 A5` -/
  | repMovsM32 (a : AddrEC) (p : Prefixes)
  /-- row 10, R109: `REP MOVS m64, m64`, `F3 48 A5` -/
  | repMovsM64A64 (p : Prefixes)
  /-- row 11, R110: `REP OUTS DX, r/m8`, `F3 6E` -/
  | repOutsM8 (a : AddrEC) (p : Prefixes)
  /-- row 12, R111: `REP OUTS DX, r/m8*`, `F3 48 6E` -/
  | repOutsM8A64 (p : Prefixes)
  /-- row 13, R112: `REP OUTS DX, r/m16`, `F3 6F` -/
  | repOutsM16 (a : AddrEC) (p : Prefixes)
  /-- row 14, R113: `REP OUTS DX, r/m32`, `F3 6F` -/
  | repOutsM32 (a : AddrEC) (p : Prefixes)
  /-- row 15, R114: `REP OUTS DX, r/m32`, `F3 48 6F` -/
  | repOutsM32A64 (p : Prefixes)
  /-- row 16, R115: `REP LODS AL`, `F3 AC` -/
  | repLodsAl (a : AddrEC) (p : Prefixes)
  /-- row 17, R116: `REP LODS AL`, `F3 48 AC` -/
  | repLodsAlA64 (p : Prefixes)
  /-- row 18, R117: `REP LODS AX`, `F3 AD` -/
  | repLodsAx (a : AddrEC) (p : Prefixes)
  /-- row 19, R118: `REP LODS EAX`, `F3 AD` -/
  | repLodsEax (a : AddrEC) (p : Prefixes)
  /-- row 20, R119: `REP LODS RAX`, `F3 48 AD` -/
  | repLodsRaxA64 (p : Prefixes)
  /-- row 21, R120: `REP STOS m8`, `F3 AA` -/
  | repStosM8 (a : AddrEC) (p : Prefixes)
  /-- row 22, R121: `REP STOS m8`, `F3 48 AA` -/
  | repStosM8A64 (p : Prefixes)
  /-- row 23, R122: `REP STOS m16`, `F3 AB` -/
  | repStosM16 (a : AddrEC) (p : Prefixes)
  /-- row 24, R123: `REP STOS m32`, `F3 AB` -/
  | repStosM32 (a : AddrEC) (p : Prefixes)
  /-- row 25, R124: `REP STOS m64`, `F3 48 AB` -/
  | repStosM64A64 (p : Prefixes)
  /-- row 26, R125: `REPE CMPS m8, m8`, `F3 A6` -/
  | repeCmpsM8 (a : AddrEC) (p : Prefixes)
  /-- row 27, R126: `REPE CMPS m8, m8`, `F3 48 A6` -/
  | repeCmpsM8A64 (p : Prefixes)
  /-- row 28, R127: `REPE CMPS m16, m16`, `F3 A7` -/
  | repeCmpsM16 (a : AddrEC) (p : Prefixes)
  /-- row 29, R128: `REPE CMPS m32, m32`, `F3 A7` -/
  | repeCmpsM32 (a : AddrEC) (p : Prefixes)
  /-- row 30, R129: `REPE CMPS m64, m64`, `F3 48 A7` -/
  | repeCmpsM64A64 (p : Prefixes)
  /-- row 31, R130: `REPE SCAS m8`, `F3 AE` -/
  | repeScasM8 (a : AddrEC) (p : Prefixes)
  /-- row 32, R131: `REPE SCAS m8`, `F3 48 AE` -/
  | repeScasM8A64 (p : Prefixes)
  /-- row 33, R132: `REPE SCAS m16`, `F3 AF` -/
  | repeScasM16 (a : AddrEC) (p : Prefixes)
  /-- row 34, R133: `REPE SCAS m32`, `F3 AF` -/
  | repeScasM32 (a : AddrEC) (p : Prefixes)
  /-- row 35, R134: `REPE SCAS m64`, `F3 48 AF` -/
  | repeScasM64A64 (p : Prefixes)
  /-- row 36, R135: `REPNE CMPS m8, m8`, `F2 A6` -/
  | repneCmpsM8 (a : AddrEC) (p : Prefixes)
  /-- row 37, R136: `REPNE CMPS m8, m8`, `F2 48 A6` -/
  | repneCmpsM8A64 (p : Prefixes)
  /-- row 38, R137: `REPNE CMPS m16, m16`, `F2 A7` -/
  | repneCmpsM16 (a : AddrEC) (p : Prefixes)
  /-- row 39, R138: `REPNE CMPS m32, m32`, `F2 A7` -/
  | repneCmpsM32 (a : AddrEC) (p : Prefixes)
  /-- row 40, R139: `REPNE CMPS m64, m64`, `F2 48 A7` -/
  | repneCmpsM64A64 (p : Prefixes)
  /-- row 41, R140: `REPNE SCAS m8`, `F2 AE` -/
  | repneScasM8 (a : AddrEC) (p : Prefixes)
  /-- row 42, R141: `REPNE SCAS m8`, `F2 48 AE` -/
  | repneScasM8A64 (p : Prefixes)
  /-- row 43, R142: `REPNE SCAS m16`, `F2 AF` -/
  | repneScasM16 (a : AddrEC) (p : Prefixes)
  /-- row 44, R143: `REPNE SCAS m32`, `F2 AF` -/
  | repneScasM32 (a : AddrEC) (p : Prefixes)
  /-- row 45, R144: `REPNE SCAS m64`, `F2 48 AF` -/
  | repneScasM64A64 (p : Prefixes)
  /-- row U1, R145: `REP INS m16, DX`, `66 F3 6D` -/
  | repInsM16A64 (p : Prefixes)
  /-- row U2, R145: `REP OUTS DX, m16`, `66 F3 6F` -/
  | repOutsM16A64 (p : Prefixes)
  /-- row U3, R145: `REP MOVS m16, m16`, `66 F3 A5` -/
  | repMovsM16A64 (p : Prefixes)
  /-- row U4, R145: `REP MOVS m32, m32`, `F3 A5` -/
  | repMovsM32A64 (p : Prefixes)
  /-- row U5, R145: `REP MOVS m64, m64`, `67 F3 48 A5` -/
  | repMovsM64A32 (p : Prefixes)
  /-- row U6, R145: `REP LODS AX`, `66 F3 AD` -/
  | repLodsAxA64 (p : Prefixes)
  /-- row U7, R145: `REP LODS EAX`, `F3 AD` -/
  | repLodsEaxA64 (p : Prefixes)
  /-- row U8, R145: `REP LODS RAX`, `67 F3 48 AD` -/
  | repLodsRaxA32 (p : Prefixes)
  /-- row U9, R145: `REP STOS m16`, `66 F3 AB` -/
  | repStosM16A64 (p : Prefixes)
  /-- row U10, R145: `REP STOS m32`, `F3 AB` -/
  | repStosM32A64 (p : Prefixes)
  /-- row U11, R145: `REP STOS m64`, `67 F3 48 AB` -/
  | repStosM64A32 (p : Prefixes)
  /-- row U12, R145: `REPE CMPS m16, m16`, `66 F3 A7` -/
  | repeCmpsM16A64 (p : Prefixes)
  /-- row U13, R145: `REPE CMPS m32, m32`, `F3 A7` -/
  | repeCmpsM32A64 (p : Prefixes)
  /-- row U14, R145: `REPE CMPS m64, m64`, `67 F3 48 A7` -/
  | repeCmpsM64A32 (p : Prefixes)
  /-- row U15, R145: `REPE SCAS m16`, `66 F3 AF` -/
  | repeScasM16A64 (p : Prefixes)
  /-- row U16, R145: `REPE SCAS m32`, `F3 AF` -/
  | repeScasM32A64 (p : Prefixes)
  /-- row U17, R145: `REPE SCAS m64`, `67 F3 48 AF` -/
  | repeScasM64A32 (p : Prefixes)
  /-- row U18, R145: `REPNE CMPS m16, m16`, `66 F2 A7` -/
  | repneCmpsM16A64 (p : Prefixes)
  /-- row U19, R145: `REPNE CMPS m32, m32`, `F2 A7` -/
  | repneCmpsM32A64 (p : Prefixes)
  /-- row U20, R145: `REPNE CMPS m64, m64`, `67 F2 48 A7` -/
  | repneCmpsM64A32 (p : Prefixes)
  /-- row U21, R145: `REPNE SCAS m16`, `66 F2 AF` -/
  | repneScasM16A64 (p : Prefixes)
  /-- row U22, R145: `REPNE SCAS m32`, `F2 AF` -/
  | repneScasM32A64 (p : Prefixes)
  /-- row U23, R145: `REPNE SCAS m64`, `67 F2 48 AF` -/
  | repneScasM64A32 (p : Prefixes)
  deriving DecidableEq, Repr

/-- The form of each row: the columns of the opcode table (30_encoding.md section 3, R145). -/
def Instr.form : Instr → Form
  | .repInsM8 a _ => ⟨.rep, .ins, .b8, a.size⟩
  | .repInsM8A64 _ => ⟨.rep, .ins, .b8, .a64⟩
  | .repInsM16 a _ => ⟨.rep, .ins, .b16, a.size⟩
  | .repInsM32 a _ => ⟨.rep, .ins, .b32, a.size⟩
  | .repInsRm32A64 _ => ⟨.rep, .ins, .b32, .a64⟩
  | .repMovsM8 a _ => ⟨.rep, .movs, .b8, a.size⟩
  | .repMovsM8A64 _ => ⟨.rep, .movs, .b8, .a64⟩
  | .repMovsM16 a _ => ⟨.rep, .movs, .b16, a.size⟩
  | .repMovsM32 a _ => ⟨.rep, .movs, .b32, a.size⟩
  | .repMovsM64A64 _ => ⟨.rep, .movs, .b64, .a64⟩
  | .repOutsM8 a _ => ⟨.rep, .outs, .b8, a.size⟩
  | .repOutsM8A64 _ => ⟨.rep, .outs, .b8, .a64⟩
  | .repOutsM16 a _ => ⟨.rep, .outs, .b16, a.size⟩
  | .repOutsM32 a _ => ⟨.rep, .outs, .b32, a.size⟩
  | .repOutsM32A64 _ => ⟨.rep, .outs, .b32, .a64⟩
  | .repLodsAl a _ => ⟨.rep, .lods, .b8, a.size⟩
  | .repLodsAlA64 _ => ⟨.rep, .lods, .b8, .a64⟩
  | .repLodsAx a _ => ⟨.rep, .lods, .b16, a.size⟩
  | .repLodsEax a _ => ⟨.rep, .lods, .b32, a.size⟩
  | .repLodsRaxA64 _ => ⟨.rep, .lods, .b64, .a64⟩
  | .repStosM8 a _ => ⟨.rep, .stos, .b8, a.size⟩
  | .repStosM8A64 _ => ⟨.rep, .stos, .b8, .a64⟩
  | .repStosM16 a _ => ⟨.rep, .stos, .b16, a.size⟩
  | .repStosM32 a _ => ⟨.rep, .stos, .b32, a.size⟩
  | .repStosM64A64 _ => ⟨.rep, .stos, .b64, .a64⟩
  | .repeCmpsM8 a _ => ⟨.repe, .cmps, .b8, a.size⟩
  | .repeCmpsM8A64 _ => ⟨.repe, .cmps, .b8, .a64⟩
  | .repeCmpsM16 a _ => ⟨.repe, .cmps, .b16, a.size⟩
  | .repeCmpsM32 a _ => ⟨.repe, .cmps, .b32, a.size⟩
  | .repeCmpsM64A64 _ => ⟨.repe, .cmps, .b64, .a64⟩
  | .repeScasM8 a _ => ⟨.repe, .scas, .b8, a.size⟩
  | .repeScasM8A64 _ => ⟨.repe, .scas, .b8, .a64⟩
  | .repeScasM16 a _ => ⟨.repe, .scas, .b16, a.size⟩
  | .repeScasM32 a _ => ⟨.repe, .scas, .b32, a.size⟩
  | .repeScasM64A64 _ => ⟨.repe, .scas, .b64, .a64⟩
  | .repneCmpsM8 a _ => ⟨.repne, .cmps, .b8, a.size⟩
  | .repneCmpsM8A64 _ => ⟨.repne, .cmps, .b8, .a64⟩
  | .repneCmpsM16 a _ => ⟨.repne, .cmps, .b16, a.size⟩
  | .repneCmpsM32 a _ => ⟨.repne, .cmps, .b32, a.size⟩
  | .repneCmpsM64A64 _ => ⟨.repne, .cmps, .b64, .a64⟩
  | .repneScasM8 a _ => ⟨.repne, .scas, .b8, a.size⟩
  | .repneScasM8A64 _ => ⟨.repne, .scas, .b8, .a64⟩
  | .repneScasM16 a _ => ⟨.repne, .scas, .b16, a.size⟩
  | .repneScasM32 a _ => ⟨.repne, .scas, .b32, a.size⟩
  | .repneScasM64A64 _ => ⟨.repne, .scas, .b64, .a64⟩
  | .repInsM16A64 _ => ⟨.rep, .ins, .b16, .a64⟩
  | .repOutsM16A64 _ => ⟨.rep, .outs, .b16, .a64⟩
  | .repMovsM16A64 _ => ⟨.rep, .movs, .b16, .a64⟩
  | .repMovsM32A64 _ => ⟨.rep, .movs, .b32, .a64⟩
  | .repMovsM64A32 _ => ⟨.rep, .movs, .b64, .a32⟩
  | .repLodsAxA64 _ => ⟨.rep, .lods, .b16, .a64⟩
  | .repLodsEaxA64 _ => ⟨.rep, .lods, .b32, .a64⟩
  | .repLodsRaxA32 _ => ⟨.rep, .lods, .b64, .a32⟩
  | .repStosM16A64 _ => ⟨.rep, .stos, .b16, .a64⟩
  | .repStosM32A64 _ => ⟨.rep, .stos, .b32, .a64⟩
  | .repStosM64A32 _ => ⟨.rep, .stos, .b64, .a32⟩
  | .repeCmpsM16A64 _ => ⟨.repe, .cmps, .b16, .a64⟩
  | .repeCmpsM32A64 _ => ⟨.repe, .cmps, .b32, .a64⟩
  | .repeCmpsM64A32 _ => ⟨.repe, .cmps, .b64, .a32⟩
  | .repeScasM16A64 _ => ⟨.repe, .scas, .b16, .a64⟩
  | .repeScasM32A64 _ => ⟨.repe, .scas, .b32, .a64⟩
  | .repeScasM64A32 _ => ⟨.repe, .scas, .b64, .a32⟩
  | .repneCmpsM16A64 _ => ⟨.repne, .cmps, .b16, .a64⟩
  | .repneCmpsM32A64 _ => ⟨.repne, .cmps, .b32, .a64⟩
  | .repneCmpsM64A32 _ => ⟨.repne, .cmps, .b64, .a32⟩
  | .repneScasM16A64 _ => ⟨.repne, .scas, .b16, .a64⟩
  | .repneScasM32A64 _ => ⟨.repne, .scas, .b32, .a64⟩
  | .repneScasM64A32 _ => ⟨.repne, .scas, .b64, .a32⟩

/-- The prefix bytes an instruction carries. -/
def Instr.pre : Instr → Prefixes
  | .repInsM8 _ p => p
  | .repInsM8A64 p => p
  | .repInsM16 _ p => p
  | .repInsM32 _ p => p
  | .repInsRm32A64 p => p
  | .repMovsM8 _ p => p
  | .repMovsM8A64 p => p
  | .repMovsM16 _ p => p
  | .repMovsM32 _ p => p
  | .repMovsM64A64 p => p
  | .repOutsM8 _ p => p
  | .repOutsM8A64 p => p
  | .repOutsM16 _ p => p
  | .repOutsM32 _ p => p
  | .repOutsM32A64 p => p
  | .repLodsAl _ p => p
  | .repLodsAlA64 p => p
  | .repLodsAx _ p => p
  | .repLodsEax _ p => p
  | .repLodsRaxA64 p => p
  | .repStosM8 _ p => p
  | .repStosM8A64 p => p
  | .repStosM16 _ p => p
  | .repStosM32 _ p => p
  | .repStosM64A64 p => p
  | .repeCmpsM8 _ p => p
  | .repeCmpsM8A64 p => p
  | .repeCmpsM16 _ p => p
  | .repeCmpsM32 _ p => p
  | .repeCmpsM64A64 p => p
  | .repeScasM8 _ p => p
  | .repeScasM8A64 p => p
  | .repeScasM16 _ p => p
  | .repeScasM32 _ p => p
  | .repeScasM64A64 p => p
  | .repneCmpsM8 _ p => p
  | .repneCmpsM8A64 p => p
  | .repneCmpsM16 _ p => p
  | .repneCmpsM32 _ p => p
  | .repneCmpsM64A64 p => p
  | .repneScasM8 _ p => p
  | .repneScasM8A64 p => p
  | .repneScasM16 _ p => p
  | .repneScasM32 _ p => p
  | .repneScasM64A64 p => p
  | .repInsM16A64 p => p
  | .repOutsM16A64 p => p
  | .repMovsM16A64 p => p
  | .repMovsM32A64 p => p
  | .repMovsM64A32 p => p
  | .repLodsAxA64 p => p
  | .repLodsEaxA64 p => p
  | .repLodsRaxA32 p => p
  | .repStosM16A64 p => p
  | .repStosM32A64 p => p
  | .repStosM64A32 p => p
  | .repeCmpsM16A64 p => p
  | .repeCmpsM32A64 p => p
  | .repeCmpsM64A32 p => p
  | .repeScasM16A64 p => p
  | .repeScasM32A64 p => p
  | .repeScasM64A32 p => p
  | .repneCmpsM16A64 p => p
  | .repneCmpsM32A64 p => p
  | .repneCmpsM64A32 p => p
  | .repneScasM16A64 p => p
  | .repneScasM32A64 p => p
  | .repneScasM64A32 p => p

/-- Whether the row stands in the source's table (rows 1 to 45) or is one of the 23 pairings of R145. -/
def Instr.listed : Instr → Bool
  | .repInsM8 _ _ => true
  | .repInsM8A64 _ => true
  | .repInsM16 _ _ => true
  | .repInsM32 _ _ => true
  | .repInsRm32A64 _ => true
  | .repMovsM8 _ _ => true
  | .repMovsM8A64 _ => true
  | .repMovsM16 _ _ => true
  | .repMovsM32 _ _ => true
  | .repMovsM64A64 _ => true
  | .repOutsM8 _ _ => true
  | .repOutsM8A64 _ => true
  | .repOutsM16 _ _ => true
  | .repOutsM32 _ _ => true
  | .repOutsM32A64 _ => true
  | .repLodsAl _ _ => true
  | .repLodsAlA64 _ => true
  | .repLodsAx _ _ => true
  | .repLodsEax _ _ => true
  | .repLodsRaxA64 _ => true
  | .repStosM8 _ _ => true
  | .repStosM8A64 _ => true
  | .repStosM16 _ _ => true
  | .repStosM32 _ _ => true
  | .repStosM64A64 _ => true
  | .repeCmpsM8 _ _ => true
  | .repeCmpsM8A64 _ => true
  | .repeCmpsM16 _ _ => true
  | .repeCmpsM32 _ _ => true
  | .repeCmpsM64A64 _ => true
  | .repeScasM8 _ _ => true
  | .repeScasM8A64 _ => true
  | .repeScasM16 _ _ => true
  | .repeScasM32 _ _ => true
  | .repeScasM64A64 _ => true
  | .repneCmpsM8 _ _ => true
  | .repneCmpsM8A64 _ => true
  | .repneCmpsM16 _ _ => true
  | .repneCmpsM32 _ _ => true
  | .repneCmpsM64A64 _ => true
  | .repneScasM8 _ _ => true
  | .repneScasM8A64 _ => true
  | .repneScasM16 _ _ => true
  | .repneScasM32 _ _ => true
  | .repneScasM64A64 _ => true
  | .repInsM16A64 _ => false
  | .repOutsM16A64 _ => false
  | .repMovsM16A64 _ => false
  | .repMovsM32A64 _ => false
  | .repMovsM64A32 _ => false
  | .repLodsAxA64 _ => false
  | .repLodsEaxA64 _ => false
  | .repLodsRaxA32 _ => false
  | .repStosM16A64 _ => false
  | .repStosM32A64 _ => false
  | .repStosM64A32 _ => false
  | .repeCmpsM16A64 _ => false
  | .repeCmpsM32A64 _ => false
  | .repeCmpsM64A32 _ => false
  | .repeScasM16A64 _ => false
  | .repeScasM32A64 _ => false
  | .repeScasM64A32 _ => false
  | .repneCmpsM16A64 _ => false
  | .repneCmpsM32A64 _ => false
  | .repneCmpsM64A32 _ => false
  | .repneScasM16A64 _ => false
  | .repneScasM32A64 _ => false
  | .repneScasM64A32 _ => false

end Sys2Proof
end

