-- ==== Sys2Proof/WellFormed.lean ====
section
/-! DEFINITION. Which instructions have an encoding in a mode (R50, R53 to R58, R64): the four checks and their
conjunction. Written from the encoding rules, not from the decoder. -/

namespace Sys2Proof

/-- How many legacy prefixes of a list are segment overrides. -/
def segCount : List Legacy → Nat
  | [] => 0
  | .seg _ :: ls => segCount ls + 1
  | _ :: ls => segCount ls

/-- At most one prefix from each legacy group (R58); exactly one repeat prefix stands by construction. -/
def Prefixes.oneEach (p : Prefixes) : Bool :=
  p.legacy.count .addrSize ≤ 1 && p.legacy.count .opSize ≤ 1 && segCount p.legacy ≤ 1

/-- REX exists only in 64-bit mode (R54, R64). -/
def Prefixes.rexAllowed (m : Mode) (p : Prefixes) : Bool :=
  match m with
  | .mode64 => true
  | .modeCL _ _ => p.rex.isNone

/-- The address size of the row is the one the bytes give in this mode (R5, R53). -/
def addrSizeFits (m : Mode) (a : AddrSize) (p : Prefixes) : Bool :=
  match m, a with
  | .mode64, .a64 => !p.has67
  | .mode64, .a32 => p.has67
  | .mode64, .a16 => false
  | .modeCL d _, .a32 => p.has67 == (d == .d16)
  | .modeCL d _, .a16 => p.has67 == (d == .d32)
  | .modeCL _ _, .a64 => false

/-- The element size of the row is the one the bytes give in this mode (R6, R54, R55). An even opcode has 8 bits
whatever 66H and REX.W say; 66H with REX.W on 6DH and 6FH has no meaning. -/
def opSizeFits (m : Mode) (op : StringOp) (w : OpSize) (p : Prefixes) : Bool :=
  let io := op == .ins || op == .outs
  match w with
  | .b8 => true
  | .b16 =>
    match m with
    | .mode64 => p.has66 && !p.rexW
    | .modeCL _ d => p.has66 == (d == .d32)
  | .b32 =>
    match m with
    | .mode64 => !p.has66 && (!p.rexW || io)
    | .modeCL _ d => p.has66 == (d == .d16)
  | .b64 =>
    match m with
    | .mode64 => p.rexW && !io
    | .modeCL _ _ => false

/-- The instruction has an encoding in mode `m`. -/
def wellFormed (m : Mode) (i : Instr) : Bool :=
  i.pre.oneEach && i.pre.rexAllowed m && addrSizeFits m i.form.a i.pre && opSizeFits m i.form.op i.form.w i.pre

end Sys2Proof
end

