-- ==== Sys2Proof/Decode.lean ====
section
/-! DEFINITION. Decoding (R68) and, after it, the encoder (R50 to R58). The decoder is total: it answers an instruction
or a refusal by name. -/

namespace Sys2Proof

/-- Why a byte sequence is not decoded (R68, D1). All are safe: the model stops where the hardware may go on. -/
inductive DecodeRefusal where
  /-- two of F3H, F2H (R63) -/
  | twoRepeatPrefixes
  /-- two 67H, two 66H or two segment overrides (R58) -/
  | repeatedPrefix
  /-- F0H among the legacy prefixes (R47, R63) -/
  | lockPrefix
  /-- the opcode is not one of the 14 of R51 (R3, R60, R61, R64) -/
  | notInScope
  /-- one of the 14 opcodes without a repeat prefix (R3) -/
  | unprefixedString
  /-- F2H before an opcode that does not compare (R62) -/
  | f2OnNonCompare
  /-- REX.W and 66H together on 6DH or 6FH (R55) -/
  | rexwAnd66OnIo
  /-- one of the 23 forms of R145 where the launch does not allow them -/
  | formNotListed
  /-- the bytes end before the opcode: there is nothing to decode (the step refuses, R172 d) -/
  | truncated
  deriving DecidableEq, Repr

/-- The two repeat prefix bytes (R52). -/
inductive RepByte where
  | f3 | f2
  deriving DecidableEq, Repr

/-- What the first bytes of an instruction can be (R50, R59). -/
inductive Lead where
  | rep (r : RepByte)
  | legacy (l : Legacy)
  | lock
  | other
  deriving DecidableEq, Repr

/-- The class of one byte while prefixes are scanned (R52, R53, R55, R56, R63). -/
def classify (b : Byte) : Lead :=
  match b.toNat with
  | 0xF3 => .rep .f3
  | 0xF2 => .rep .f2
  | 0x67 => .legacy .addrSize
  | 0x66 => .legacy .opSize
  | 0x26 => .legacy (.seg .es)
  | 0x2E => .legacy (.seg .cs)
  | 0x36 => .legacy (.seg .ss)
  | 0x3E => .legacy (.seg .ds)
  | 0x64 => .legacy (.seg .fs)
  | 0x65 => .legacy (.seg .gs)
  | 0xF0 => .lock
  | _ => .other

/-- What the scan has seen so far. -/
structure Scan where
  rep : Option RepByte
  before : List Legacy
  after : List Legacy
  deriving DecidableEq, Repr

/-- Two legacy prefixes of one group (R58). -/
def sameGroup : Legacy → Legacy → Bool
  | .addrSize, .addrSize => true
  | .opSize, .opSize => true
  | .seg _, .seg _ => true
  | _, _ => false

/-- The scan with one more legacy prefix. -/
def Scan.push (sc : Scan) (l : Legacy) : Scan :=
  match sc.rep with
  | none => { sc with before := sc.before ++ [l] }
  | some _ => { sc with after := sc.after ++ [l] }

/-- The loop of R68: the legacy prefixes, then the bytes left. -/
def scanPrefixes : List Byte → Scan → Except DecodeRefusal (Scan × List Byte)
  | [], sc => .ok (sc, [])
  | b :: bs, sc =>
    match classify b with
    | .other => .ok (sc, b :: bs)
    | .lock => .error .lockPrefix
    | .rep r => if sc.rep.isSome then .error .twoRepeatPrefixes else scanPrefixes bs { sc with rep := some r }
    | .legacy l =>
      if (sc.before ++ sc.after).any (sameGroup l) then .error .repeatedPrefix else scanPrefixes bs (sc.push l)

/-- The REX byte, in 64-bit mode only (R54): `0100WRXB`. -/
def takeRex (m : Mode) (bs : List Byte) : Option Rex × List Byte :=
  match m, bs with
  | .mode64, b :: rest =>
    if b.extractLsb' 4 4 = 4#4 then (some ⟨b.getLsbD 3, b.getLsbD 2, b.getLsbD 1, b.getLsbD 0⟩, rest) else (none, bs)
  | _, _ => (none, bs)

/-- The string instruction of an opcode and whether its element is a byte (R51). -/
def stringOf (b : Byte) : Option (StringOp × Bool) :=
  match b.toNat with
  | 0x6C => some (.ins, true)
  | 0x6D => some (.ins, false)
  | 0x6E => some (.outs, true)
  | 0x6F => some (.outs, false)
  | 0xA4 => some (.movs, true)
  | 0xA5 => some (.movs, false)
  | 0xA6 => some (.cmps, true)
  | 0xA7 => some (.cmps, false)
  | 0xAA => some (.stos, true)
  | 0xAB => some (.stos, false)
  | 0xAC => some (.lods, true)
  | 0xAD => some (.lods, false)
  | 0xAE => some (.scas, true)
  | 0xAF => some (.scas, false)
  | _ => none

/-- The instructions that compare (R52). -/
def StringOp.compares : StringOp → Bool
  | .cmps | .scas => true
  | _ => false

/-- The instructions that reach an I/O port (R25). -/
def StringOp.isIo : StringOp → Bool
  | .ins | .outs => true
  | _ => false

/-- The repeat kind (R52); F2H before an instruction that does not compare has none (R62). -/
def kindOf (op : StringOp) (r : RepByte) : Option RepKind :=
  if op.compares then
    match r with
    | .f3 => some .repe
    | .f2 => some .repne
  else
    match r with
    | .f3 => some .rep
    | .f2 => none

/-- The size a `ModeCL` default stands for. -/
def LegacySize.addr : LegacySize → AddrSize
  | .d16 => .a16
  | .d32 => .a32

def LegacySize.op : LegacySize → OpSize
  | .d16 => .b16
  | .d32 => .b32

/-- `A` (R5, R53, R68). -/
def addrSizeOf (m : Mode) (a67 : Bool) : AddrSize :=
  match m with
  | .mode64 => if a67 then .a32 else .a64
  | .modeCL d _ => if a67 then d.other.addr else d.addr

/-- `W` (R6, R54, R55, R68); `none` for REX.W with 66H on 6DH and 6FH. -/
def opSizeOf (m : Mode) (op : StringOp) (isByte rexw o66 : Bool) : Option OpSize :=
  if isByte then some .b8
  else if rexw && !op.isIo then some .b64
  else if rexw && o66 then none
  else if rexw then some .b32
  else
    match m with
    | .mode64 => some (if o66 then .b16 else .b32)
    | .modeCL _ d => some (if o66 then d.other.op else d.op)

/-- The row of a form (R69, R145). Every form R68 can give has one. -/
def rowOf (f : Form) (p : Prefixes) : Option Instr :=
  match f.kind, f.op, f.w, f.a with
  | .rep, .ins, .b8, .a16 => some (.repInsM8 .a16 p)
  | .rep, .ins, .b8, .a32 => some (.repInsM8 .a32 p)
  | .rep, .ins, .b8, .a64 => some (.repInsM8A64 p)
  | .rep, .ins, .b16, .a16 => some (.repInsM16 .a16 p)
  | .rep, .ins, .b16, .a32 => some (.repInsM16 .a32 p)
  | .rep, .ins, .b32, .a16 => some (.repInsM32 .a16 p)
  | .rep, .ins, .b32, .a32 => some (.repInsM32 .a32 p)
  | .rep, .ins, .b32, .a64 => some (.repInsRm32A64 p)
  | .rep, .movs, .b8, .a16 => some (.repMovsM8 .a16 p)
  | .rep, .movs, .b8, .a32 => some (.repMovsM8 .a32 p)
  | .rep, .movs, .b8, .a64 => some (.repMovsM8A64 p)
  | .rep, .movs, .b16, .a16 => some (.repMovsM16 .a16 p)
  | .rep, .movs, .b16, .a32 => some (.repMovsM16 .a32 p)
  | .rep, .movs, .b32, .a16 => some (.repMovsM32 .a16 p)
  | .rep, .movs, .b32, .a32 => some (.repMovsM32 .a32 p)
  | .rep, .movs, .b64, .a64 => some (.repMovsM64A64 p)
  | .rep, .outs, .b8, .a16 => some (.repOutsM8 .a16 p)
  | .rep, .outs, .b8, .a32 => some (.repOutsM8 .a32 p)
  | .rep, .outs, .b8, .a64 => some (.repOutsM8A64 p)
  | .rep, .outs, .b16, .a16 => some (.repOutsM16 .a16 p)
  | .rep, .outs, .b16, .a32 => some (.repOutsM16 .a32 p)
  | .rep, .outs, .b32, .a16 => some (.repOutsM32 .a16 p)
  | .rep, .outs, .b32, .a32 => some (.repOutsM32 .a32 p)
  | .rep, .outs, .b32, .a64 => some (.repOutsM32A64 p)
  | .rep, .lods, .b8, .a16 => some (.repLodsAl .a16 p)
  | .rep, .lods, .b8, .a32 => some (.repLodsAl .a32 p)
  | .rep, .lods, .b8, .a64 => some (.repLodsAlA64 p)
  | .rep, .lods, .b16, .a16 => some (.repLodsAx .a16 p)
  | .rep, .lods, .b16, .a32 => some (.repLodsAx .a32 p)
  | .rep, .lods, .b32, .a16 => some (.repLodsEax .a16 p)
  | .rep, .lods, .b32, .a32 => some (.repLodsEax .a32 p)
  | .rep, .lods, .b64, .a64 => some (.repLodsRaxA64 p)
  | .rep, .stos, .b8, .a16 => some (.repStosM8 .a16 p)
  | .rep, .stos, .b8, .a32 => some (.repStosM8 .a32 p)
  | .rep, .stos, .b8, .a64 => some (.repStosM8A64 p)
  | .rep, .stos, .b16, .a16 => some (.repStosM16 .a16 p)
  | .rep, .stos, .b16, .a32 => some (.repStosM16 .a32 p)
  | .rep, .stos, .b32, .a16 => some (.repStosM32 .a16 p)
  | .rep, .stos, .b32, .a32 => some (.repStosM32 .a32 p)
  | .rep, .stos, .b64, .a64 => some (.repStosM64A64 p)
  | .repe, .cmps, .b8, .a16 => some (.repeCmpsM8 .a16 p)
  | .repe, .cmps, .b8, .a32 => some (.repeCmpsM8 .a32 p)
  | .repe, .cmps, .b8, .a64 => some (.repeCmpsM8A64 p)
  | .repe, .cmps, .b16, .a16 => some (.repeCmpsM16 .a16 p)
  | .repe, .cmps, .b16, .a32 => some (.repeCmpsM16 .a32 p)
  | .repe, .cmps, .b32, .a16 => some (.repeCmpsM32 .a16 p)
  | .repe, .cmps, .b32, .a32 => some (.repeCmpsM32 .a32 p)
  | .repe, .cmps, .b64, .a64 => some (.repeCmpsM64A64 p)
  | .repe, .scas, .b8, .a16 => some (.repeScasM8 .a16 p)
  | .repe, .scas, .b8, .a32 => some (.repeScasM8 .a32 p)
  | .repe, .scas, .b8, .a64 => some (.repeScasM8A64 p)
  | .repe, .scas, .b16, .a16 => some (.repeScasM16 .a16 p)
  | .repe, .scas, .b16, .a32 => some (.repeScasM16 .a32 p)
  | .repe, .scas, .b32, .a16 => some (.repeScasM32 .a16 p)
  | .repe, .scas, .b32, .a32 => some (.repeScasM32 .a32 p)
  | .repe, .scas, .b64, .a64 => some (.repeScasM64A64 p)
  | .repne, .cmps, .b8, .a16 => some (.repneCmpsM8 .a16 p)
  | .repne, .cmps, .b8, .a32 => some (.repneCmpsM8 .a32 p)
  | .repne, .cmps, .b8, .a64 => some (.repneCmpsM8A64 p)
  | .repne, .cmps, .b16, .a16 => some (.repneCmpsM16 .a16 p)
  | .repne, .cmps, .b16, .a32 => some (.repneCmpsM16 .a32 p)
  | .repne, .cmps, .b32, .a16 => some (.repneCmpsM32 .a16 p)
  | .repne, .cmps, .b32, .a32 => some (.repneCmpsM32 .a32 p)
  | .repne, .cmps, .b64, .a64 => some (.repneCmpsM64A64 p)
  | .repne, .scas, .b8, .a16 => some (.repneScasM8 .a16 p)
  | .repne, .scas, .b8, .a32 => some (.repneScasM8 .a32 p)
  | .repne, .scas, .b8, .a64 => some (.repneScasM8A64 p)
  | .repne, .scas, .b16, .a16 => some (.repneScasM16 .a16 p)
  | .repne, .scas, .b16, .a32 => some (.repneScasM16 .a32 p)
  | .repne, .scas, .b32, .a16 => some (.repneScasM32 .a16 p)
  | .repne, .scas, .b32, .a32 => some (.repneScasM32 .a32 p)
  | .repne, .scas, .b64, .a64 => some (.repneScasM64A64 p)
  | .rep, .ins, .b16, .a64 => some (.repInsM16A64 p)
  | .rep, .outs, .b16, .a64 => some (.repOutsM16A64 p)
  | .rep, .movs, .b16, .a64 => some (.repMovsM16A64 p)
  | .rep, .movs, .b32, .a64 => some (.repMovsM32A64 p)
  | .rep, .movs, .b64, .a32 => some (.repMovsM64A32 p)
  | .rep, .lods, .b16, .a64 => some (.repLodsAxA64 p)
  | .rep, .lods, .b32, .a64 => some (.repLodsEaxA64 p)
  | .rep, .lods, .b64, .a32 => some (.repLodsRaxA32 p)
  | .rep, .stos, .b16, .a64 => some (.repStosM16A64 p)
  | .rep, .stos, .b32, .a64 => some (.repStosM32A64 p)
  | .rep, .stos, .b64, .a32 => some (.repStosM64A32 p)
  | .repe, .cmps, .b16, .a64 => some (.repeCmpsM16A64 p)
  | .repe, .cmps, .b32, .a64 => some (.repeCmpsM32A64 p)
  | .repe, .cmps, .b64, .a32 => some (.repeCmpsM64A32 p)
  | .repe, .scas, .b16, .a64 => some (.repeScasM16A64 p)
  | .repe, .scas, .b32, .a64 => some (.repeScasM32A64 p)
  | .repe, .scas, .b64, .a32 => some (.repeScasM64A32 p)
  | .repne, .cmps, .b16, .a64 => some (.repneCmpsM16A64 p)
  | .repne, .cmps, .b32, .a64 => some (.repneCmpsM32A64 p)
  | .repne, .cmps, .b64, .a32 => some (.repneCmpsM64A32 p)
  | .repne, .scas, .b16, .a64 => some (.repneScasM16A64 p)
  | .repne, .scas, .b32, .a64 => some (.repneScasM32A64 p)
  | .repne, .scas, .b64, .a32 => some (.repneScasM64A32 p)
  | _, _, _, _ => none

/-- `Decode` of R68. `allow` is `AdmitUnlistedForms` (R145). -/
def decode (m : Mode) (allow : Bool) (bs : List Byte) : Except DecodeRefusal Instr :=
  match scanPrefixes bs ⟨none, [], []⟩ with
  | .error e => .error e
  | .ok (sc, rest) =>
    match (takeRex m rest).2 with
    | [] => .error .truncated
    | opc :: _ =>
      match stringOf opc with
      | none => .error .notInScope
      | some (op, isByte) =>
        match sc.rep with
        | none => .error .unprefixedString
        | some r =>
          match kindOf op r with
          | none => .error .f2OnNonCompare
          | some kind =>
            let p : Prefixes := ⟨sc.before, sc.after, (takeRex m rest).1⟩
            match opSizeOf m op isByte p.rexW p.has66 with
            | none => .error .rexwAnd66OnIo
            | some w =>
              match rowOf ⟨kind, op, w, addrSizeOf m p.has67⟩ p with
              | none => .error .notInScope
              | some i => if allow || i.listed then .ok i else .error .formNotListed

/-- The first segment override of a list of legacy prefixes. -/
def overrideOf : List Legacy → Option SegReg
  | [] => none
  | .seg r :: _ => some r
  | .addrSize :: ls => overrideOf ls
  | .opSize :: ls => overrideOf ls

/-- The segment of the source operand: `DS` unless overridden (R56). -/
def Prefixes.sourceSeg (p : Prefixes) : SegReg := (overrideOf p.legacy).getD .ds

/-- `ilen`: the legacy prefixes with the repeat prefix, the REX byte if present, and the opcode (R58). -/
def Prefixes.ilen (p : Prefixes) : Nat :=
  p.before.length + 1 + p.after.length + (if p.rex.isSome then 1 else 0) + 1

/-- `ilen` of an instruction (R58). -/
def Instr.ilen (i : Instr) : Nat := i.pre.ilen

/-! The encoder, from the tables of 30_encoding.md. -/

/-- The byte of a legacy prefix (R53, R55, R56). -/
def legacyByte : Legacy → Byte
  | .addrSize => 0x67
  | .opSize => 0x66
  | .seg .es => 0x26
  | .seg .cs => 0x2E
  | .seg .ss => 0x36
  | .seg .ds => 0x3E
  | .seg .fs => 0x64
  | .seg .gs => 0x65

/-- The repeat prefix byte of a kind (R52). -/
def repeatByte : RepKind → Byte
  | .rep => 0xF3
  | .repe => 0xF3
  | .repne => 0xF2

/-- The REX byte `0100WRXB` (R54). -/
def rexByte (r : Rex) : Byte :=
  4#4 ++ BitVec.ofBool r.w ++ BitVec.ofBool r.r ++ BitVec.ofBool r.x ++ BitVec.ofBool r.b

/-- The opcode byte (R51): bit 0 tells the byte form from the others. -/
def opcodeByte (op : StringOp) (w : OpSize) : Byte :=
  let even : Byte :=
    match op with
    | .ins => 0x6C
    | .outs => 0x6E
    | .movs => 0xA4
    | .cmps => 0xA6
    | .stos => 0xAA
    | .lods => 0xAC
    | .scas => 0xAE
  match w with
  | .b8 => even
  | _ => even ||| 1

/-- The bytes of an instruction in address order (R32, R50, R58). -/
def encode (i : Instr) : List Byte :=
  i.pre.before.map legacyByte ++ [repeatByte i.form.kind] ++ i.pre.after.map legacyByte
    ++ (match i.pre.rex with
        | some r => [rexByte r]
        | none => [])
    ++ [opcodeByte i.form.op i.form.w]

/-- The bytes of a word of spec/opcode_table.json, whose numbers have the first byte most significant (30_encoding.md
section 6; log entry 20). -/
def tableBytes (nbits w : Nat) : List Byte :=
  (List.range (nbits / 8)).map fun k => BitVec.ofNat 8 (w >>> (8 * (nbits / 8 - 1 - k)))

/-- The mode the table's byte sequences are written for: every row is Valid in 64-bit mode (R4; log entries 20, 21). -/
def tableMode : Mode := .mode64

/-- The instruction the decoder reads from a word of the opcode table. -/
def decodeTableWord (nbits w : Nat) : Option Instr :=
  match decode tableMode true (tableBytes nbits w) with
  | .ok i => some i
  | .error _ => none

end Sys2Proof
end

