-- ==== Sys2Proof/Machine/State.lean ====
section
/-! DEFINITION. The state (10_state.md), as plain data, the reasons a step can stop, and the state after reset. -/

namespace Sys2Proof.Machine

open Sys2Proof

/-- The six status flags (R20, R22). -/
structure StatusFlags where
  cf : Bool
  pf : Bool
  af : Bool
  zf : Bool
  sf : Bool
  of : Bool
  deriving DecidableEq, Repr

/-- Memory: a partial map from linear addresses to bytes (R26), as a list in strictly rising address order. An address
that is not listed holds no value (log entry 4). -/
abbrev Memory := List Host.Cell

/-- One event of the I/O trace (R25): the port, the width in bytes, the value. -/
inductive IoEvent where
  | input (port : BitVec 16) (n : Nat) (v : BitVec 32)
  | output (port : BitVec 16) (n : Nat) (v : BitVec 32)
  deriving DecidableEq, Repr

/-- `IntrEffect` (R159, D3): what the handler of an interrupt taken at a window leaves changed when it returns. -/
inductive HandlerEffect where
  /-- the transparent handler, the spec's default -/
  | identity
  /-- a handler that leaves these register and flag values, makes these stores and performs this I/O (R28) -/
  | leaves (rax rcx rdx rsi rdi : Word) (status : StatusFlags) (df : Bool) (stores : List Host.Cell) (io : List IoEvent)
  deriving DecidableEq, Repr

/-- The state. -/
structure State where
  /-- RAX (R10) -/
  rax : Word
  /-- RCX, the count register (R13) -/
  rcx : Word
  /-- RDX, whose low half DX is the port number (R16) -/
  rdx : Word
  /-- RSI, the source index (R14) -/
  rsi : Word
  /-- RDI, the destination index (R14) -/
  rdi : Word
  /-- RIP (R18) -/
  rip : Word
  /-- the status flags of EFLAGS (R20, R22) -/
  status : StatusFlags
  /-- the direction flag of EFLAGS (R20, R23) -/
  df : Bool
  /-- memory (R26) -/
  mem : Memory
  /-- the I/O trace, in the order performed (R25) -/
  ioTrace : List IoEvent
  /-- the launch configuration (R4 to R8, R171) -/
  launch : Launch
  /-- what the coming port reads return, in order (R8, R171 item 6; log entry 7) -/
  ioInput : List (BitVec 32)
  /-- the coming interrupt windows, in order: whether an interrupt is taken there, and what its handler changes (R8,
  R80, R159; log entry 6); past the end no interrupt is taken -/
  windows : List (Option HandlerEffect)
  /-- the MODEL's own: the status flags from before the execution in progress, for R83's first reading (log entry 9) -/
  entryFlags : Option StatusFlags
  /-- the MODEL's own: numbers the free values (log entry 24) -/
  draws : Nat
  deriving DecidableEq, Repr

/-- The access an exception is about: the linear address of the element and the kind (R154, D24). -/
structure Access where
  addr : Word
  kind : AccessKind
  deriving DecidableEq, Repr

/-- The terminal outcomes of a run that report a state: (a), (b) and (c) of R172. -/
inductive Fault where
  /-- The outcome `fault(name, code, addr, kind)` with the state of R161, from which a new run can resume (R163, R164,
  D24). Raised by an element operation: I/O not permitted, a non-canonical operand, what `MemFault` says. It is the
  spec's own end of a run; safe. -/
  | exception (e : Exn) (access : Option Access) (at' : State)
  /-- The outcome `vm_exit` with the state of R161 (R155, R166, D23). Raised where `MemFault` says so; safe. -/
  | vmExit (access : Option Access) (at' : State)
  /-- The outcome `completed` (R172 a): RIP has reached the exit address given with the program. Raised by the step, no
  error of the machine; it is the spec's own end of a run; safe. -/
  | completed (at' : State)
  deriving DecidableEq, Repr

/-- Why a step has no meaning. -/
inductive Refusal where
  /-- No meaning written yet. Raised by no arm of `exec`; safe. -/
  | notModelled (mnemonic : String)
  /-- The bytes at RIP are no in-scope instruction (R3, R60 to R64, R172 d). Raised by the step; safe. -/
  | undecodable (r : DecodeRefusal)
  /-- RIP is at bytes the program does not have, and no exit address says that it ends there (R172 d). Raised by the
  step; safe. -/
  | outsideProgram
  /-- The instruction straddles the top of its address space or does not lie at canonical addresses (R19, D18). Raised
  by the step; safe. -/
  | codeStraddle
  /-- The row is not encodable in this mode (R4, R64). Raised by the repeat step on a term that no bytes decode to in
  this mode, never by the machine's step; safe. -/
  | notEncodable
  /-- An element straddles the wrap of the `A`-bit offsets (R39, D7). Raised by address formation; safe. -/
  | elementStraddle
  /-- A store into the bytes of the executing instruction (R45, D14). Raised by INS, MOVS and STOS; safe. -/
  | storeIntoInstruction
  /-- An element read meets a byte that the launch's memory does not hold and nothing has written (log entry 4). The
  hardware would go on with some value. Raised by the element operations; safe. -/
  | unwrittenByte (addr : Nat)
  deriving DecidableEq, Repr

/-- What a meaning answers. -/
abbrev Result := Host.Outcome State Fault Refusal

/-- The machine right after reset: R29's column for the family, and the model's named values where that column has none
(log entries 1, 2, 3, 4, 24, 33, 34). The spec itself states no reset value (R29, R170). -/
def State.reset : State where
  rax := 0
  rcx := 0
  rdx := 0
  rsi := 0
  rdi := 0
  rip := 0xFFF0
  status := ⟨false, false, false, false, false, false⟩
  df := false
  mem := []
  ioTrace := []
  launch :=
    { mode := .modeCL .d16 .d16
      bases := { es := 0, cs := 0xFFFF0000, ss := 0, ds := 0, fs := 0, gs := 0 }
      vaBits := .va48
      a32Upper := .any
      faultOrder := .sourceFirst
      admitUnlisted := true
      memRules := []
      ioDenied := []
      program := []
      exitAddress := none }
  ioInput := []
  windows := []
  entryFlags := none
  draws := 0

end Sys2Proof.Machine
end

