-- ==== Sys2Proof/Machine/Operands.lean ====
section
/-! DEFINITION. Register views and their writes (R11, R12, R86), the operands an instruction names (R13 to R16, R70,
R71), and linear addresses (R7, R38, R40). -/

namespace Sys2Proof.Machine

open Sys2Proof

/-- The views of a 64-bit register (R11): bits 7:0, 15:8, 15:0, 31:0, 63:0. -/
inductive View where
  | low8 | high8 | low16 | low32 | full
  deriving DecidableEq, Repr

/-- Reading a view returns exactly its bits (R11), zero-extended. -/
def View.get : View → Word → Word
  | .low8, r => (r.setWidth 8).setWidth 64
  | .high8, r => (r.extractLsb' 8 8).setWidth 64
  | .low16, r => (r.setWidth 16).setWidth 64
  | .low32, r => (r.setWidth 32).setWidth 64
  | .full, r => r

/-- Writing a view (R12): the register `old` after its view takes the low bits of `v`. -/
def View.put (m : Mode) : View → Word → Word → Word
  | .low8, old, v => old.extractLsb' 8 56 ++ v.setWidth 8
  | .high8, old, v => old.extractLsb' 16 48 ++ v.setWidth 8 ++ old.setWidth 8
  | .low16, old, v => old.extractLsb' 16 48 ++ v.setWidth 16
  | .low32, old, v =>
    match m with
    | .mode64 => 0#32 ++ v.setWidth 32
    | .modeCL _ _ => old.extractLsb' 32 32 ++ v.setWidth 32
  | .full, _, v => v

/-- The accumulator view of an element size (R15). -/
def accView : OpSize → View
  | .b8 => .low8
  | .b16 => .low16
  | .b32 => .low32
  | .b64 => .full

/-- The count and index view of an address size (R70, R71). -/
def addrView : AddrSize → View
  | .a16 => .low16
  | .a32 => .low32
  | .a64 => .full

/-- `Acc` (R15, R85). -/
def acc (w : OpSize) (s : State) : Word := (accView w).get s.rax

/-- `CountReg` (R13, R70). -/
def countReg (a : AddrSize) (s : State) : Word := (addrView a).get s.rcx

/-- `SrcIdx` (R14, R71). -/
def srcIdx (a : AddrSize) (s : State) : Word := (addrView a).get s.rsi

/-- `DstIdx` (R14, R71). -/
def dstIdx (a : AddrSize) (s : State) : Word := (addrView a).get s.rdi

/-- `DX` (R16). -/
def portReg (s : State) : BitVec 16 := s.rdx.setWidth 16

/-- `Acc <- v` (R12, R15, R90). -/
def setAcc (w : OpSize) (v : Word) (s : State) : State :=
  { s with rax := (accView w).put s.launch.mode s.rax v }

/-- The register `old` after an implicit write of the low bits of `v` (R86). -/
def implicitValue (s : State) (a : AddrSize) (old v : Word) : Word :=
  match a, s.launch.mode with
  | .a32, .mode64 =>
    match s.launch.a32Upper with
    | .zero => 0#32 ++ v.setWidth 32
    | .keep => old.extractLsb' 32 32 ++ v.setWidth 32
    | .any => Config.upperHalf s.draws ++ v.setWidth 32
  | _, m => (addrView a).put m old v

/-- `CountReg <- v` (R76, R86). -/
def setCount (a : AddrSize) (v : Word) (s : State) : State :=
  { s with rcx := implicitValue s a s.rcx v, draws := s.draws + 1 }

/-- `SrcIdx <- v` (R85, R86). -/
def setSrc (a : AddrSize) (v : Word) (s : State) : State :=
  { s with rsi := implicitValue s a s.rsi v, draws := s.draws + 1 }

/-- `DstIdx <- v` (R85, R86). -/
def setDst (a : AddrSize) (v : Word) (s : State) : State :=
  { s with rdi := implicitValue s a s.rdi v, draws := s.draws + 1 }

/-- `idx + delta` (R85): `+w` where `DF = 0`, `-w` where `DF = 1`; the write keeps it modulo `2^A` (R39). -/
def moved (df : Bool) (w : OpSize) (idx : Word) : Word :=
  if df then idx - BitVec.ofNat 64 w.bytes else idx + BitVec.ofNat 64 w.bytes

/-- `Adv(SrcIdx)` (R85). -/
def advSrc (a : AddrSize) (w : OpSize) (s : State) : State := setSrc a (moved s.df w (srcIdx a s)) s

/-- `Adv(DstIdx)` (R85). -/
def advDst (a : AddrSize) (w : OpSize) (s : State) : State := setDst a (moved s.df w (dstIdx a s)) s

/-- A linear address has 64 bits in `Mode64` and 32 in `ModeCL` (R26, R38). -/
def linTrunc (m : Mode) (a : Word) : Word :=
  match m with
  | .mode64 => a
  | .modeCL _ _ => (a.setWidth 32).setWidth 64

/-- `SegBase(s)` as address formation uses it: in `Mode64` only FS and GS have a base (R7, R56). -/
def segBase (l : Launch) (seg : SegReg) : Word :=
  match l.mode, seg with
  | .mode64, .fs => l.bases.fs
  | .mode64, .gs => l.bases.gs
  | .mode64, _ => 0
  | .modeCL _ _, r => l.bases.get r

/-- The linear address of an offset in a segment (R38), before the checks. -/
def lin (l : Launch) (seg : SegReg) (off : Word) : Word := linTrunc l.mode (segBase l seg + off)

/-- The address of byte `k` of an element or instruction at linear address `a` (R26, R38; log entry 16). -/
def byteAddr (l : Launch) (a : Word) (k : Nat) : Word := linTrunc l.mode (a + BitVec.ofNat 64 k)

/-- The byte addresses of `n` bytes from `a`, as memory keys (R30, R38). -/
def byteAddrs (l : Launch) (a : Word) (n : Nat) : List Nat :=
  (List.range n).map fun k => (byteAddr l a k).toNat

/-- `Canonical(a)` (R7): bits `63:VA_BITS-1` are all equal. -/
def canonical (v : VaBits) (a : Word) : Bool :=
  let top := a.sshiftRight (v.bits - 1)
  top == 0#64 || top == BitVec.allOnes 64

/-- Every byte of `n` bytes from `a` is at a canonical address, or the mode makes no such check (R40). -/
def allCanonical (l : Launch) (a : Word) (n : Nat) : Bool :=
  match l.mode with
  | .mode64 => (List.range n).all fun k => canonical l.vaBits (byteAddr l a k)
  | .modeCL _ _ => true

/-- The width of the instruction pointer that is meaningful in a mode: RIP, EIP or IP (R18, R19). -/
def ipView : Mode → View
  | .mode64 => .full
  | .modeCL _ .d32 => .low32
  | .modeCL _ .d16 => .low16

def ipBits : Mode → Nat
  | .mode64 => 64
  | .modeCL _ .d32 => 32
  | .modeCL _ .d16 => 16

/-- The linear address of the first byte of the instruction at RIP (R18, R32; log entry 17). -/
def codeAddr (s : State) : Word := lin s.launch .cs ((ipView s.launch.mode).get s.rip)

/-- `RIP + ilen` (R19): modulo `2^64` in `Mode64`, truncated to 32 or 16 bits in `ModeCL`. -/
def nextRip (m : Mode) (rip : Word) (ilen : Nat) : Word := (ipView m).get (rip + BitVec.ofNat 64 ilen)

end Sys2Proof.Machine
end

