-- ==== Sys2Proof/Machine/Flags.lean ====
section
/-! DEFINITION. `SubFlags` (R94, R95) and the EFLAGS positions (R20). -/

namespace Sys2Proof.Machine

open Sys2Proof

/-- An even number of 1 bits in a byte (R95). -/
def evenParity (b : Byte) : Bool :=
  !(b.getLsbD 0 ^^ b.getLsbD 1 ^^ b.getLsbD 2 ^^ b.getLsbD 3 ^^ b.getLsbD 4 ^^ b.getLsbD 5 ^^ b.getLsbD 6
    ^^ b.getLsbD 7)

/-- `SubFlags_W(x, y)`: the flags of `x - y` for `W`-bit numbers (R94, R95). -/
def subFlagsAt (W : Nat) (x y : BitVec W) : StatusFlags :=
  let r := x - y
  { zf := r == 0#W
    cf := x.ult y
    sf := r.msb
    of := x.msb != y.msb && r.msb != x.msb
    af := (x.setWidth 4).ult (y.setWidth 4)
    pf := evenParity (r.setWidth 8) }

/-- `SubFlags_W` on the low `W` bits of two 64-bit carriers. -/
def subFlags (w : OpSize) (x y : Word) : StatusFlags :=
  match w with
  | .b8 => subFlagsAt 8 (x.setWidth 8) (y.setWidth 8)
  | .b16 => subFlagsAt 16 (x.setWidth 16) (y.setWidth 16)
  | .b32 => subFlagsAt 32 (x.setWidth 32) (y.setWidth 32)
  | .b64 => subFlagsAt 64 x y

/-- The status flags after a comparison (R92, R93). -/
def setStatus (f : StatusFlags) (s : State) : State := { s with status := f }

/-- EFLAGS with the seven modelled bits at their positions and bit 1 fixed to 1 (R20); the other bits are outside the
spec and read as 0 here. -/
def eflags (s : State) : BitVec 32 :=
  0#20 ++ BitVec.ofBool s.status.of ++ BitVec.ofBool s.df ++ 0#2 ++ BitVec.ofBool s.status.sf
    ++ BitVec.ofBool s.status.zf ++ 0#1 ++ BitVec.ofBool s.status.af ++ 0#1 ++ BitVec.ofBool s.status.pf ++ 1#1
    ++ BitVec.ofBool s.status.cf

end Sys2Proof.Machine
end

