-- ==== Sys2Proof/Machine/Ops.lean ====
section
/-! DEFINITION. The named operations: memory (20_memory.md), ports (R25), address formation with its checks (R38 to
R42, R149), taking an exception and resuming after one (R79, R161 to R164), interrupts (R80, R159), the repeat step
(R77) and the fetch (R32). -/

namespace Sys2Proof.Machine

open Sys2Proof

/-! Memory. -/

/-- The byte at an address, if one has been written (R26; log entry 4). -/
def readByte : Memory → Nat → Option Byte
  | [], _ => none
  | (k, v) :: rest, a => if k = a then some v else readByte rest a

/-- Memory with one byte stored. -/
def writeByte : Memory → Nat → Byte → Memory
  | [], a, b => [(a, b)]
  | (k, v) :: rest, a, b =>
    if a < k then (a, b) :: (k, v) :: rest
    else if a = k then (a, b) :: rest
    else (k, v) :: writeByte rest a b

/-- The canonical form: 64-bit addresses, strictly rising. An unlisted address has no value, so no entry can equal what
it reads as. -/
def Memory.wf : Memory → Bool
  | [] => true
  | (k, _) :: rest => decide (k < 2 ^ 64) && rest.all (fun c => decide (k < c.1)) && Memory.wf rest

/-- `MemRead` over a list of byte addresses, the least significant byte first (R30); the error is the first address
that holds no value. -/
def gather (m : Memory) : List Nat → Except Nat Word
  | [] => .ok 0#64
  | a :: as =>
    match readByte m a with
    | none => .error a
    | some b =>
      match gather m as with
      | .error e => .error e
      | .ok v => .ok (v.extractLsb' 0 56 ++ b)

/-- `MemWrite` over a list of byte addresses, the least significant byte first (R30). -/
def scatter (m : Memory) : List Nat → Word → Memory
  | [], _ => m
  | a :: as, v => scatter (writeByte m a (v.setWidth 8)) as (v >>> 8)

/-- `MemRead(a, w)` (R30). -/
def readElem (w : OpSize) (a : Word) (s : State) : Except Nat Word := gather s.mem (byteAddrs s.launch a w.bytes)

/-- `MemWrite(a, w, v)` (R30). -/
def writeElem (w : OpSize) (a v : Word) (s : State) : State :=
  { s with mem := scatter s.mem (byteAddrs s.launch a w.bytes) v }

/-- The rest of a meaning, where no fault and no refusal has ended it. -/
def andThen (r : Result) (f : State → Result) : Result :=
  match r with
  | .next s => f s
  | .fault e => .fault e
  | .refused e => .refused e

/-- The rest of a meaning that reads an element (log entry 4). -/
def withElem (r : Except Nat Word) (f : Word → Result) : Result :=
  match r with
  | .ok v => f v
  | .error a => .refused (.unwrittenByte a)

/-- The addresses of the bytes of the instruction at RIP (R32). -/
def codeAddrs (ilen : Nat) (s : State) : List Nat := byteAddrs s.launch (codeAddr s) ilen

/-- A store of one element reaches a byte of the executing instruction (R45). -/
def hitsCode (w : OpSize) (ilen : Nat) (a : Word) (s : State) : Bool :=
  (byteAddrs s.launch a w.bytes).any fun x => (codeAddrs ilen s).contains x

/-- `MemWrite(a, w, v)` in an in-scope store: refused where it writes the executing instruction (R45). -/
def storeElem (w : OpSize) (ilen : Nat) (a v : Word) (s : State) : Result :=
  if hitsCode w ilen a s then .refused .storeIntoInstruction else .next (writeElem w a v s)

/-! Ports. -/

/-- `IoPermitted(DX, w)` (R8, R153). -/
def ioPermitted (w : OpSize) (s : State) : Bool := !s.launch.ioDenied.contains (portReg s, w.bytes)

/-- The low `W` bits of a port value; a port access moves 1, 2 or 4 bytes (R25). -/
def portTrunc (w : OpSize) (v : BitVec 32) : BitVec 32 :=
  match w with
  | .b8 => (v.setWidth 8).setWidth 32
  | .b16 => (v.setWidth 16).setWidth 32
  | .b32 => v
  | .b64 => v

/-- What `IoRead(DX, w)` returns now: the launch's next answer, and after the last of them a free value (R8; log
entry 7). -/
def portValue (w : OpSize) (s : State) : BitVec 32 :=
  portTrunc w
    (match s.ioInput with
      | v :: _ => v
      | [] => Config.portRead s.draws (portReg s) w.bytes)

/-- The state after a port read: the answer is used up and the trace has its `In` event (R25). -/
def portInput (w : OpSize) (s : State) : State :=
  { s with
    ioInput := s.ioInput.tail
    ioTrace := s.ioTrace ++ [.input (portReg s) w.bytes (portValue w s)]
    draws := s.draws + 1 }

/-- `IoWrite(DX, w, v)`: the trace has its `Out` event (R25). -/
def portOutput (w : OpSize) (v : Word) (s : State) : State :=
  { s with ioTrace := s.ioTrace ++ [.output (portReg s) w.bytes (portTrunc w (v.setWidth 32))] }

/-! Which accesses are rejected. -/

/-- Where a memory rule first rejects an access: the index of the lowest rejected byte, in the order of the element's
bytes; a rule about a whole element rejects it at its first byte. -/
def ruleHit (l : Launch) (r : MemRule) (kind : AccessKind) (a : Word) (n : Nat) : Option Nat :=
  if r.kind = kind then
    match r.scope with
    | .range first last => (byteAddrs l a n).findIdx? fun x => decide (first ≤ x ∧ x ≤ last)
    | .element addr size => if a.toNat = addr ∧ n = size then some 0 else none
  else none

/-- R149 step 2: `#GP(0)` and `#SS(0)` before `#AC(0)` before `#PF`. Where a VM exit stands is free (log entry 14). -/
def eventRank : MemEvent → Nat
  | .exn .gp0 => 0
  | .exn .ss0 => 0
  | .exn .ac0 => 1
  | .exn (.pf _) => 2
  | .vmExit => Config.vmExitRank

/-- Of two rejections of one access, the one R149 reports: the lower rank, then the lower byte, then the earlier rule. -/
def firstEvent (x y : Nat × MemEvent) : Nat × MemEvent :=
  if eventRank y.2 < eventRank x.2 ∨ (eventRank y.2 = eventRank x.2 ∧ y.1 < x.1) then y else x

/-- The rejections of one access by the launch's rules, in the rules' order. -/
def rejections (l : Launch) (kind : AccessKind) (a : Word) (n : Nat) : List (Nat × MemEvent) :=
  l.memRules.filterMap fun r => (ruleHit l r kind a n).map fun k => (k, r.event)

/-- `MemFault(kind, a, n)` (R8, R41, R42, R149). -/
def memFault (l : Launch) (kind : AccessKind) (a : Word) (n : Nat) : Option MemEvent :=
  match rejections l kind a n with
  | [] => none
  | x :: xs => some (xs.foldl firstEvent x).2

/-- What forming an operand's address gives. -/
inductive Operand where
  /-- the linear address -/
  | at' (a : Word)
  /-- an exception or a VM exit of this access -/
  | raises (e : MemEvent) (access : Access)
  /-- no meaning -/
  | refused (r : Refusal)
  deriving DecidableEq, Repr

/-- The element straddles the wrap of the `A`-bit offsets (R39). -/
def straddles (w : OpSize) (a : AddrSize) (off : Word) : Bool := decide (2 ^ a.bits < off.toNat + w.bytes)

/-- `Lin(seg, off)` with the canonical check of every byte (R38, R39, R40; log entries 13, 15, 27). -/
def address (l : Launch) (kind : AccessKind) (seg : SegReg) (w : OpSize) (a : AddrSize) (off : Word) : Operand :=
  if straddles w a off then .refused .elementStraddle
  else if allCanonical l (lin l seg off) w.bytes then .at' (lin l seg off)
  else .raises (.exn .gp0) ⟨lin l seg off, kind⟩

/-- The address of an operand whose access `MemFault` admits (R38, R42). -/
def operand (l : Launch) (kind : AccessKind) (seg : SegReg) (w : OpSize) (a : AddrSize) (off : Word) : Operand :=
  match address l kind seg w a off with
  | .at' x =>
    match memFault l kind x w.bytes with
    | some e => .raises e ⟨x, kind⟩
    | none => .at' x
  | o => o

/-! Taking an exception, and going on after one. -/

/-- The flags a fault in REPE/REPNE CMPS/SCAS shows, drawn at each fault (R83). -/
def faultFlags (s : State) : State :=
  { s with
    status :=
      match Config.faultFlagsImage s.draws with
      | .afterLastIteration => s.status
      | .beforeInstruction => s.entryFlags.getD s.status
    draws := s.draws + 1 }

/-- The state an exception or a VM exit reports (R161): that of the last completed iteration, RIP at the instruction;
`compares` tells CMPS and SCAS, whose flags are restored (R83). -/
def faultState (compares : Bool) (s : State) : State :=
  { (if compares then faultFlags s else s) with entryFlags := none }

/-- TAKING AN EXCEPTION (R79, R161, R163, D24): the run ends with the outcome `fault(name, code, addr, kind)`, or
`vm_exit` (R155), and the state of R161. The spec describes no trap entry (log entry 11). -/
def takeException (compares : Bool) (e : MemEvent) (access : Option Access) (s : State) : Result :=
  match e with
  | .exn x => .fault (.exception x access (faultState compares s))
  | .vmExit => .fault (.vmExit access (faultState compares s))

/-- The state a terminal outcome reports (R161, R172). -/
def Fault.state : Fault → State
  | .exception _ _ s => s
  | .vmExit _ s => s
  | .completed s => s

/-- RETURN FROM AN EXCEPTION (R82, R164): a new run from the fault state, with the memory rules the handler has left. -/
def resume (rules : List MemRule) (s : State) : State := { s with launch := { s.launch with memRules := rules } }

/-- The rest of a meaning with one memory operand. -/
def withOperand (compares : Bool) (o : Operand) (s : State) (f : Word → Result) : Result :=
  match o with
  | .at' a => f a
  | .raises e x => takeException compares e (some x) s
  | .refused r => .refused r

/-- The rest of a meaning with a source and a destination operand in memory. Where both raise, `FaultOrder` says whose
exception is reported (R149 step 3, D22). -/
def withOperands (compares : Bool) (src dst : Operand) (s : State) (f : Word → Word → Result) : Result :=
  match src, dst with
  | .refused r, _ => .refused r
  | _, .refused r => .refused r
  | .at' a, .at' b => f a b
  | .raises e x, .at' _ => takeException compares e (some x) s
  | .at' _, .raises e x => takeException compares e (some x) s
  | .raises e x, .raises e' x' =>
    match s.launch.faultOrder with
    | .sourceFirst => takeException compares e (some x) s
    | .destinationFirst => takeException compares e' (some x') s

/-! Interrupts and the repeat step. -/

/-- The stores of an interrupt handler, at 64-bit addresses. -/
def writeCells : Memory → List Host.Cell → Memory
  | m, [] => m
  | m, (a, b) :: cs => writeCells (writeByte m (a % 2 ^ 64) b) cs

/-- `IntrEffect` (R159). -/
def handled (h : HandlerEffect) (s : State) : State :=
  match h with
  | .identity => s
  | .leaves rax rcx rdx rsi rdi status df stores io =>
    { s with
      rax := rax
      rcx := rcx
      rdx := rdx
      rsi := rsi
      rdi := rdi
      status := status
      df := df
      mem := writeCells s.mem stores
      ioTrace := s.ioTrace ++ io }

/-- An interrupt taken in the window before an iteration (R80): the handler has returned, RIP is still at the
instruction, and what follows is a fresh execution of it (R28, R82). -/
def serviced (h : HandlerEffect) (s : State) : State :=
  { handled h s with windows := s.windows.tail, entryFlags := none }

/-- The window passed without an interrupt; the flags from before this execution are kept for R83. -/
def enter (s : State) : State :=
  { s with windows := s.windows.tail, entryFlags := some (s.entryFlags.getD s.status) }

/-- `RIP <- RIP + ilen` (R19, R78). -/
def complete (ilen : Nat) (s : State) : State :=
  { s with rip := nextRip s.launch.mode s.rip ilen, entryFlags := none }

/-- What an execution of zero iterations leaves in RCX: no write (R73), except that under `A32Upper = any` the upper
half is open (R86). -/
def zeroCount (a : AddrSize) (s : State) : State :=
  match a, s.launch.mode, s.launch.a32Upper with
  | .a32, .mode64, .any => setCount .a32 (countReg .a32 s) s
  | _, _, _ => s

/-- Termination condition 2 (R74). -/
def stopsOn : RepKind → Bool → Bool
  | .rep, _ => false
  | .repe, zf => !zf
  | .repne, zf => zf

/-- The row has an encoding in the mode (R4, R5, R54, R64). -/
def encodable (m : Mode) (w : OpSize) (a : AddrSize) : Bool :=
  match m with
  | .mode64 => decide (a ≠ .a16)
  | .modeCL _ _ => decide (a ≠ .a64) && decide (w ≠ .b64)

/-- The end of an iteration: the decrement, then the two termination conditions in order (R75, R76, R78). -/
def endIteration (kind : RepKind) (a : AddrSize) (ilen : Nat) (s : State) : State :=
  let t := setCount a (countReg a s - 1#64) s
  if countReg a t = 0#64 then complete ilen t
  else if stopsOn kind t.status.zf then complete ilen t
  else t

/-- `StepRep` (R77): one execution of the instruction at RIP with at most one iteration, or one interrupt. -/
def repStep (kind : RepKind) (w : OpSize) (a : AddrSize) (ilen : Nat) (element : State → Result) (s : State) : Result :=
  if encodable s.launch.mode w a then
    if countReg a s = 0#64 then .next (complete ilen (zeroCount a s))
    else
      match s.windows with
      | some h :: _ => .next (serviced h s)
      | _ => andThen (element (enter s)) fun t => .next (endIteration kind a ilen t)
  else .refused .notEncodable

/-! The fetch. -/

/-- The bytes at a list of addresses, up to the first that holds none. -/
def bytesAt (m : Memory) : List Nat → List Byte
  | [] => []
  | a :: as =>
    match readByte m a with
    | none => []
    | some b => b :: bytesAt m as

/-- The longest in-scope instruction has 6 bytes: four legacy prefixes, REX, the opcode (R58). -/
def maxInstrBytes : Nat := 6

/-- The program's bytes at RIP (R32): those of the launch, whatever has been stored since (R45, D14; log entry 33). -/
def fetch (s : State) : List Byte := bytesAt s.launch.program (codeAddrs maxInstrBytes s)

/-- RIP has reached the exit address (R172 a), as far as the mode's instruction pointer goes. -/
def atExit (s : State) : Bool :=
  match s.launch.exitAddress with
  | some e => decide ((ipView s.launch.mode).get s.rip = (ipView s.launch.mode).get e)
  | none => false

/-- The instruction does not straddle the top of its address space, and in `Mode64` lies at canonical addresses (R19,
D18). -/
def codeFits (ilen : Nat) (s : State) : Bool :=
  let ip := (ipView s.launch.mode).get s.rip
  decide (ip.toNat + ilen ≤ 2 ^ ipBits s.launch.mode) && allCanonical s.launch (codeAddr s) ilen
    && (match s.launch.mode with
        | .mode64 => true
        | .modeCL _ _ => decide ((codeAddr s).toNat + ilen ≤ 2 ^ 32))

/-- What the fetch gives: the decoded instruction, or why there is none. -/
def fetchDecode (s : State) : Except DecodeRefusal Instr := decode s.launch.mode s.launch.admitUnlisted (fetch s)

/-- Bytes stored from where the next instruction is fetched on, zeros after them (log entry 20). -/
def placeBytes (s : State) (bs : List Byte) (m : Memory) : Memory :=
  ((codeAddrs maxInstrBytes s).zip (bs ++ List.replicate maxInstrBytes 0#8)).foldl (fun m c => writeByte m c.1 c.2) m

end Sys2Proof.Machine
end

