-- ==== Sys2Proof/Machine/Cmps.lean ====
section
/-! DEFINITION. CMPS: compare seg:SrcIdx with ES:DstIdx (R92): the element operation and the meaning of each row. -/

namespace Sys2Proof.Machine

open Sys2Proof

/-- `Element(CMPS, W, A, seg)` (R92): the flags of the source element minus the destination element. -/
def elementCmps (w : OpSize) (a : AddrSize) (seg : SegReg) (s : State) : Result :=
  withOperands true (operand s.launch .read seg w a (srcIdx a s)) (operand s.launch .read .es w a (dstIdx a s)) s
    fun src dst =>
      withElem (readElem w src s) fun x =>
        withElem (readElem w dst s) fun y => .next (advDst a w (advSrc a w (setStatus (subFlags w x y) s)))

/-- `REPE CMPS m8, m8` (row 26, R125). -/
def execRepeCmpsM8 (a : AddrEC) (p : Prefixes) (s : State) : Result :=
  repStep .repe .b8 a.size p.ilen (elementCmps .b8 a.size p.sourceSeg) s

/-- `REPE CMPS m8, m8` (row 27, R126). -/
def execRepeCmpsM8A64 (p : Prefixes) (s : State) : Result :=
  repStep .repe .b8 .a64 p.ilen (elementCmps .b8 .a64 p.sourceSeg) s

/-- `REPE CMPS m16, m16` (row 28, R127). -/
def execRepeCmpsM16 (a : AddrEC) (p : Prefixes) (s : State) : Result :=
  repStep .repe .b16 a.size p.ilen (elementCmps .b16 a.size p.sourceSeg) s

/-- `REPE CMPS m32, m32` (row 29, R128). -/
def execRepeCmpsM32 (a : AddrEC) (p : Prefixes) (s : State) : Result :=
  repStep .repe .b32 a.size p.ilen (elementCmps .b32 a.size p.sourceSeg) s

/-- `REPE CMPS m64, m64` (row 30, R129). -/
def execRepeCmpsM64A64 (p : Prefixes) (s : State) : Result :=
  repStep .repe .b64 .a64 p.ilen (elementCmps .b64 .a64 p.sourceSeg) s

/-- `REPNE CMPS m8, m8` (row 36, R135). -/
def execRepneCmpsM8 (a : AddrEC) (p : Prefixes) (s : State) : Result :=
  repStep .repne .b8 a.size p.ilen (elementCmps .b8 a.size p.sourceSeg) s

/-- `REPNE CMPS m8, m8` (row 37, R136). -/
def execRepneCmpsM8A64 (p : Prefixes) (s : State) : Result :=
  repStep .repne .b8 .a64 p.ilen (elementCmps .b8 .a64 p.sourceSeg) s

/-- `REPNE CMPS m16, m16` (row 38, R137). -/
def execRepneCmpsM16 (a : AddrEC) (p : Prefixes) (s : State) : Result :=
  repStep .repne .b16 a.size p.ilen (elementCmps .b16 a.size p.sourceSeg) s

/-- `REPNE CMPS m32, m32` (row 39, R138). -/
def execRepneCmpsM32 (a : AddrEC) (p : Prefixes) (s : State) : Result :=
  repStep .repne .b32 a.size p.ilen (elementCmps .b32 a.size p.sourceSeg) s

/-- `REPNE CMPS m64, m64` (row 40, R139). -/
def execRepneCmpsM64A64 (p : Prefixes) (s : State) : Result :=
  repStep .repne .b64 .a64 p.ilen (elementCmps .b64 .a64 p.sourceSeg) s

/-- `REPE CMPS m16, m16` (row U12, R145). -/
def execRepeCmpsM16A64 (p : Prefixes) (s : State) : Result :=
  repStep .repe .b16 .a64 p.ilen (elementCmps .b16 .a64 p.sourceSeg) s

/-- `REPE CMPS m32, m32` (row U13, R145). -/
def execRepeCmpsM32A64 (p : Prefixes) (s : State) : Result :=
  repStep .repe .b32 .a64 p.ilen (elementCmps .b32 .a64 p.sourceSeg) s

/-- `REPE CMPS m64, m64` (row U14, R145). -/
def execRepeCmpsM64A32 (p : Prefixes) (s : State) : Result :=
  repStep .repe .b64 .a32 p.ilen (elementCmps .b64 .a32 p.sourceSeg) s

/-- `REPNE CMPS m16, m16` (row U18, R145). -/
def execRepneCmpsM16A64 (p : Prefixes) (s : State) : Result :=
  repStep .repne .b16 .a64 p.ilen (elementCmps .b16 .a64 p.sourceSeg) s

/-- `REPNE CMPS m32, m32` (row U19, R145). -/
def execRepneCmpsM32A64 (p : Prefixes) (s : State) : Result :=
  repStep .repne .b32 .a64 p.ilen (elementCmps .b32 .a64 p.sourceSeg) s

/-- `REPNE CMPS m64, m64` (row U20, R145). -/
def execRepneCmpsM64A32 (p : Prefixes) (s : State) : Result :=
  repStep .repne .b64 .a32 p.ilen (elementCmps .b64 .a32 p.sourceSeg) s

end Sys2Proof.Machine
end

