-- ==== Sys2Proof/Machine/Ins.lean ====
section
/-! DEFINITION. INS: input from port DX to ES:DstIdx (R87): the element operation and the meaning of each row. -/

namespace Sys2Proof.Machine

open Sys2Proof

/-- What an INS whose write faults leaves: the port read may have happened, its value lost, or may not have (R84). -/
def insFaultState (w : OpSize) (s : State) : State :=
  if Config.insReadsFirst s.draws then portInput w { s with draws := s.draws + 1 } else { s with draws := s.draws + 1 }

/-- `Element(INS, W, A, -)` (R87): the permission check, the destination address, then the write check and the port read
in an order the spec leaves open (R84; log entry 10), the store, and the advance. -/
def elementIns (w : OpSize) (a : AddrSize) (ilen : Nat) (s : State) : Result :=
  if ioPermitted w s then
    withOperand false (address s.launch .write .es w a (dstIdx a s)) s fun d =>
      match memFault s.launch .write d w.bytes with
      | some e => takeException false e (some ⟨d, .write⟩) (insFaultState w s)
      | none =>
        andThen (storeElem w ilen d ((portValue w s).setWidth 64) (portInput w s)) fun t => .next (advDst a w t)
  else takeException false (.exn .gp0) none s

/-- `REP INS m8, DX` (row 1, R100). -/
def execRepInsM8 (a : AddrEC) (p : Prefixes) (s : State) : Result :=
  repStep .rep .b8 a.size p.ilen (elementIns .b8 a.size p.ilen) s

/-- `REP INS m8, DX` (row 2, R101). -/
def execRepInsM8A64 (p : Prefixes) (s : State) : Result :=
  repStep .rep .b8 .a64 p.ilen (elementIns .b8 .a64 p.ilen) s

/-- `REP INS m16, DX` (row 3, R102). -/
def execRepInsM16 (a : AddrEC) (p : Prefixes) (s : State) : Result :=
  repStep .rep .b16 a.size p.ilen (elementIns .b16 a.size p.ilen) s

/-- `REP INS m32, DX` (row 4, R103). -/
def execRepInsM32 (a : AddrEC) (p : Prefixes) (s : State) : Result :=
  repStep .rep .b32 a.size p.ilen (elementIns .b32 a.size p.ilen) s

/-- `REP INS r/m32, DX` (row 5, R104). -/
def execRepInsRm32A64 (p : Prefixes) (s : State) : Result :=
  repStep .rep .b32 .a64 p.ilen (elementIns .b32 .a64 p.ilen) s

/-- `REP INS m16, DX` (row U1, R145). -/
def execRepInsM16A64 (p : Prefixes) (s : State) : Result :=
  repStep .rep .b16 .a64 p.ilen (elementIns .b16 .a64 p.ilen) s

end Sys2Proof.Machine
end

