-- ==== Sys2Proof/Machine/Lods.lean ====
section
/-! DEFINITION. LODS: load from seg:SrcIdx to the accumulator (R90): the element operation and the meaning of each row. -/

namespace Sys2Proof.Machine

open Sys2Proof

/-- `Element(LODS, W, A, seg)` (R90). -/
def elementLods (w : OpSize) (a : AddrSize) (seg : SegReg) (s : State) : Result :=
  withOperand false (operand s.launch .read seg w a (srcIdx a s)) s fun src =>
    withElem (readElem w src s) fun v => .next (advSrc a w (setAcc w v s))

/-- `REP LODS AL` (row 16, R115). -/
def execRepLodsAl (a : AddrEC) (p : Prefixes) (s : State) : Result :=
  repStep .rep .b8 a.size p.ilen (elementLods .b8 a.size p.sourceSeg) s

/-- `REP LODS AL` (row 17, R116). -/
def execRepLodsAlA64 (p : Prefixes) (s : State) : Result :=
  repStep .rep .b8 .a64 p.ilen (elementLods .b8 .a64 p.sourceSeg) s

/-- `REP LODS AX` (row 18, R117). -/
def execRepLodsAx (a : AddrEC) (p : Prefixes) (s : State) : Result :=
  repStep .rep .b16 a.size p.ilen (elementLods .b16 a.size p.sourceSeg) s

/-- `REP LODS EAX` (row 19, R118). -/
def execRepLodsEax (a : AddrEC) (p : Prefixes) (s : State) : Result :=
  repStep .rep .b32 a.size p.ilen (elementLods .b32 a.size p.sourceSeg) s

/-- `REP LODS RAX` (row 20, R119). -/
def execRepLodsRaxA64 (p : Prefixes) (s : State) : Result :=
  repStep .rep .b64 .a64 p.ilen (elementLods .b64 .a64 p.sourceSeg) s

/-- `REP LODS AX` (row U6, R145). -/
def execRepLodsAxA64 (p : Prefixes) (s : State) : Result :=
  repStep .rep .b16 .a64 p.ilen (elementLods .b16 .a64 p.sourceSeg) s

/-- `REP LODS EAX` (row U7, R145). -/
def execRepLodsEaxA64 (p : Prefixes) (s : State) : Result :=
  repStep .rep .b32 .a64 p.ilen (elementLods .b32 .a64 p.sourceSeg) s

/-- `REP LODS RAX` (row U8, R145). -/
def execRepLodsRaxA32 (p : Prefixes) (s : State) : Result :=
  repStep .rep .b64 .a32 p.ilen (elementLods .b64 .a32 p.sourceSeg) s

end Sys2Proof.Machine
end

