-- ==== Sys2Proof/Machine/Movs.lean ====
section
/-! DEFINITION. MOVS: move from seg:SrcIdx to ES:DstIdx (R88): the element operation and the meaning of each row. -/

namespace Sys2Proof.Machine

open Sys2Proof

/-- `Element(MOVS, W, A, seg)` (R88). -/
def elementMovs (w : OpSize) (a : AddrSize) (seg : SegReg) (ilen : Nat) (s : State) : Result :=
  withOperands false (operand s.launch .read seg w a (srcIdx a s)) (operand s.launch .write .es w a (dstIdx a s)) s
    fun src dst =>
      withElem (readElem w src s) fun v =>
        andThen (storeElem w ilen dst v s) fun t => .next (advDst a w (advSrc a w t))

/-- `REP MOVS m8, m8` (row 6, R105). -/
def execRepMovsM8 (a : AddrEC) (p : Prefixes) (s : State) : Result :=
  repStep .rep .b8 a.size p.ilen (elementMovs .b8 a.size p.sourceSeg p.ilen) s

/-- `REP MOVS m8, m8` (row 7, R106). -/
def execRepMovsM8A64 (p : Prefixes) (s : State) : Result :=
  repStep .rep .b8 .a64 p.ilen (elementMovs .b8 .a64 p.sourceSeg p.ilen) s

/-- `REP MOVS m16, m16` (row 8, R107). -/
def execRepMovsM16 (a : AddrEC) (p : Prefixes) (s : State) : Result :=
  repStep .rep .b16 a.size p.ilen (elementMovs .b16 a.size p.sourceSeg p.ilen) s

/-- `REP MOVS m32, m32` (row 9, R108). -/
def execRepMovsM32 (a : AddrEC) (p : Prefixes) (s : State) : Result :=
  repStep .rep .b32 a.size p.ilen (elementMovs .b32 a.size p.sourceSeg p.ilen) s

/-- `REP MOVS m64, m64` (row 10, R109). -/
def execRepMovsM64A64 (p : Prefixes) (s : State) : Result :=
  repStep .rep .b64 .a64 p.ilen (elementMovs .b64 .a64 p.sourceSeg p.ilen) s

/-- `REP MOVS m16, m16` (row U3, R145). -/
def execRepMovsM16A64 (p : Prefixes) (s : State) : Result :=
  repStep .rep .b16 .a64 p.ilen (elementMovs .b16 .a64 p.sourceSeg p.ilen) s

/-- `REP MOVS m32, m32` (row U4, R145). -/
def execRepMovsM32A64 (p : Prefixes) (s : State) : Result :=
  repStep .rep .b32 .a64 p.ilen (elementMovs .b32 .a64 p.sourceSeg p.ilen) s

/-- `REP MOVS m64, m64` (row U5, R145). -/
def execRepMovsM64A32 (p : Prefixes) (s : State) : Result :=
  repStep .rep .b64 .a32 p.ilen (elementMovs .b64 .a32 p.sourceSeg p.ilen) s

end Sys2Proof.Machine
end

