-- ==== Sys2Proof/Machine/Outs.lean ====
section
/-! DEFINITION. OUTS: output from seg:SrcIdx to port DX (R89): the element operation and the meaning of each row. -/

namespace Sys2Proof.Machine

open Sys2Proof

/-- `Element(OUTS, W, A, seg)` (R89). -/
def elementOuts (w : OpSize) (a : AddrSize) (seg : SegReg) (s : State) : Result :=
  if ioPermitted w s then
    withOperand false (operand s.launch .read seg w a (srcIdx a s)) s fun src =>
      withElem (readElem w src s) fun v => .next (advSrc a w (portOutput w v s))
  else takeException false (.exn .gp0) none s

/-- `REP OUTS DX, r/m8` (row 11, R110). -/
def execRepOutsM8 (a : AddrEC) (p : Prefixes) (s : State) : Result :=
  repStep .rep .b8 a.size p.ilen (elementOuts .b8 a.size p.sourceSeg) s

/-- `REP OUTS DX, r/m8*` (row 12, R111). -/
def execRepOutsM8A64 (p : Prefixes) (s : State) : Result :=
  repStep .rep .b8 .a64 p.ilen (elementOuts .b8 .a64 p.sourceSeg) s

/-- `REP OUTS DX, r/m16` (row 13, R112). -/
def execRepOutsM16 (a : AddrEC) (p : Prefixes) (s : State) : Result :=
  repStep .rep .b16 a.size p.ilen (elementOuts .b16 a.size p.sourceSeg) s

/-- `REP OUTS DX, r/m32` (row 14, R113). -/
def execRepOutsM32 (a : AddrEC) (p : Prefixes) (s : State) : Result :=
  repStep .rep .b32 a.size p.ilen (elementOuts .b32 a.size p.sourceSeg) s

/-- `REP OUTS DX, r/m32` (row 15, R114). -/
def execRepOutsM32A64 (p : Prefixes) (s : State) : Result :=
  repStep .rep .b32 .a64 p.ilen (elementOuts .b32 .a64 p.sourceSeg) s

/-- `REP OUTS DX, m16` (row U2, R145). -/
def execRepOutsM16A64 (p : Prefixes) (s : State) : Result :=
  repStep .rep .b16 .a64 p.ilen (elementOuts .b16 .a64 p.sourceSeg) s

end Sys2Proof.Machine
end

