-- ==== Sys2Proof/Machine/Scas.lean ====
section
/-! DEFINITION. SCAS: compare the accumulator with ES:DstIdx (R93): the element operation and the meaning of each row. -/

namespace Sys2Proof.Machine

open Sys2Proof

/-- `Element(SCAS, W, A, -)` (R93): the flags of the accumulator minus the element. -/
def elementScas (w : OpSize) (a : AddrSize) (s : State) : Result :=
  withOperand true (operand s.launch .read .es w a (dstIdx a s)) s fun dst =>
    withElem (readElem w dst s) fun y => .next (advDst a w (setStatus (subFlags w (acc w s) y) s))

/-- `REPE SCAS m8` (row 31, R130). -/
def execRepeScasM8 (a : AddrEC) (p : Prefixes) (s : State) : Result :=
  repStep .repe .b8 a.size p.ilen (elementScas .b8 a.size) s

/-- `REPE SCAS m8` (row 32, R131). -/
def execRepeScasM8A64 (p : Prefixes) (s : State) : Result :=
  repStep .repe .b8 .a64 p.ilen (elementScas .b8 .a64) s

/-- `REPE SCAS m16` (row 33, R132). -/
def execRepeScasM16 (a : AddrEC) (p : Prefixes) (s : State) : Result :=
  repStep .repe .b16 a.size p.ilen (elementScas .b16 a.size) s

/-- `REPE SCAS m32` (row 34, R133). -/
def execRepeScasM32 (a : AddrEC) (p : Prefixes) (s : State) : Result :=
  repStep .repe .b32 a.size p.ilen (elementScas .b32 a.size) s

/-- `REPE SCAS m64` (row 35, R134). -/
def execRepeScasM64A64 (p : Prefixes) (s : State) : Result :=
  repStep .repe .b64 .a64 p.ilen (elementScas .b64 .a64) s

/-- `REPNE SCAS m8` (row 41, R140). -/
def execRepneScasM8 (a : AddrEC) (p : Prefixes) (s : State) : Result :=
  repStep .repne .b8 a.size p.ilen (elementScas .b8 a.size) s

/-- `REPNE SCAS m8` (row 42, R141). -/
def execRepneScasM8A64 (p : Prefixes) (s : State) : Result :=
  repStep .repne .b8 .a64 p.ilen (elementScas .b8 .a64) s

/-- `REPNE SCAS m16` (row 43, R142). -/
def execRepneScasM16 (a : AddrEC) (p : Prefixes) (s : State) : Result :=
  repStep .repne .b16 a.size p.ilen (elementScas .b16 a.size) s

/-- `REPNE SCAS m32` (row 44, R143). -/
def execRepneScasM32 (a : AddrEC) (p : Prefixes) (s : State) : Result :=
  repStep .repne .b32 a.size p.ilen (elementScas .b32 a.size) s

/-- `REPNE SCAS m64` (row 45, R144). -/
def execRepneScasM64A64 (p : Prefixes) (s : State) : Result :=
  repStep .repne .b64 .a64 p.ilen (elementScas .b64 .a64) s

/-- `REPE SCAS m16` (row U15, R145). -/
def execRepeScasM16A64 (p : Prefixes) (s : State) : Result :=
  repStep .repe .b16 .a64 p.ilen (elementScas .b16 .a64) s

/-- `REPE SCAS m32` (row U16, R145). -/
def execRepeScasM32A64 (p : Prefixes) (s : State) : Result :=
  repStep .repe .b32 .a64 p.ilen (elementScas .b32 .a64) s

/-- `REPE SCAS m64` (row U17, R145). -/
def execRepeScasM64A32 (p : Prefixes) (s : State) : Result :=
  repStep .repe .b64 .a32 p.ilen (elementScas .b64 .a32) s

/-- `REPNE SCAS m16` (row U21, R145). -/
def execRepneScasM16A64 (p : Prefixes) (s : State) : Result :=
  repStep .repne .b16 .a64 p.ilen (elementScas .b16 .a64) s

/-- `REPNE SCAS m32` (row U22, R145). -/
def execRepneScasM32A64 (p : Prefixes) (s : State) : Result :=
  repStep .repne .b32 .a64 p.ilen (elementScas .b32 .a64) s

/-- `REPNE SCAS m64` (row U23, R145). -/
def execRepneScasM64A32 (p : Prefixes) (s : State) : Result :=
  repStep .repne .b64 .a32 p.ilen (elementScas .b64 .a32) s

end Sys2Proof.Machine
end

