-- ==== Sys2Proof/Machine/Stos.lean ====
section
/-! DEFINITION. STOS: store the accumulator at ES:DstIdx (R91): the element operation and the meaning of each row. -/

namespace Sys2Proof.Machine

open Sys2Proof

/-- `Element(STOS, W, A, -)` (R91). -/
def elementStos (w : OpSize) (a : AddrSize) (ilen : Nat) (s : State) : Result :=
  withOperand false (operand s.launch .write .es w a (dstIdx a s)) s fun dst =>
    andThen (storeElem w ilen dst (acc w s) s) fun t => .next (advDst a w t)

/-- `REP STOS m8` (row 21, R120). -/
def execRepStosM8 (a : AddrEC) (p : Prefixes) (s : State) : Result :=
  repStep .rep .b8 a.size p.ilen (elementStos .b8 a.size p.ilen) s

/-- `REP STOS m8` (row 22, R121). -/
def execRepStosM8A64 (p : Prefixes) (s : State) : Result :=
  repStep .rep .b8 .a64 p.ilen (elementStos .b8 .a64 p.ilen) s

/-- `REP STOS m16` (row 23, R122). -/
def execRepStosM16 (a : AddrEC) (p : Prefixes) (s : State) : Result :=
  repStep .rep .b16 a.size p.ilen (elementStos .b16 a.size p.ilen) s

/-- `REP STOS m32` (row 24, R123). -/
def execRepStosM32 (a : AddrEC) (p : Prefixes) (s : State) : Result :=
  repStep .rep .b32 a.size p.ilen (elementStos .b32 a.size p.ilen) s

/-- `REP STOS m64` (row 25, R124). -/
def execRepStosM64A64 (p : Prefixes) (s : State) : Result :=
  repStep .rep .b64 .a64 p.ilen (elementStos .b64 .a64 p.ilen) s

/-- `REP STOS m16` (row U9, R145). -/
def execRepStosM16A64 (p : Prefixes) (s : State) : Result :=
  repStep .rep .b16 .a64 p.ilen (elementStos .b16 .a64 p.ilen) s

/-- `REP STOS m32` (row U10, R145). -/
def execRepStosM32A64 (p : Prefixes) (s : State) : Result :=
  repStep .rep .b32 .a64 p.ilen (elementStos .b32 .a64 p.ilen) s

/-- `REP STOS m64` (row U11, R145). -/
def execRepStosM64A32 (p : Prefixes) (s : State) : Result :=
  repStep .rep .b64 .a32 p.ilen (elementStos .b64 .a32 p.ilen) s

end Sys2Proof.Machine
end

