-- ==== Sys2Proof/Machine/Dispatch.lean ====
section
/-! DEFINITION. The dispatch: one arm per constructor of `Instr`, one direct call of its meaning. -/

namespace Sys2Proof.Machine

open Sys2Proof

def exec (i : Instr) (s : State) : Host.Outcome State Fault Refusal :=
  match i with
  | .repInsM8 a p => Sys2Proof.Machine.execRepInsM8 a p s
  | .repInsM8A64 p => Sys2Proof.Machine.execRepInsM8A64 p s
  | .repInsM16 a p => Sys2Proof.Machine.execRepInsM16 a p s
  | .repInsM32 a p => Sys2Proof.Machine.execRepInsM32 a p s
  | .repInsRm32A64 p => Sys2Proof.Machine.execRepInsRm32A64 p s
  | .repMovsM8 a p => Sys2Proof.Machine.execRepMovsM8 a p s
  | .repMovsM8A64 p => Sys2Proof.Machine.execRepMovsM8A64 p s
  | .repMovsM16 a p => Sys2Proof.Machine.execRepMovsM16 a p s
  | .repMovsM32 a p => Sys2Proof.Machine.execRepMovsM32 a p s
  | .repMovsM64A64 p => Sys2Proof.Machine.execRepMovsM64A64 p s
  | .repOutsM8 a p => Sys2Proof.Machine.execRepOutsM8 a p s
  | .repOutsM8A64 p => Sys2Proof.Machine.execRepOutsM8A64 p s
  | .repOutsM16 a p => Sys2Proof.Machine.execRepOutsM16 a p s
  | .repOutsM32 a p => Sys2Proof.Machine.execRepOutsM32 a p s
  | .repOutsM32A64 p => Sys2Proof.Machine.execRepOutsM32A64 p s
  | .repLodsAl a p => Sys2Proof.Machine.execRepLodsAl a p s
  | .repLodsAlA64 p => Sys2Proof.Machine.execRepLodsAlA64 p s
  | .repLodsAx a p => Sys2Proof.Machine.execRepLodsAx a p s
  | .repLodsEax a p => Sys2Proof.Machine.execRepLodsEax a p s
  | .repLodsRaxA64 p => Sys2Proof.Machine.execRepLodsRaxA64 p s
  | .repStosM8 a p => Sys2Proof.Machine.execRepStosM8 a p s
  | .repStosM8A64 p => Sys2Proof.Machine.execRepStosM8A64 p s
  | .repStosM16 a p => Sys2Proof.Machine.execRepStosM16 a p s
  | .repStosM32 a p => Sys2Proof.Machine.execRepStosM32 a p s
  | .repStosM64A64 p => Sys2Proof.Machine.execRepStosM64A64 p s
  | .repeCmpsM8 a p => Sys2Proof.Machine.execRepeCmpsM8 a p s
  | .repeCmpsM8A64 p => Sys2Proof.Machine.execRepeCmpsM8A64 p s
  | .repeCmpsM16 a p => Sys2Proof.Machine.execRepeCmpsM16 a p s
  | .repeCmpsM32 a p => Sys2Proof.Machine.execRepeCmpsM32 a p s
  | .repeCmpsM64A64 p => Sys2Proof.Machine.execRepeCmpsM64A64 p s
  | .repeScasM8 a p => Sys2Proof.Machine.execRepeScasM8 a p s
  | .repeScasM8A64 p => Sys2Proof.Machine.execRepeScasM8A64 p s
  | .repeScasM16 a p => Sys2Proof.Machine.execRepeScasM16 a p s
  | .repeScasM32 a p => Sys2Proof.Machine.execRepeScasM32 a p s
  | .repeScasM64A64 p => Sys2Proof.Machine.execRepeScasM64A64 p s
  | .repneCmpsM8 a p => Sys2Proof.Machine.execRepneCmpsM8 a p s
  | .repneCmpsM8A64 p => Sys2Proof.Machine.execRepneCmpsM8A64 p s
  | .repneCmpsM16 a p => Sys2Proof.Machine.execRepneCmpsM16 a p s
  | .repneCmpsM32 a p => Sys2Proof.Machine.execRepneCmpsM32 a p s
  | .repneCmpsM64A64 p => Sys2Proof.Machine.execRepneCmpsM64A64 p s
  | .repneScasM8 a p => Sys2Proof.Machine.execRepneScasM8 a p s
  | .repneScasM8A64 p => Sys2Proof.Machine.execRepneScasM8A64 p s
  | .repneScasM16 a p => Sys2Proof.Machine.execRepneScasM16 a p s
  | .repneScasM32 a p => Sys2Proof.Machine.execRepneScasM32 a p s
  | .repneScasM64A64 p => Sys2Proof.Machine.execRepneScasM64A64 p s
  | .repInsM16A64 p => Sys2Proof.Machine.execRepInsM16A64 p s
  | .repOutsM16A64 p => Sys2Proof.Machine.execRepOutsM16A64 p s
  | .repMovsM16A64 p => Sys2Proof.Machine.execRepMovsM16A64 p s
  | .repMovsM32A64 p => Sys2Proof.Machine.execRepMovsM32A64 p s
  | .repMovsM64A32 p => Sys2Proof.Machine.execRepMovsM64A32 p s
  | .repLodsAxA64 p => Sys2Proof.Machine.execRepLodsAxA64 p s
  | .repLodsEaxA64 p => Sys2Proof.Machine.execRepLodsEaxA64 p s
  | .repLodsRaxA32 p => Sys2Proof.Machine.execRepLodsRaxA32 p s
  | .repStosM16A64 p => Sys2Proof.Machine.execRepStosM16A64 p s
  | .repStosM32A64 p => Sys2Proof.Machine.execRepStosM32A64 p s
  | .repStosM64A32 p => Sys2Proof.Machine.execRepStosM64A32 p s
  | .repeCmpsM16A64 p => Sys2Proof.Machine.execRepeCmpsM16A64 p s
  | .repeCmpsM32A64 p => Sys2Proof.Machine.execRepeCmpsM32A64 p s
  | .repeCmpsM64A32 p => Sys2Proof.Machine.execRepeCmpsM64A32 p s
  | .repeScasM16A64 p => Sys2Proof.Machine.execRepeScasM16A64 p s
  | .repeScasM32A64 p => Sys2Proof.Machine.execRepeScasM32A64 p s
  | .repeScasM64A32 p => Sys2Proof.Machine.execRepeScasM64A32 p s
  | .repneCmpsM16A64 p => Sys2Proof.Machine.execRepneCmpsM16A64 p s
  | .repneCmpsM32A64 p => Sys2Proof.Machine.execRepneCmpsM32A64 p s
  | .repneCmpsM64A32 p => Sys2Proof.Machine.execRepneCmpsM64A32 p s
  | .repneScasM16A64 p => Sys2Proof.Machine.execRepneScasM16A64 p s
  | .repneScasM32A64 p => Sys2Proof.Machine.execRepneScasM32A64 p s
  | .repneScasM64A32 p => Sys2Proof.Machine.execRepneScasM64A32 p s

end Sys2Proof.Machine
end

