-- ==== Sys2Proof/Machine/Step.lean ====
section
/-! DEFINITION. One step of the machine (R77, D2), and the placing of an instruction where the step fetches. -/

namespace Sys2Proof.Machine

open Sys2Proof

/-- One step: the instruction at RIP is fetched, decoded and executed; one execution performs at most one iteration
(R77, D2). At the exit address the run is complete (R172 a). Bytes that are no in-scope instruction are refused by name,
and so is an RIP outside the program (D1, R172 d). -/
def step (s : State) : Host.Outcome State Fault Refusal :=
  if atExit s then .fault (.completed s)
  else
    match fetchDecode s with
    | .ok i => if codeFits i.ilen s then exec i s else .refused .codeStraddle
    | .error .truncated => .refused .outsideProgram
    | .error r => .refused (.undecodable r)

/-- `s` with the instruction of a word of the opcode table as its next one: the launch's mode is the table's, the
unlisted forms are admitted, no exit address is given, and the bytes stand at RIP, in the program and in memory as
R171 item 5 loads them (log entries 20, 33). -/
def State.withFetchWord (s : State) (nbits w : Nat) : State :=
  let t := { s with launch := { s.launch with mode := tableMode, admitUnlisted := true, exitAddress := none } }
  let load := placeBytes t (tableBytes nbits w)
  { t with
    mem := load t.mem
    launch := { t.launch with program := load t.launch.program } }

end Sys2Proof.Machine
end

