-- ==== Sys2Proof/Machine/Run.lean ====
section
/-! DEFINITION. A run of the machine, how it ends, and what is observed of it (R172, D25). -/

namespace Sys2Proof.Machine

open Sys2Proof

/-- The four ways a run ends (R172 a to d). -/
inductive RunEnd where
  /-- `completed`: RIP has reached the exit address -/
  | completed
  /-- `fault(name, code, addr, kind)` -/
  | fault (e : Exn) (access : Option Access)
  /-- `vm_exit` -/
  | vmExit (access : Option Access)
  /-- `refused(reason)` -/
  | refused (reason : Refusal)
  deriving DecidableEq, Repr

/-- The observation of a run (R172): which of the four ended it, and the final state, whose `ioTrace` is the I/O trace. -/
structure Observation where
  ended : RunEnd
  final : State
  deriving DecidableEq, Repr

/-- What a terminal outcome of a step says of the run. A refused run ends in the state whose step was refused (log
entry 34). -/
def observe (s : State) : Result → Option Observation
  | .next _ => none
  | .fault (.completed t) => some ⟨.completed, t⟩
  | .fault (.exception e access t) => some ⟨.fault e access, t⟩
  | .fault (.vmExit access t) => some ⟨.vmExit access, t⟩
  | .refused reason => some ⟨.refused reason, s⟩

/-- The run from a launch state, over at most `n` steps that go on: its observation, or `none` where it has not ended by
then. -/
def run : Nat → State → Option Observation
  | 0, s => observe s (step s)
  | n + 1, s =>
    match step s with
    | .next t => run n t
    | r => observe s r

end Sys2Proof.Machine
end

