-- ==== Sys2Proof/Safety.lean ====
section
/-! DEFINITION. The terms claims are stated in: what a run answers, windows without an interrupt, positions of the k-th
element, and the invariant of the state. -/

namespace Sys2Proof.Machine

open Sys2Proof

/-- The next state, where there is one. -/
def nextOf : Result → Option State
  | .next s => some s
  | .fault _ => none
  | .refused _ => none

/-- No interrupt is taken in the coming window (R80). -/
def quiet (s : State) : Bool :=
  match s.windows with
  | some _ :: _ => false
  | _ => true

/-- No interrupt is taken in the coming `k` windows. -/
def quietFor (k : Nat) (s : State) : Bool := (s.windows.take k).all fun o => o.isNone

/-- `k` executions of one instruction, each with at most one iteration (R77), up to the first that does not answer a
next state. -/
def execTimes : Nat → Instr → State → Result
  | 0, _, s => .next s
  | k + 1, i, s => andThen (exec i s) (execTimes k i)

/-- The offset of the element `k` places on in the direction `df`, modulo `2^A` (R39, R81, R85). -/
def offsetAfter (a : AddrSize) (df : Bool) (w : OpSize) (k off : Nat) : Nat :=
  if df then (off + k * (2 ^ a.bits - w.bytes)) % 2 ^ a.bits else (off + k * w.bytes) % 2 ^ a.bits

/-- The linear address of the source element (R38, R85). -/
def srcAddr (a : AddrSize) (seg : SegReg) (s : State) : Word := lin s.launch seg (srcIdx a s)

/-- The linear address of the destination element (R38, R85). -/
def dstAddr (a : AddrSize) (s : State) : Word := lin s.launch .es (dstIdx a s)

/-- The access of one element goes through: it does not straddle the wrap of the offsets (R39), every byte is canonical
(R40), and `MemFault` admits it (R42). -/
def accessOk (l : Launch) (kind : AccessKind) (seg : SegReg) (w : OpSize) (a : AddrSize) (off : Word) : Prop :=
  straddles w a off = false ∧ allCanonical l (lin l seg off) w.bytes = true
    ∧ memFault l kind (lin l seg off) w.bytes = none

/-- The iteration is entered: the row is encodable in the mode, the count is not zero, no interrupt is taken (R77). -/
def entered (w : OpSize) (a : AddrSize) (s : State) : Prop :=
  encodable s.launch.mode w a = true ∧ countReg a s ≠ 0#64 ∧ quiet s = true

/-- The instructions whose operand is the source element (R71). -/
def usesSource : StringOp → Bool
  | .movs | .outs | .lods | .cmps => true
  | .ins | .stos | .scas => false

/-- The instructions whose operand is the destination element (R71). -/
def usesDest : StringOp → Bool
  | .ins | .movs | .stos | .cmps | .scas => true
  | .outs | .lods => false

/-- The kind of the access to the destination element (R34). -/
def destKind : StringOp → AccessKind
  | .ins | .movs | .stos => .write
  | .outs | .lods | .cmps | .scas => .read

/-- What an implicit write of a count or index register may do to the bits it does not write (R86). -/
def otherBits (l : Launch) (a : AddrSize) (old new : Word) : Prop :=
  match a, l.mode, l.a32Upper with
  | .a32, .mode64, .zero => new.toNat / 2 ^ 32 = 0
  | .a32, .mode64, .any => True
  | _, _, _ => new.toNat / 2 ^ a.bits = old.toNat / 2 ^ a.bits

/-- What every completed iteration does besides its element operation: the count, RIP, the window; DX, DF and the launch
stay (R16, R23, R75, R76, R78, R86). -/
def afterIteration (kind : RepKind) (a : AddrSize) (ilen : Nat) (s t : State) : Prop :=
  (countReg a t).toNat = (countReg a s).toNat - 1 ∧ otherBits s.launch a s.rcx t.rcx
    ∧ t.rip = (if (countReg a s).toNat = 1 ∨ stopsOn kind t.status.zf = true then nextRip s.launch.mode s.rip ilen
        else s.rip)
    ∧ t.windows = s.windows.tail ∧ t.rdx = s.rdx ∧ t.df = s.df ∧ t.launch = s.launch

/-- The source index has moved by one element (R85). -/
def sourceMoved (a : AddrSize) (w : OpSize) (s t : State) : Prop :=
  (srcIdx a t).toNat = offsetAfter a s.df w 1 (srcIdx a s).toNat ∧ otherBits s.launch a s.rsi t.rsi

/-- The destination index has moved by one element (R85). -/
def destMoved (a : AddrSize) (w : OpSize) (s t : State) : Prop :=
  (dstIdx a t).toNat = offsetAfter a s.df w 1 (dstIdx a s).toNat ∧ otherBits s.launch a s.rdi t.rdi

/-- The bytes of the element at `a` are the low bytes of `v`, and every other byte is as before (R30). -/
def stored (w : OpSize) (a v : Word) (s t : State) : Prop :=
  (∀ k, k < w.bytes → readByte t.mem (byteAddr s.launch a k).toNat = some (v.extractLsb' (8 * k) 8))
    ∧ ∀ x, x ∉ byteAddrs s.launch a w.bytes → readByte t.mem x = readByte s.mem x

/-- The fault state of R161, but for the flags and the I/O trace: every register, RIP, memory and the launch as the
last completed iteration left them. -/
def keptAtFault (s u : State) : Prop :=
  u.rax = s.rax ∧ u.rcx = s.rcx ∧ u.rdx = s.rdx ∧ u.rsi = s.rsi ∧ u.rdi = s.rdi ∧ u.rip = s.rip ∧ u.df = s.df
    ∧ u.mem = s.mem ∧ u.launch = s.launch

/-- `k` executions of one instruction that all leave RIP at it: the iterations of one repeat still in progress (R79). -/
def runsOn : Nat → Instr → State → State → Prop
  | 0, _, s, t => s = t
  | k + 1, i, s, t => ∃ u, exec i s = .next u ∧ u.rip = s.rip ∧ runsOn k i u t

/-- `n` steps of the machine, each to a next state. -/
def stepsTo : Nat → State → State → Prop
  | 0, s, t => s = t
  | n + 1, s, t => ∃ u, step s = .next u ∧ stepsTo n u t

/-- The program has the bytes of an instruction at RIP (R32, R171 item 5). -/
def programHas (i : Instr) (s : State) : Prop :=
  ∀ k, k < i.ilen → readByte s.launch.program (byteAddr s.launch (codeAddr s) k).toNat = (encode i)[k]?

/-- The element operation of an instruction (R77). -/
def elementOf (i : Instr) : State → Result :=
  match i.form.op with
  | .ins => elementIns i.form.w i.form.a i.ilen
  | .movs => elementMovs i.form.w i.form.a i.pre.sourceSeg i.ilen
  | .outs => elementOuts i.form.w i.form.a i.pre.sourceSeg
  | .lods => elementLods i.form.w i.form.a i.pre.sourceSeg
  | .stos => elementStos i.form.w i.form.a i.ilen
  | .cmps => elementCmps i.form.w i.form.a i.pre.sourceSeg
  | .scas => elementScas i.form.w i.form.a

/-- The body of the WHILE loop of R72, run until it is left: the element operation, the decrement, the two exits. The
first argument bounds the passes. -/
def whileBody (i : Instr) : Nat → State → Result
  | 0, s => .next s
  | n + 1, s =>
    andThen (elementOf i (enter s)) fun t =>
      let u := setCount i.form.a (countReg i.form.a t - 1#64) t
      if countReg i.form.a u = 0#64 then .next (complete i.ilen u)
      else if stopsOn i.form.kind u.status.zf then .next (complete i.ilen u)
      else whileBody i n u

/-- The algorithm of R72 as one loop, where no interrupt is taken; the count bounds the passes. -/
def whileLoop (i : Instr) (s : State) : Result :=
  if countReg i.form.a s = 0#64 then .next (complete i.ilen (zeroCount i.form.a s))
  else whileBody i (countReg i.form.a s).toNat s

/-- An I/O event moves 1, 2 or 4 bytes and its value has no bit above them (R25). -/
def IoEvent.wf : IoEvent → Bool
  | .input _ n v => (n == 1 || n == 2 || n == 4) && decide (v.toNat < 2 ^ (8 * n))
  | .output _ n v => (n == 1 || n == 2 || n == 4) && decide (v.toNat < 2 ^ (8 * n))

/-- The I/O a handler leaves in the trace is well-formed. -/
def handlerWf : Option HandlerEffect → Bool
  | some (.leaves _ _ _ _ _ _ _ _ io) => io.all IoEvent.wf
  | _ => true

/-- The invariant: memory and the program are in their canonical form (R26, R171 item 5), RIP holds no bit above the
instruction pointer of the mode (R18, R19), every event of the I/O trace is a port access of 1, 2 or 4 bytes (R25), and
so is what the coming handlers add to it. -/
def StateInv (s : State) : Prop :=
  Memory.wf s.mem = true ∧ Memory.wf s.launch.program = true ∧ (ipView s.launch.mode).get s.rip = s.rip
    ∧ s.ioTrace.all IoEvent.wf = true ∧ s.windows.all handlerWf = true

end Sys2Proof.Machine
end

