-- ==== Sys2Proof/Certificates/Slice0/Obligations.lean ====
section
/-! DEFINITION. The statements for the provers. Each is about the machine; none is about a program. -/

open Sys2Proof Sys2Proof.Machine

/-! Encoding (30_encoding.md). -/

/-- One word of each family, written out from R51 to R56, decodes to the instruction it stands for. A sanity statement. -/
def Obligations.SpecWordsDecode : Prop :=
  decode .mode64 true [0xF3, 0x6C] = .ok (.repInsM8A64 ⟨[], [], none⟩)
    ∧ decode .mode64 true [0x67, 0xF3, 0xA4] = .ok (.repMovsM8 .a32 ⟨[.addrSize], [], none⟩)
    ∧ decode .mode64 true [0xF3, 0x64, 0x6F] = .ok (.repOutsM32A64 ⟨[], [.seg .fs], none⟩)
    ∧ decode (.modeCL .d16 .d32) true [0x66, 0xF3, 0xAD] = .ok (.repLodsAx .a16 ⟨[.opSize], [], none⟩)
    ∧ decode .mode64 true [0xF3, 0x48, 0xAB] = .ok (.repStosM64A64 ⟨[], [], some ⟨true, false, false, false⟩⟩)
    ∧ decode (.modeCL .d32 .d16) true [0xF3, 0xA7] = .ok (.repeCmpsM16 .a32 ⟨[], [], none⟩)
    ∧ decode .mode64 true [0xF2, 0xAE] = .ok (.repneScasM8A64 ⟨[], [], none⟩)
    ∧ decode (.modeCL .d32 .d32) true [0xF3, 0x48, 0xA4] = .error .notInScope

/-- R50 to R58, R68: decoding the bytes of a well-formed instruction, whatever follows them, gives it back, with every
prefix byte, the REX bits and the sizes; for all 68 rows. -/
def Obligations.DecodeOfEncode : Prop :=
  ∀ (m : Mode) (allow : Bool) (i : Instr) (rest : List Byte),
    wellFormed m i = true → (allow || i.listed) = true → decode m allow (encode i ++ rest) = .ok i

/-- R50 to R58, R68: what the decoder accepts begins with the encoding of the instruction it answers, which is
well-formed in the mode and, where the launch admits only the listed forms, listed. -/
def Obligations.EncodeOfDecode : Prop :=
  ∀ (m : Mode) (allow : Bool) (bs : List Byte) (i : Instr), decode m allow bs = .ok i →
    (∃ rest, bs = encode i ++ rest) ∧ wellFormed m i = true ∧ (allow || i.listed) = true

/-- R58: `ilen` is the number of bytes of the encoding, from 2 to 6. -/
def Obligations.InstructionLength : Prop :=
  ∀ (m : Mode) (i : Instr), wellFormed m i = true → (encode i).length = i.ilen ∧ 2 ≤ i.ilen ∧ i.ilen ≤ 6

/-- R4, R5, R6, R64: no byte sequence decodes to `A = 64` or `W = 64` in compatibility or legacy mode, or to `A = 16` in
64-bit mode, so no step is refused as not encodable. -/
def Obligations.DecodedRowsAreEncodable : Prop :=
  (∀ (m : Mode) (allow : Bool) (bs : List Byte) (i : Instr),
    decode m allow bs = .ok i → encodable m i.form.w i.form.a = true)
    ∧ ∀ s : State, step s ≠ .refused .notEncodable

/-- R145: with `AdmitUnlistedForms = false` exactly the 23 unlisted pairings among the decodable sequences are refused,
as `form_not_listed`. -/
def Obligations.UnlistedFormsNeedAdmission : Prop :=
  ∀ (m : Mode) (bs : List Byte) (i : Instr), decode m true bs = .ok i →
    decode m false bs = if i.listed then .ok i else .error .formNotListed

/-- R62: F2H before one of the ten opcodes that do not compare is refused, in every mode, whatever other prefixes an
instruction can have stand with it and whatever follows. Before one of the four that compare it is REPNE: with unlisted
forms admitted it decodes, and what it decodes to is a REPNE instruction. -/
def Obligations.RepneNeedsComparison : Prop :=
  ∀ (m : Mode) (allow : Bool) (p : Prefixes) (opc : Byte) (rest : List Byte),
    p.oneEach = true → p.rexAllowed m = true →
      let bs := p.before.map legacyByte ++ [0xF2] ++ p.after.map legacyByte ++ p.rex.toList.map rexByte ++ opc :: rest
      (opc ∈ [0x6C, 0x6D, 0x6E, 0x6F, 0xA4, 0xA5, 0xAA, 0xAB, 0xAC, 0xAD] → decode m allow bs = .error .f2OnNonCompare)
        ∧ (opc ∈ [0xA6, 0xA7, 0xAE, 0xAF] → (∃ i, decode m true bs = .ok i)
          ∧ ∀ i, decode m allow bs = .ok i → i.form.kind = .repne)

/-- R63: a LOCK prefix, or both repeat prefixes, among the legacy prefixes of an instruction: refused, wherever the
byte stands among well-formed prefixes. -/
def Obligations.LockAndTwoRepeatsRefused : Prop :=
  ∀ (m : Mode) (allow : Bool) (i : Instr) (rest : List Byte), wellFormed m i = true →
    decode m allow (i.pre.before.map legacyByte ++ 0xF0 :: rest) = .error .lockPrefix
      ∧ decode m allow (i.pre.before.map legacyByte ++ [repeatByte i.form.kind] ++ i.pre.after.map legacyByte
          ++ 0xF0 :: rest) = .error .lockPrefix
      ∧ ∀ k : RepKind, decode m allow (i.pre.before.map legacyByte ++ [repeatByte i.form.kind]
          ++ i.pre.after.map legacyByte ++ repeatByte k :: rest) = .error .twoRepeatPrefixes

/-- R98, R54, R70: REX.W changes neither the address size nor the repeat kind nor the string instruction; it can change
the element size alone. With R98's three examples. -/
def Obligations.RexKeepsAddressSize : Prop :=
  (∀ (allow : Bool) (i j : Instr) (before after : List Legacy) (x y : Option Rex) (kind : RepKind) (op : StringOp)
    (w w' : OpSize) (rest rest' : List Byte),
    decode .mode64 allow (before.map legacyByte ++ [repeatByte kind] ++ after.map legacyByte
        ++ x.toList.map rexByte ++ opcodeByte op w :: rest) = .ok i →
    decode .mode64 allow (before.map legacyByte ++ [repeatByte kind] ++ after.map legacyByte
        ++ y.toList.map rexByte ++ opcodeByte op w' :: rest') = .ok j →
      i.form.a = j.form.a ∧ i.form.kind = j.form.kind ∧ i.form.op = j.form.op)
    ∧ decode .mode64 true [0xF3, 0xA4] = .ok (.repMovsM8A64 ⟨[], [], none⟩)
    ∧ decode .mode64 true [0xF3, 0x48, 0xA4] = .ok (.repMovsM8A64 ⟨[], [], some ⟨true, false, false, false⟩⟩)
    ∧ decode .mode64 true [0x67, 0xF3, 0x48, 0xA5]
        = .ok (.repMovsM64A32 ⟨[.addrSize], [], some ⟨true, false, false, false⟩⟩)

/-! Registers, addresses, memory, flags (10_state.md, 20_memory.md). -/

/-- R11: reading a view gives exactly its bits. -/
def Obligations.ViewReads : Prop :=
  ∀ r : Word, (View.low8.get r).toNat = r.toNat % 2 ^ 8 ∧ (View.high8.get r).toNat = r.toNat / 2 ^ 8 % 2 ^ 8
    ∧ (View.low16.get r).toNat = r.toNat % 2 ^ 16 ∧ (View.low32.get r).toNat = r.toNat % 2 ^ 32 ∧ View.full.get r = r

/-- R12: writing a view, bit by bit. An 8-bit or 16-bit write keeps the other bits, a 32-bit write clears bits 63:32 in
`Mode64` and keeps them in `ModeCL`, a 64-bit write changes all. -/
def Obligations.ViewWrites : Prop :=
  ∀ (m : Mode) (old v : Word) (b : Nat), b < 64 →
    (View.low8.put m old v).getLsbD b = (if b < 8 then v.getLsbD b else old.getLsbD b)
      ∧ (View.high8.put m old v).getLsbD b = (if 8 ≤ b ∧ b < 16 then v.getLsbD (b - 8) else old.getLsbD b)
      ∧ (View.low16.put m old v).getLsbD b = (if b < 16 then v.getLsbD b else old.getLsbD b)
      ∧ (View.low32.put m old v).getLsbD b =
          (if b < 32 then v.getLsbD b else if m = .mode64 then false else old.getLsbD b)
      ∧ (View.full.put m old v).getLsbD b = v.getLsbD b

/-- R7, R38, R56: the linear address. In `Mode64` ES, CS, SS and DS have base 0 and FS and GS add theirs, modulo 2^64; in
`ModeCL` every segment adds its base, modulo 2^32. The segment of the source operand is the override among the legacy
prefixes, wherever it stands, and DS where there is none; the six override bytes. -/
def Obligations.LinearAddress : Prop :=
  (∀ (l : Launch) (seg : SegReg) (off : Word),
    (l.mode = .mode64 → seg ≠ .fs → seg ≠ .gs → lin l seg off = off)
      ∧ (l.mode = .mode64 → lin l .fs off = l.bases.fs + off ∧ lin l .gs off = l.bases.gs + off)
      ∧ ∀ d o, l.mode = .modeCL d o → (lin l seg off).toNat = ((l.bases.get seg).toNat + off.toNat) % 2 ^ 32)
    ∧ (∀ p : Prefixes, p.oneEach = true →
      (∀ r, Legacy.seg r ∈ p.before ++ p.after → p.sourceSeg = r)
        ∧ ((∀ r, Legacy.seg r ∉ p.before ++ p.after) → p.sourceSeg = .ds))
    ∧ [SegReg.es, .cs, .ss, .ds, .fs, .gs].map (fun r => legacyByte (.seg r)) = [0x26, 0x2E, 0x36, 0x3E, 0x64, 0x65]

/-- R7: `Canonical(a)` for 48 and for 57 implemented bits: the lower or the upper end of the address space. -/
def Obligations.CanonicalRanges : Prop :=
  ∀ a : Word, (canonical .va48 a = true ↔ a.toNat < 2 ^ 47 ∨ 2 ^ 64 - 2 ^ 47 ≤ a.toNat)
    ∧ (canonical .va57 a = true ↔ a.toNat < 2 ^ 56 ∨ 2 ^ 64 - 2 ^ 56 ≤ a.toNat)

/-- R30: an element read has the byte at address `a + k` as its bits `8k+7:8k`, and nothing above its last byte; a store
puts byte `v[8k+7:8k]` at `a + k` and leaves every other byte. -/
def Obligations.MemoryIsLittleEndian : Prop :=
  ∀ (w : OpSize) (a v : Word) (s : State),
    (readElem w a s = .ok v → v.toNat < 2 ^ w.bits
      ∧ ∀ k, k < w.bytes → readByte s.mem (byteAddr s.launch a k).toNat = some (v.extractLsb' (8 * k) 8))
    ∧ stored w a v s (writeElem w a v s)

/-- R31: an element read back is the low bits of the value stored; a byte and a word read inside a stored doubleword see
`v[15:8]` and `v[15:0]`. -/
def Obligations.StoreThenRead : Prop :=
  ∀ (a v : Word) (s : State),
    (∀ w : OpSize, ∃ u, readElem w a (writeElem w a v s) = .ok u ∧ u.toNat = v.toNat % 2 ^ w.bits)
      ∧ readElem .b8 (byteAddr s.launch a 1) (writeElem .b32 a v s) = .ok ((v.extractLsb' 8 8).setWidth 64)
      ∧ readElem .b16 a (writeElem .b32 a v s) = .ok ((v.setWidth 16).setWidth 64)

/-- R94, R95: the flags of `x - y` for `W`-bit numbers, from the numbers; AF also as bit 4 of `x XOR y XOR r`. -/
def Obligations.SubtractionFlags : Prop :=
  ∀ (w : OpSize) (x y : Word),
    let X := x.toNat % 2 ^ w.bits
    let Y := y.toNat % 2 ^ w.bits
    let R := (X + (2 ^ w.bits - Y)) % 2 ^ w.bits
    let f := subFlags w x y
    (f.zf = true ↔ X = Y) ∧ (f.cf = true ↔ X < Y) ∧ f.sf = R.testBit (w.bits - 1)
      ∧ (f.of = true ↔ X.testBit (w.bits - 1) ≠ Y.testBit (w.bits - 1) ∧ R.testBit (w.bits - 1) ≠ X.testBit (w.bits - 1))
      ∧ (f.af = true ↔ X % 16 < Y % 16) ∧ f.af = (X ^^^ Y ^^^ R).testBit 4
      ∧ (f.pf = true ↔ ((List.range 8).filter fun k => R.testBit k).length % 2 = 0)

/-- R19, R78: the instruction pointer after an instruction: modulo 2^64, 2^32 or 2^16. -/
def Obligations.InstructionPointerAdvance : Prop :=
  ∀ (rip : Word) (n : Nat),
    (nextRip .mode64 rip n).toNat = (rip.toNat + n) % 2 ^ 64
      ∧ ∀ d, (nextRip (.modeCL d .d32) rip n).toNat = (rip.toNat + n) % 2 ^ 32
        ∧ (nextRip (.modeCL d .d16) rip n).toNat = (rip.toNat + n) % 2 ^ 16

/-- R149 step 2: of the rules that reject an access, `MemFault` answers the event of one that no other precedes, and none
exactly where no rule rejects. Where it answers an exception and a rule rejects with another: against `#GP(0)` or
`#SS(0)` the answer is one of these two; against `#AC(0)` it is no `#PF`; and against one of its own class it is about
the lowest rejected byte. Where a VM exit stands in the order is free (log entry 14, the model's choice). -/
def Obligations.MemFaultPriority : Prop :=
  ∀ (l : Launch) (kind : AccessKind) (a : Word) (n : Nat),
    (memFault l kind a n = none ↔ ∀ r ∈ l.memRules, ruleHit l r kind a n = none)
      ∧ ∀ e, memFault l kind a n = some e →
        ∃ r ∈ l.memRules, ∃ k, ruleHit l r kind a n = some k ∧ r.event = e
          ∧ (∀ q ∈ l.memRules, ∀ j, ruleHit l q kind a n = some j →
            eventRank e < eventRank q.event ∨ (eventRank e = eventRank q.event ∧ k ≤ j))
          ∧ ∀ x, e = .exn x → ∀ q ∈ l.memRules, ∀ j y, ruleHit l q kind a n = some j → q.event = .exn y →
            (y = .gp0 ∨ y = .ss0 → x = .gp0 ∨ x = .ss0)
              ∧ (y = .ac0 → ∀ c, x ≠ .pf c)
              ∧ ((x = .gp0 ∨ x = .ss0) ∧ (y = .gp0 ∨ y = .ss0) ∨ x = .ac0 ∧ y = .ac0 ∨ (∃ c d, x = .pf c ∧ y = .pf d)
                → k ≤ j)

/-! The loop (40_rep_prefix.md): statements about all 68 instructions. -/

/-- R73, R78: with a zero count an instruction completes: no element is processed and no window is used. Nothing of the
machine changes but RIP; under `A32Upper = any` bits 63:32 of RCX are open (R86). -/
def Obligations.ZeroCountCompletes : Prop :=
  ∀ (i : Instr) (s : State), encodable s.launch.mode i.form.w i.form.a = true → countReg i.form.a s = 0#64 →
    ∃ t, exec i s = .next t ∧ t.rip = nextRip s.launch.mode s.rip i.ilen
      ∧ countReg i.form.a t = 0#64
      ∧ (t.rcx = s.rcx ∨ (i.form.a = .a32 ∧ s.launch.mode = .mode64 ∧ s.launch.a32Upper = .any))
      ∧ t.rax = s.rax ∧ t.rdx = s.rdx ∧ t.rsi = s.rsi ∧ t.rdi = s.rdi ∧ t.status = s.status ∧ t.df = s.df
      ∧ t.mem = s.mem ∧ t.ioTrace = s.ioTrace ∧ t.launch = s.launch ∧ t.ioInput = s.ioInput ∧ t.windows = s.windows

/-- R80, R157, R159, R160: an interrupt taken in the window before an iteration. The element operation has not started,
whatever it would raise; RIP stays at the instruction. The transparent handler, R159's default, changes nothing of the
machine. What another handler leaves is OPEN in R159: that it is the data of the window's entry, and that no handler
moves RIP or changes the launch, is the model's choice (log entry 6). -/
def Obligations.InterruptWindow : Prop :=
  ∀ (i : Instr) (s : State) (h : HandlerEffect) (rest : List (Option HandlerEffect)),
    encodable s.launch.mode i.form.w i.form.a = true → countReg i.form.a s ≠ 0#64 → s.windows = some h :: rest →
    ∃ t, exec i s = .next t ∧ t.rip = s.rip ∧ t.launch = s.launch ∧ t.ioInput = s.ioInput ∧ t.windows = rest
      ∧ match h with
        | .identity => t.rax = s.rax ∧ t.rcx = s.rcx ∧ t.rdx = s.rdx ∧ t.rsi = s.rsi ∧ t.rdi = s.rdi
            ∧ t.status = s.status ∧ t.df = s.df ∧ t.mem = s.mem ∧ t.ioTrace = s.ioTrace
        | .leaves rax rcx rdx rsi rdi status df stores io => t.rax = rax ∧ t.rcx = rcx ∧ t.rdx = rdx ∧ t.rsi = rsi
            ∧ t.rdi = rdi ∧ t.status = status ∧ t.df = df ∧ t.mem = writeCells s.mem stores
            ∧ t.ioTrace = s.ioTrace ++ io

/-- R23, R75, R76, R78, R86, for all 68 instructions: no execution writes DF; in every iteration the count goes down by
one, RIP moves exactly where a termination condition holds, one window is used, DX and the launch stay, and an index
register moves by one element, up where `DF = 0` and down where `DF = 1`, where the instruction uses it, and is not
written where it does not. -/
def Obligations.EveryIterationAdvances : Prop :=
  ∀ (i : Instr) (s t : State), quiet s = true → exec i s = .next t →
    t.df = s.df
      ∧ (entered i.form.w i.form.a s → afterIteration i.form.kind i.form.a i.ilen s t
        ∧ (usesSource i.form.op = true → sourceMoved i.form.a i.form.w s t)
        ∧ (usesSource i.form.op = false → t.rsi = s.rsi)
        ∧ (usesDest i.form.op = true → destMoved i.form.a i.form.w s t)
        ∧ (usesDest i.form.op = false → t.rdi = s.rdi))

/-- R20 to R22, R97: no instruction writes DF or RDX; none but CMPS and SCAS changes a status flag, and those change no
register but the count and the index registers and no byte of memory; only LODS changes RAX; only INS, MOVS and STOS
change memory; only INS and OUTS change the I/O trace, each by one event. -/
def Obligations.IterationFrames : Prop :=
  ∀ (i : Instr) (s t : State), entered i.form.w i.form.a s → exec i s = .next t →
    t.df = s.df ∧ t.rdx = s.rdx
      ∧ (i.form.op ≠ .cmps → i.form.op ≠ .scas → t.status = s.status)
      ∧ (i.form.op ≠ .lods → t.rax = s.rax)
      ∧ (destKind i.form.op = .read → t.mem = s.mem)
      ∧ (i.form.op ≠ .ins → t.ioInput = s.ioInput)
      ∧ (i.form.op ≠ .ins → i.form.op ≠ .outs → t.ioTrace = s.ioTrace)
      ∧ (i.form.op = .ins → ∃ v, t.ioTrace = s.ioTrace ++ [.input (portReg s) i.form.w.bytes v])
      ∧ (i.form.op = .outs → ∃ v, t.ioTrace = s.ioTrace ++ [.output (portReg s) i.form.w.bytes v])

/-- R96, R21, R75: no instruction needs ZF, or any status flag, initialised. Other flags `f` before it change nothing of
what an execution does: every register, memory, the I/O and RIP are the same after it. A comparison leaves the same flags
too; an execution of zero iterations, which compares nothing, leaves `f`. -/
def Obligations.FlagsNeedNoInitialisation : Prop :=
  ∀ (i : Instr) (s t : State) (f : StatusFlags), exec i s = .next t →
    ∃ t', exec i { s with status := f } = .next t'
      ∧ { t' with status := t.status, entryFlags := t.entryFlags } = t
      ∧ (i.form.op = .cmps ∨ i.form.op = .scas → entered i.form.w i.form.a s → t'.status = t.status)
      ∧ (countReg i.form.a s = 0#64 → t'.status = f)

/-! The element operations: where an iteration completes, and what it leaves. -/

/-- R87, R25: one iteration of `REP INS` (repInsM8, repInsM8A64, repInsM16, repInsM32, repInsRm32A64, repInsM16A64)
completes where the port is permitted, the destination is accessible and no byte of the executing instruction is hit. A
value of `W` bits, the launch's next answer where there is one, is read from port DX and stored at ES:DstIdx. -/
def Obligations.InsIteration : Prop :=
  ∀ (i : Instr) (w : OpSize) (a : AddrSize) (s : State), i.form = ⟨.rep, .ins, w, a⟩ → entered w a s →
    ioPermitted w s = true → accessOk s.launch .write .es w a (dstIdx a s) →
    hitsCode w i.ilen (dstAddr a s) s = false →
    ∃ t v, exec i s = .next t ∧ v.toNat < 2 ^ w.bits
      ∧ (∀ x xs, s.ioInput = x :: xs → v.toNat = x.toNat % 2 ^ w.bits)
      ∧ t.ioTrace = s.ioTrace ++ [.input (portReg s) w.bytes v] ∧ t.ioInput = s.ioInput.tail
      ∧ stored w (dstAddr a s) (v.setWidth 64) s t ∧ destMoved a w s t ∧ afterIteration .rep a i.ilen s t
      ∧ t.rax = s.rax ∧ t.rsi = s.rsi ∧ t.status = s.status

/-- R88, R43: one iteration of `REP MOVS` (repMovsM8, repMovsM8A64, repMovsM16, repMovsM32, repMovsM64A64, repMovsM16A64,
repMovsM32A64, repMovsM64A32) completes where both operands are accessible, the source holds a value and no byte of the
executing instruction is hit. The element of the source is stored at ES:DstIdx. -/
def Obligations.MovsIteration : Prop :=
  ∀ (i : Instr) (w : OpSize) (a : AddrSize) (s : State) (v : Word), i.form = ⟨.rep, .movs, w, a⟩ → entered w a s →
    accessOk s.launch .read i.pre.sourceSeg w a (srcIdx a s) → accessOk s.launch .write .es w a (dstIdx a s) →
    readElem w (srcAddr a i.pre.sourceSeg s) s = .ok v → hitsCode w i.ilen (dstAddr a s) s = false →
    ∃ t, exec i s = .next t ∧ stored w (dstAddr a s) v s t ∧ sourceMoved a w s t ∧ destMoved a w s t
      ∧ afterIteration .rep a i.ilen s t
      ∧ t.rax = s.rax ∧ t.status = s.status ∧ t.ioTrace = s.ioTrace ∧ t.ioInput = s.ioInput

/-- R89, R25: one iteration of `REP OUTS` (repOutsM8, repOutsM8A64, repOutsM16, repOutsM32, repOutsM32A64,
repOutsM16A64) completes where the port is permitted and the source is accessible and holds a value. The element is sent
to port DX; no byte of memory changes. -/
def Obligations.OutsIteration : Prop :=
  ∀ (i : Instr) (w : OpSize) (a : AddrSize) (s : State) (v : Word), i.form = ⟨.rep, .outs, w, a⟩ → entered w a s →
    ioPermitted w s = true → accessOk s.launch .read i.pre.sourceSeg w a (srcIdx a s) →
    readElem w (srcAddr a i.pre.sourceSeg s) s = .ok v →
    ∃ t, exec i s = .next t ∧ t.ioTrace = s.ioTrace ++ [.output (portReg s) w.bytes (v.setWidth 32)]
      ∧ sourceMoved a w s t ∧ afterIteration .rep a i.ilen s t
      ∧ t.rax = s.rax ∧ t.rdi = s.rdi ∧ t.status = s.status ∧ t.mem = s.mem ∧ t.ioInput = s.ioInput

/-- R90, R12: one iteration of `REP LODS` (repLodsAl, repLodsAlA64, repLodsAx, repLodsEax, repLodsRaxA64, repLodsAxA64,
repLodsEaxA64, repLodsRaxA32) completes where the source is accessible and holds a value. The element is written to the
accumulator view under the rule of R12; no byte of memory changes. -/
def Obligations.LodsIteration : Prop :=
  ∀ (i : Instr) (w : OpSize) (a : AddrSize) (s : State) (v : Word), i.form = ⟨.rep, .lods, w, a⟩ → entered w a s →
    accessOk s.launch .read i.pre.sourceSeg w a (srcIdx a s) → readElem w (srcAddr a i.pre.sourceSeg s) s = .ok v →
    ∃ t, exec i s = .next t ∧ acc w t = v
      ∧ (w = .b8 ∨ w = .b16 → t.rax.toNat / 2 ^ w.bits = s.rax.toNat / 2 ^ w.bits)
      ∧ (w = .b32 → t.rax.toNat / 2 ^ 32 = if s.launch.mode = .mode64 then 0 else s.rax.toNat / 2 ^ 32)
      ∧ sourceMoved a w s t ∧ afterIteration .rep a i.ilen s t
      ∧ t.rdi = s.rdi ∧ t.status = s.status ∧ t.mem = s.mem ∧ t.ioTrace = s.ioTrace ∧ t.ioInput = s.ioInput

/-- R91: one iteration of `REP STOS` (repStosM8, repStosM8A64, repStosM16, repStosM32, repStosM64A64, repStosM16A64,
repStosM32A64, repStosM64A32) completes where the destination is accessible and no byte of the executing instruction is
hit. The accumulator is stored at ES:DstIdx and does not change. -/
def Obligations.StosIteration : Prop :=
  ∀ (i : Instr) (w : OpSize) (a : AddrSize) (s : State), i.form = ⟨.rep, .stos, w, a⟩ → entered w a s →
    accessOk s.launch .write .es w a (dstIdx a s) → hitsCode w i.ilen (dstAddr a s) s = false →
    ∃ t, exec i s = .next t ∧ stored w (dstAddr a s) s.rax s t ∧ destMoved a w s t
      ∧ afterIteration .rep a i.ilen s t
      ∧ t.rax = s.rax ∧ t.rsi = s.rsi ∧ t.status = s.status ∧ t.ioTrace = s.ioTrace ∧ t.ioInput = s.ioInput

/-- R92, R74, R75: one iteration of `REPE CMPS` and `REPNE CMPS` (repeCmpsM8, repeCmpsM8A64, repeCmpsM16, repeCmpsM32,
repeCmpsM64A64, repeCmpsM16A64, repeCmpsM32A64, repeCmpsM64A32 and the same eight of repneCmps) completes where both
operands are accessible and hold values. The flags are those of source minus destination, ZF tells equality, and the
instruction ends where the count is used up, or on a difference (REPE), or on equality (REPNE). -/
def Obligations.CmpsIteration : Prop :=
  ∀ (i : Instr) (kind : RepKind) (w : OpSize) (a : AddrSize) (s : State) (x y : Word),
    i.form = ⟨kind, .cmps, w, a⟩ → entered w a s →
    accessOk s.launch .read i.pre.sourceSeg w a (srcIdx a s) → accessOk s.launch .read .es w a (dstIdx a s) →
    readElem w (srcAddr a i.pre.sourceSeg s) s = .ok x → readElem w (dstAddr a s) s = .ok y →
    ∃ t, exec i s = .next t ∧ t.status = subFlags w x y ∧ (t.status.zf = true ↔ x = y)
      ∧ sourceMoved a w s t ∧ destMoved a w s t ∧ afterIteration kind a i.ilen s t
      ∧ t.rip = (if (countReg a s).toNat = 1 ∨ (kind = .repe ∧ x ≠ y) ∨ (kind = .repne ∧ x = y)
          then nextRip s.launch.mode s.rip i.ilen else s.rip)
      ∧ t.rax = s.rax ∧ t.mem = s.mem ∧ t.ioTrace = s.ioTrace ∧ t.ioInput = s.ioInput

/-- R93, R74, R75: one iteration of `REPE SCAS` and `REPNE SCAS` (repeScasM8, repeScasM8A64, repeScasM16, repeScasM32,
repeScasM64A64, repeScasM16A64, repeScasM32A64, repeScasM64A32 and the same eight of repneScas) completes where the
destination is accessible and holds a value. The flags are those of the accumulator minus the element. -/
def Obligations.ScasIteration : Prop :=
  ∀ (i : Instr) (kind : RepKind) (w : OpSize) (a : AddrSize) (s : State) (y : Word),
    i.form = ⟨kind, .scas, w, a⟩ → entered w a s → accessOk s.launch .read .es w a (dstIdx a s) →
    readElem w (dstAddr a s) s = .ok y →
    ∃ t, exec i s = .next t ∧ t.status = subFlags w (acc w s) y ∧ (t.status.zf = true ↔ acc w s = y)
      ∧ destMoved a w s t ∧ afterIteration kind a i.ilen s t
      ∧ t.rip = (if (countReg a s).toNat = 1 ∨ (kind = .repe ∧ acc w s ≠ y) ∨ (kind = .repne ∧ acc w s = y)
          then nextRip s.launch.mode s.rip i.ilen else s.rip)
      ∧ t.rax = s.rax ∧ t.rsi = s.rsi ∧ t.mem = s.mem ∧ t.ioTrace = s.ioTrace ∧ t.ioInput = s.ioInput

/-! Runs of one instruction. -/

/-- R72, R77: the WHILE loop of the source and the repeated small step are the same. Where no interrupt is taken, the
loop ends in `t` exactly where some number of executions leave RIP at the instruction and the next one completes it in
`t`. -/
def Obligations.LoopIsRepeatedStep : Prop :=
  ∀ (m : Mode) (i : Instr) (s t : State), wellFormed m i = true → encodable s.launch.mode i.form.w i.form.a = true →
    countReg i.form.a s ≠ 0#64 → quietFor (countReg i.form.a s).toNat s = true →
    (whileLoop i s = .next t ↔
      ∃ k u, k < (countReg i.form.a s).toNat ∧ runsOn k i s u ∧ exec i u = .next t ∧ t.rip ≠ s.rip)

/-- R81, R82: the registers after `k` iterations of any of the 68 instructions, none of them interrupted: the count is
`n - k`, each index register has moved by `k` elements modulo `2^A`, and DX, DF and the launch are as before; a REP
instruction is still at its first byte before the last iteration and complete after it. -/
def Obligations.RegistersAfterIterations : Prop :=
  ∀ (i : Instr) (k : Nat) (s t : State), quietFor k s = true → k ≤ (countReg i.form.a s).toNat →
    execTimes k i s = .next t →
      (countReg i.form.a t).toNat = (countReg i.form.a s).toNat - k
        ∧ (usesSource i.form.op = true →
            (srcIdx i.form.a t).toNat = offsetAfter i.form.a s.df i.form.w k (srcIdx i.form.a s).toNat)
        ∧ (usesSource i.form.op = false → t.rsi = s.rsi)
        ∧ (usesDest i.form.op = true →
            (dstIdx i.form.a t).toNat = offsetAfter i.form.a s.df i.form.w k (dstIdx i.form.a s).toNat)
        ∧ (usesDest i.form.op = false → t.rdi = s.rdi)
        ∧ t.rdx = s.rdx ∧ t.df = s.df ∧ t.launch = s.launch
        ∧ (i.form.kind = .rep → 0 < k → t.rip =
            if k = (countReg i.form.a s).toNat then nextRip s.launch.mode s.rip i.ilen else s.rip)

/-- R120, R121 with R77, R81: `REP STOS m8` from count `n`, in either direction and at every address size, fills the `n`
bytes at offsets `d + k*delta` with AL, leaves every other byte, and completes with a zero count and the index past the
last byte. -/
def Obligations.RepStosFillsBytes : Prop :=
  ∀ (i : Instr) (a : AddrSize) (s : State) (off : Nat → Word), i.form = ⟨.rep, .stos, .b8, a⟩ →
    encodable s.launch.mode .b8 a = true → countReg a s ≠ 0#64 → quietFor (countReg a s).toNat s = true →
    (∀ k, (off k).toNat = offsetAfter a s.df .b8 k (dstIdx a s).toNat) →
    (∀ k, k < (countReg a s).toNat → accessOk s.launch .write .es .b8 a (off k)
      ∧ hitsCode .b8 i.ilen (lin s.launch .es (off k)) s = false) →
    ∃ t, execTimes (countReg a s).toNat i s = .next t
      ∧ (∀ k, k < (countReg a s).toNat →
          readByte t.mem (lin s.launch .es (off k)).toNat = some (s.rax.setWidth 8))
      ∧ (∀ x, (∀ k, k < (countReg a s).toNat → x ≠ (lin s.launch .es (off k)).toNat) →
          readByte t.mem x = readByte s.mem x)
      ∧ countReg a t = 0#64 ∧ dstIdx a t = off (countReg a s).toNat
      ∧ t.rip = nextRip s.launch.mode s.rip i.ilen ∧ t.rax = s.rax ∧ t.rsi = s.rsi ∧ t.status = s.status

/-- R105, R106 with R77, R81, R88: `REP MOVS m8, m8` from count `n` whose destination bytes lie apart from its source
bytes copies the `n` bytes, leaves every other byte, and completes with both indexes past the last byte. -/
def Obligations.RepMovsCopiesBytes : Prop :=
  ∀ (i : Instr) (a : AddrSize) (s : State) (src dst : Nat → Word) (b : Nat → Byte), i.form = ⟨.rep, .movs, .b8, a⟩ →
    encodable s.launch.mode .b8 a = true → countReg a s ≠ 0#64 → quietFor (countReg a s).toNat s = true →
    (∀ k, (src k).toNat = offsetAfter a s.df .b8 k (srcIdx a s).toNat) →
    (∀ k, (dst k).toNat = offsetAfter a s.df .b8 k (dstIdx a s).toNat) →
    (∀ k, k < (countReg a s).toNat → accessOk s.launch .read i.pre.sourceSeg .b8 a (src k)
      ∧ accessOk s.launch .write .es .b8 a (dst k) ∧ hitsCode .b8 i.ilen (lin s.launch .es (dst k)) s = false
      ∧ readByte s.mem (lin s.launch i.pre.sourceSeg (src k)).toNat = some (b k)) →
    (∀ j k, j < (countReg a s).toNat → k < (countReg a s).toNat →
      lin s.launch i.pre.sourceSeg (src j) ≠ lin s.launch .es (dst k)) →
    ∃ t, execTimes (countReg a s).toNat i s = .next t
      ∧ (∀ k, k < (countReg a s).toNat → readByte t.mem (lin s.launch .es (dst k)).toNat = some (b k))
      ∧ (∀ x, (∀ k, k < (countReg a s).toNat → x ≠ (lin s.launch .es (dst k)).toNat) →
          readByte t.mem x = readByte s.mem x)
      ∧ countReg a t = 0#64 ∧ srcIdx a t = src (countReg a s).toNat ∧ dstIdx a t = dst (countReg a s).toNat
      ∧ t.rip = nextRip s.launch.mode s.rip i.ilen ∧ t.rax = s.rax ∧ t.status = s.status

/-- R130 to R134, R140 to R144 with R74, R75: `REPE SCAS` stops on the first element that differs from the accumulator,
`REPNE SCAS` on the first that equals it. Where that is element `j` of `n`, the instruction completes after `j + 1`
iterations with the index one element past it, the count `n - j - 1` and ZF telling the comparison; RAX and memory are
unchanged. -/
def Obligations.ScasStopsAtFirst : Prop :=
  ∀ (i : Instr) (kind : RepKind) (w : OpSize) (a : AddrSize) (s : State) (j : Nat) (off y : Nat → Word),
    i.form = ⟨kind, .scas, w, a⟩ → encodable s.launch.mode w a = true → j < (countReg a s).toNat →
    quietFor (j + 1) s = true →
    (∀ k, (off k).toNat = offsetAfter a s.df w k (dstIdx a s).toNat) →
    (∀ k, k ≤ j → accessOk s.launch .read .es w a (off k) ∧ readElem w (lin s.launch .es (off k)) s = .ok (y k)) →
    (∀ k, k < j → (kind = .repe → y k = acc w s) ∧ (kind = .repne → y k ≠ acc w s)) →
    (kind = .repe → y j ≠ acc w s) → (kind = .repne → y j = acc w s) →
    ∃ u t, runsOn j i s u ∧ exec i u = .next t ∧ t.rip = nextRip s.launch.mode s.rip i.ilen
      ∧ (countReg a t).toNat = (countReg a s).toNat - j - 1 ∧ dstIdx a t = off (j + 1)
      ∧ (t.status.zf = true ↔ kind = .repne) ∧ t.rax = s.rax ∧ t.rsi = s.rsi ∧ t.mem = s.mem

/-! Exceptions (60_exceptions.md). -/

/-- R79, R161, R162, for all 68 instructions: whatever exception or VM exit an execution ends with, every register, RIP,
DF, memory and the launch are as before it; the flags are as before, or for CMPS and SCAS those from before the
instruction (R83: the second image is the model's record `entryFlags`, log entry 9, the model's choice); the I/O trace is
as before, or for INS has one `In` event more (R84). -/
def Obligations.FaultStateKept : Prop :=
  ∀ (i : Instr) (s : State) (f : Fault), exec i s = .fault f →
    keptAtFault s f.state
      ∧ (f.state.status = s.status
        ∨ ((i.form.op = .cmps ∨ i.form.op = .scas) ∧ f.state.status = s.entryFlags.getD s.status))
      ∧ ((f.state.ioTrace = s.ioTrace ∧ f.state.ioInput = s.ioInput)
          ∨ (i.form.op = .ins ∧ f.state.ioInput = s.ioInput.tail
            ∧ ∃ v, f.state.ioTrace = s.ioTrace ++ [.input (portReg s) i.form.w.bytes v]))

/-- R153, R8: INS and OUTS on a port that is not permitted: `#GP(0)`, about no memory access, before any of it. -/
def Obligations.PortNotPermitted : Prop :=
  ∀ (i : Instr) (s : State), (i.form.op = .ins ∨ i.form.op = .outs) → entered i.form.w i.form.a s →
    ioPermitted i.form.w s = false →
    ∃ u, exec i s = .fault (.exception .gp0 none u) ∧ keptAtFault s u ∧ u.status = s.status
      ∧ u.ioTrace = s.ioTrace ∧ u.ioInput = s.ioInput

/-- R40, R151: in `Mode64`, an element one of whose bytes is not canonical raises `#GP(0)`. The source operand, where the
destination (if there is one) is accessible; and the destination operand, where the source (if there is one) is. Two
clauses are the model's reading: that a source overridden to SS raises `#GP(0)` too, where a row of R153 says `#SS(0)`
(log entry 13), and that the outcome carries the operand's address and kind (log entry 27). -/
def Obligations.NonCanonicalOperand : Prop :=
  ∀ (i : Instr) (w : OpSize) (a : AddrSize) (s : State), i.form.w = w → i.form.a = a → entered w a s →
    (i.form.op = .ins ∨ i.form.op = .outs → ioPermitted w s = true) →
    (usesSource i.form.op = true → straddles w a (srcIdx a s) = false →
      allCanonical s.launch (srcAddr a i.pre.sourceSeg s) w.bytes = false →
      (usesDest i.form.op = true → accessOk s.launch (destKind i.form.op) .es w a (dstIdx a s)) →
      ∃ u, exec i s = .fault (.exception .gp0 (some ⟨srcAddr a i.pre.sourceSeg s, .read⟩) u) ∧ keptAtFault s u)
    ∧ (usesDest i.form.op = true → straddles w a (dstIdx a s) = false →
      allCanonical s.launch (dstAddr a s) w.bytes = false →
      (usesSource i.form.op = true → accessOk s.launch .read i.pre.sourceSeg w a (srcIdx a s)) →
      ∃ u, exec i s = .fault (.exception .gp0 (some ⟨dstAddr a s, destKind i.form.op⟩) u) ∧ keptAtFault s u)

/-- R42, R153, R155: an element that lies at canonical addresses and that `MemFault` rejects ends the run with the
exception `MemFault` gives, or with a VM exit, and with the address and kind of the access; INS apart (R84). -/
def Obligations.RejectedAccess : Prop :=
  ∀ (i : Instr) (w : OpSize) (a : AddrSize) (s : State) (e : MemEvent), i.form.w = w → i.form.a = a → entered w a s →
    i.form.op ≠ .ins → (i.form.op = .outs → ioPermitted w s = true) →
    (usesSource i.form.op = true → straddles w a (srcIdx a s) = false →
      allCanonical s.launch (srcAddr a i.pre.sourceSeg s) w.bytes = true →
      memFault s.launch .read (srcAddr a i.pre.sourceSeg s) w.bytes = some e →
      (usesDest i.form.op = true → accessOk s.launch (destKind i.form.op) .es w a (dstIdx a s)) →
      ∃ u, keptAtFault s u ∧ match e with
        | .exn x => exec i s = .fault (.exception x (some ⟨srcAddr a i.pre.sourceSeg s, .read⟩) u)
        | .vmExit => exec i s = .fault (.vmExit (some ⟨srcAddr a i.pre.sourceSeg s, .read⟩) u))
    ∧ (usesDest i.form.op = true → straddles w a (dstIdx a s) = false →
      allCanonical s.launch (dstAddr a s) w.bytes = true →
      memFault s.launch (destKind i.form.op) (dstAddr a s) w.bytes = some e →
      (usesSource i.form.op = true → accessOk s.launch .read i.pre.sourceSeg w a (srcIdx a s)) →
      ∃ u, keptAtFault s u ∧ match e with
        | .exn x => exec i s = .fault (.exception x (some ⟨dstAddr a s, destKind i.form.op⟩) u)
        | .vmExit => exec i s = .fault (.vmExit (some ⟨dstAddr a s, destKind i.form.op⟩) u))

/-- R84, R87: `REP INS` whose write is rejected. The event is the write's; the port may have been read, its value
lost and the `In` event in the trace, or not; the count and the index are unchanged, RIP is still at the
instruction, and resumed under rules that allow the write it reads the port (again). -/
def Obligations.InsRejectedWrite : Prop :=
  ∀ (i : Instr) (w : OpSize) (a : AddrSize) (s : State) (e : MemEvent), i.form = ⟨.rep, .ins, w, a⟩ → entered w a s →
    ioPermitted w s = true → straddles w a (dstIdx a s) = false → allCanonical s.launch (dstAddr a s) w.bytes = true →
    memFault s.launch .write (dstAddr a s) w.bytes = some e →
    ∃ u, keptAtFault s u ∧ u.status = s.status
      ∧ ((u.ioTrace = s.ioTrace ∧ u.ioInput = s.ioInput)
        ∨ (u.ioInput = s.ioInput.tail
          ∧ ∃ v, u.ioTrace = s.ioTrace ++ [.input (portReg s) w.bytes v] ∧ v.toNat < 2 ^ w.bits
            ∧ ∀ y ys, s.ioInput = y :: ys → v.toNat = y.toNat % 2 ^ w.bits))
      ∧ (match e with
        | .exn x => exec i s = .fault (.exception x (some ⟨dstAddr a s, .write⟩) u)
        | .vmExit => exec i s = .fault (.vmExit (some ⟨dstAddr a s, .write⟩) u))
      ∧ ∀ rules, quiet u = true → hitsCode w i.ilen (dstAddr a s) s = false →
        memFault (resume rules u).launch .write (dstAddr a s) w.bytes = none →
        ∃ t v, exec i (resume rules u) = .next t ∧ t.ioTrace = u.ioTrace ++ [.input (portReg s) w.bytes v]

/-- R149 step 3, D22: where both operands of MOVS or CMPS raise, the launch's `FaultOrder` says whose event is
reported; a canonical fault of one operand and a rejection of the other are such a pair (log entry 12, the model's
reading of R88 and R92). -/
def Obligations.FaultOrderDecides : Prop :=
  ∀ (i : Instr) (w : OpSize) (a : AddrSize) (s : State) (e e' : MemEvent) (x x' : Access),
    (i.form.op = .movs ∨ i.form.op = .cmps) → i.form.w = w → i.form.a = a → entered w a s →
    operand s.launch .read i.pre.sourceSeg w a (srcIdx a s) = .raises e x →
    operand s.launch (destKind i.form.op) .es w a (dstIdx a s) = .raises e' x' →
    ∃ u, keptAtFault s u ∧ match (if s.launch.faultOrder = .sourceFirst then (e, x) else (e', x')) with
      | (.exn z, acc) => exec i s = .fault (.exception z (some acc) u)
      | (.vmExit, acc) => exec i s = .fault (.vmExit (some acc) u)

/-- R83: at a fault in REPE or REPNE CMPS or SCAS after `k` iterations the status flags are those of iteration `k`, or
those from before the instruction. -/
def Obligations.FaultFlagsImages : Prop :=
  ∀ (i : Instr) (m : Mode) (k : Nat) (s t : State) (f : Fault), wellFormed m i = true →
    (i.form.op = .cmps ∨ i.form.op = .scas) → s.entryFlags = none → quietFor k s = true →
    k < (countReg i.form.a s).toNat → runsOn k i s t → exec i t = .fault f →
    f.state.status = t.status ∨ f.state.status = s.status

/-- R82, R164: a fault leaves no record. A new run from the fault state of a MOVS, OUTS, LODS or STOS, under whatever
memory rules the handler has left, is the run from the state before the fault, its window used, under those rules. -/
def Obligations.ResumptionIsFreshExecution : Prop :=
  ∀ (i : Instr) (s : State) (f : Fault) (rules : List MemRule),
    (i.form.op = .movs ∨ i.form.op = .outs ∨ i.form.op = .lods ∨ i.form.op = .stos) →
    exec i s = .fault f →
    step (resume rules f.state) = step (resume rules { s with windows := s.windows.tail, entryFlags := none })

/-- R82, R83, R164, for the next execution of a resumed CMPS or SCAS, where it goes on: it does not depend on the flags
image the fault has shown. From the fault state and from the state before the fault (its window used, the draw of the
image counted), under whatever memory rules the handler has left, it leaves the same registers, memory, I/O and RIP, and
the same flags unless an interrupt is taken first. The record `entryFlags` is left out: it holds the image the resumed
execution began with, which a later fault of it can show again (log entry 9, the model's choice). -/
def Obligations.ResumedComparisonIgnoresImage : Prop :=
  ∀ (i : Instr) (s t : State) (f : Fault) (rules : List MemRule), (i.form.op = .cmps ∨ i.form.op = .scas) →
    exec i s = .fault f →
    exec i (resume rules { s with windows := s.windows.tail, entryFlags := none, draws := s.draws + 1 }) = .next t →
    ∃ t', exec i (resume rules f.state) = .next t'
      ∧ { t' with status := t.status, entryFlags := t.entryFlags } = t
      ∧ (quiet f.state = true → t'.status = t.status)

/-- R28: a repeat in progress has no hidden state. Two states that differ only in the model's record of the flags at the
start of the execution have the same successors but for that record. -/
def Obligations.NoHiddenState : Prop :=
  ∀ (s t : State) (e : Option StatusFlags), step s = .next t →
    ∃ t', step { s with entryFlags := e } = .next t' ∧ { t' with entryFlags := t.entryFlags } = t

/-! Refusals. -/

/-- R39, D7: an element that straddles the wrap of the `A`-bit offsets is refused: the source element, and the
destination element. That the refusal comes before any exception or VM exit of the other operand is the model's choice
(log entry 15). -/
def Obligations.StraddlingElementRefused : Prop :=
  ∀ (i : Instr) (s : State), entered i.form.w i.form.a s →
    (i.form.op = .ins ∨ i.form.op = .outs → ioPermitted i.form.w s = true) →
    ((usesSource i.form.op = true ∧ straddles i.form.w i.form.a (srcIdx i.form.a s) = true)
      ∨ (usesDest i.form.op = true ∧ straddles i.form.w i.form.a (dstIdx i.form.a s) = true)) →
    exec i s = .refused .elementStraddle

/-- R45, D14: a store of INS, MOVS or STOS into a byte of the executing instruction is refused. -/
def Obligations.StoreIntoInstructionRefused : Prop :=
  ∀ (i : Instr) (s : State), entered i.form.w i.form.a s →
    (i.form.op = .stos ∨ (i.form.op = .ins ∧ ioPermitted i.form.w s = true)
      ∨ (i.form.op = .movs ∧ accessOk s.launch .read i.pre.sourceSeg i.form.w i.form.a (srcIdx i.form.a s)
        ∧ ∃ v, readElem i.form.w (srcAddr i.form.a i.pre.sourceSeg s) s = .ok v)) →
    accessOk s.launch .write .es i.form.w i.form.a (dstIdx i.form.a s) →
    (∃ x, x ∈ byteAddrs s.launch (dstAddr i.form.a s) i.form.w.bytes ∧ x ∈ byteAddrs s.launch (codeAddr s) i.ilen) →
    exec i s = .refused .storeIntoInstruction

/-! The machine. -/

/-- R77, D2: a step runs the decoded instruction. Where RIP is not at the exit address and the program's bytes at RIP
decode to an instruction that does not straddle the top of its address space, the step is its execution, with nothing
around it. -/
def Obligations.StepRunsDecoded : Prop :=
  ∀ (s : State) (i : Instr), atExit s = false → decode s.launch.mode s.launch.admitUnlisted (fetch s) = .ok i →
    codeFits i.ilen s = true → step s = exec i s

/-- R32, R68, R77: a well-formed instruction whose bytes the program has at RIP is the one the step runs. -/
def Obligations.StepRunsEncodedBytes : Prop :=
  ∀ (s : State) (i : Instr), atExit s = false → wellFormed s.launch.mode i = true →
    (s.launch.admitUnlisted || i.listed) = true → programHas i s → codeFits i.ilen s = true → step s = exec i s

/-- R19, R172, D1, D18: what a step does where there is nothing to run. At the exit address the run is complete;
otherwise an instruction that straddles the top of its address space or leaves the canonical addresses is refused, bytes
that are no in-scope instruction are refused by name, and so is an RIP at which the program has no byte. -/
def Obligations.StepStops : Prop :=
  ∀ s : State,
    (∀ e, s.launch.exitAddress = some e → (ipView s.launch.mode).get s.rip = (ipView s.launch.mode).get e →
      step s = .fault (.completed s))
    ∧ (atExit s = false →
      (∀ i, decode s.launch.mode s.launch.admitUnlisted (fetch s) = .ok i → codeFits i.ilen s = false →
        step s = .refused .codeStraddle)
      ∧ (∀ r, r ≠ .truncated → decode s.launch.mode s.launch.admitUnlisted (fetch s) = .error r →
        step s = .refused (.undecodable r))
      ∧ (readByte s.launch.program (codeAddr s).toNat = none → step s = .refused .outsideProgram))

/-- R45, D14: the program bytes are a parameter of the launch. Whatever a step stores, and whatever a handler stores, the
bytes fetched at any RIP stay the same. -/
def Obligations.StoresLeaveTheProgram : Prop :=
  ∀ s t : State, step s = .next t → ∀ r, fetch { t with rip := r } = fetch { s with rip := r }

/-- R172: a run ends in one of four ways, and what is observed. After some number of steps it has reached a state `u` that
is at the exit address (completed, in `u`); or whose step raises an exception or a VM exit (the outcome and the fault
state, R161); or whose step is refused (the reason, in `u`: log entry 34, the model's reading). -/
def Obligations.RunEndsAsObserved : Prop :=
  ∀ (n : Nat) (s : State) (o : Observation), run n s = some o →
    ∃ k u, k ≤ n ∧ stepsTo k s u ∧
      ((atExit u = true ∧ o = ⟨.completed, u⟩)
        ∨ (∃ e x v, step u = .fault (.exception e x v) ∧ keptAtFault u v ∧ o = ⟨.fault e x, v⟩)
        ∨ (∃ x v, step u = .fault (.vmExit x v) ∧ keptAtFault u v ∧ o = ⟨.vmExit x, v⟩)
        ∨ (∃ r, step u = .refused r ∧ o = ⟨.refused r, u⟩))

/-- R172 a, R72, R78: a run of one instruction completes. Where the program has its bytes at RIP, the exit address is the
one past it, no interrupt is taken, and the WHILE loop of the source ends in `t`, the run from that launch state is
observed as completed in `t`, after at most as many steps as the count says and one. -/
def Obligations.RepeatRunsToCompletion : Prop :=
  ∀ (i : Instr) (s t : State), wellFormed s.launch.mode i = true → (s.launch.admitUnlisted || i.listed) = true →
    programHas i s → codeFits i.ilen s = true →
    s.launch.exitAddress = some (nextRip s.launch.mode s.rip i.ilen) →
    quietFor (countReg i.form.a s).toNat s = true → whileLoop i s = .next t →
    run ((countReg i.form.a s).toNat + 1) s = some ⟨.completed, t⟩

/-- R4, R16, R23, R97: every step keeps the launch; a step without an interrupt keeps DF and RDX, and appends at most
one event to the I/O trace. -/
def Obligations.WholeMachineKeeps : Prop :=
  ∀ s t : State, step s = .next t →
    t.launch = s.launch ∧ (quiet s = true → t.df = s.df ∧ t.rdx = s.rdx)
      ∧ (quiet s = true → t.ioTrace = s.ioTrace ∨ ∃ e, t.ioTrace = s.ioTrace ++ [e])
      ∧ ∃ es, t.ioTrace = s.ioTrace ++ es

/-- The invariant every step keeps (R18, R19, R25, R26): the canonical form of memory and of the program, RIP within the
instruction pointer of the mode, and an I/O trace of port accesses of 1, 2 or 4 bytes. -/
def Obligations.InvariantKept : Prop :=
  ∀ s t : State, StateInv s → step s = .next t → StateInv t

/-- The invariant holds after reset. -/
def Obligations.InvariantAtReset : Prop := StateInv State.reset

/-- The state after reset, as the model names it (log entries 1, 2, 3, 4, 24, 33, 34: the spec states no reset value): the
model's choice. -/
def Obligations.ResetState : Prop :=
  let s := State.reset
  s.rax = 0 ∧ s.rcx = 0 ∧ s.rdx = 0 ∧ s.rsi = 0 ∧ s.rdi = 0 ∧ s.rip = 0xFFF0 ∧ eflags s = 2 ∧ s.mem = []
    ∧ s.ioTrace = [] ∧ s.launch.mode = .modeCL .d16 .d16 ∧ codeAddr s = 0xFFFFFFF0
    ∧ s.launch.program = [] ∧ s.launch.exitAddress = none ∧ step s = .refused .outsideProgram
end

