-- ==== Sys2Proof/Laws/State.lean ====
section
/-! SUPPORT. What each named update leaves in each field of the state. -/

namespace Sys2Proof.Machine

open Sys2Proof

variable (s : State)

@[simp] theorem setAcc_rax (w : OpSize) (v : Word) : (setAcc w v s).rax = (accView w).put s.launch.mode s.rax v := rfl
@[simp] theorem setAcc_rcx (w : OpSize) (v : Word) : (setAcc w v s).rcx = s.rcx := rfl
@[simp] theorem setAcc_rdx (w : OpSize) (v : Word) : (setAcc w v s).rdx = s.rdx := rfl
@[simp] theorem setAcc_rsi (w : OpSize) (v : Word) : (setAcc w v s).rsi = s.rsi := rfl
@[simp] theorem setAcc_rdi (w : OpSize) (v : Word) : (setAcc w v s).rdi = s.rdi := rfl
@[simp] theorem setAcc_rip (w : OpSize) (v : Word) : (setAcc w v s).rip = s.rip := rfl
@[simp] theorem setAcc_status (w : OpSize) (v : Word) : (setAcc w v s).status = s.status := rfl
@[simp] theorem setAcc_df (w : OpSize) (v : Word) : (setAcc w v s).df = s.df := rfl
@[simp] theorem setAcc_mem (w : OpSize) (v : Word) : (setAcc w v s).mem = s.mem := rfl
@[simp] theorem setAcc_ioTrace (w : OpSize) (v : Word) : (setAcc w v s).ioTrace = s.ioTrace := rfl
@[simp] theorem setAcc_launch (w : OpSize) (v : Word) : (setAcc w v s).launch = s.launch := rfl
@[simp] theorem setAcc_ioInput (w : OpSize) (v : Word) : (setAcc w v s).ioInput = s.ioInput := rfl
@[simp] theorem setAcc_windows (w : OpSize) (v : Word) : (setAcc w v s).windows = s.windows := rfl
@[simp] theorem setAcc_entryFlags (w : OpSize) (v : Word) : (setAcc w v s).entryFlags = s.entryFlags := rfl
@[simp] theorem setAcc_draws (w : OpSize) (v : Word) : (setAcc w v s).draws = s.draws := rfl

@[simp] theorem setCount_rax (a : AddrSize) (v : Word) : (setCount a v s).rax = s.rax := rfl
@[simp] theorem setCount_rcx (a : AddrSize) (v : Word) : (setCount a v s).rcx = implicitValue s a s.rcx v := rfl
@[simp] theorem setCount_rdx (a : AddrSize) (v : Word) : (setCount a v s).rdx = s.rdx := rfl
@[simp] theorem setCount_rsi (a : AddrSize) (v : Word) : (setCount a v s).rsi = s.rsi := rfl
@[simp] theorem setCount_rdi (a : AddrSize) (v : Word) : (setCount a v s).rdi = s.rdi := rfl
@[simp] theorem setCount_rip (a : AddrSize) (v : Word) : (setCount a v s).rip = s.rip := rfl
@[simp] theorem setCount_status (a : AddrSize) (v : Word) : (setCount a v s).status = s.status := rfl
@[simp] theorem setCount_df (a : AddrSize) (v : Word) : (setCount a v s).df = s.df := rfl
@[simp] theorem setCount_mem (a : AddrSize) (v : Word) : (setCount a v s).mem = s.mem := rfl
@[simp] theorem setCount_ioTrace (a : AddrSize) (v : Word) : (setCount a v s).ioTrace = s.ioTrace := rfl
@[simp] theorem setCount_launch (a : AddrSize) (v : Word) : (setCount a v s).launch = s.launch := rfl
@[simp] theorem setCount_ioInput (a : AddrSize) (v : Word) : (setCount a v s).ioInput = s.ioInput := rfl
@[simp] theorem setCount_windows (a : AddrSize) (v : Word) : (setCount a v s).windows = s.windows := rfl
@[simp] theorem setCount_entryFlags (a : AddrSize) (v : Word) : (setCount a v s).entryFlags = s.entryFlags := rfl
@[simp] theorem setCount_draws (a : AddrSize) (v : Word) : (setCount a v s).draws = s.draws + 1 := rfl

@[simp] theorem setSrc_rax (a : AddrSize) (v : Word) : (setSrc a v s).rax = s.rax := rfl
@[simp] theorem setSrc_rcx (a : AddrSize) (v : Word) : (setSrc a v s).rcx = s.rcx := rfl
@[simp] theorem setSrc_rdx (a : AddrSize) (v : Word) : (setSrc a v s).rdx = s.rdx := rfl
@[simp] theorem setSrc_rsi (a : AddrSize) (v : Word) : (setSrc a v s).rsi = implicitValue s a s.rsi v := rfl
@[simp] theorem setSrc_rdi (a : AddrSize) (v : Word) : (setSrc a v s).rdi = s.rdi := rfl
@[simp] theorem setSrc_rip (a : AddrSize) (v : Word) : (setSrc a v s).rip = s.rip := rfl
@[simp] theorem setSrc_status (a : AddrSize) (v : Word) : (setSrc a v s).status = s.status := rfl
@[simp] theorem setSrc_df (a : AddrSize) (v : Word) : (setSrc a v s).df = s.df := rfl
@[simp] theorem setSrc_mem (a : AddrSize) (v : Word) : (setSrc a v s).mem = s.mem := rfl
@[simp] theorem setSrc_ioTrace (a : AddrSize) (v : Word) : (setSrc a v s).ioTrace = s.ioTrace := rfl
@[simp] theorem setSrc_launch (a : AddrSize) (v : Word) : (setSrc a v s).launch = s.launch := rfl
@[simp] theorem setSrc_ioInput (a : AddrSize) (v : Word) : (setSrc a v s).ioInput = s.ioInput := rfl
@[simp] theorem setSrc_windows (a : AddrSize) (v : Word) : (setSrc a v s).windows = s.windows := rfl
@[simp] theorem setSrc_entryFlags (a : AddrSize) (v : Word) : (setSrc a v s).entryFlags = s.entryFlags := rfl
@[simp] theorem setSrc_draws (a : AddrSize) (v : Word) : (setSrc a v s).draws = s.draws + 1 := rfl

@[simp] theorem setDst_rax (a : AddrSize) (v : Word) : (setDst a v s).rax = s.rax := rfl
@[simp] theorem setDst_rcx (a : AddrSize) (v : Word) : (setDst a v s).rcx = s.rcx := rfl
@[simp] theorem setDst_rdx (a : AddrSize) (v : Word) : (setDst a v s).rdx = s.rdx := rfl
@[simp] theorem setDst_rsi (a : AddrSize) (v : Word) : (setDst a v s).rsi = s.rsi := rfl
@[simp] theorem setDst_rdi (a : AddrSize) (v : Word) : (setDst a v s).rdi = implicitValue s a s.rdi v := rfl
@[simp] theorem setDst_rip (a : AddrSize) (v : Word) : (setDst a v s).rip = s.rip := rfl
@[simp] theorem setDst_status (a : AddrSize) (v : Word) : (setDst a v s).status = s.status := rfl
@[simp] theorem setDst_df (a : AddrSize) (v : Word) : (setDst a v s).df = s.df := rfl
@[simp] theorem setDst_mem (a : AddrSize) (v : Word) : (setDst a v s).mem = s.mem := rfl
@[simp] theorem setDst_ioTrace (a : AddrSize) (v : Word) : (setDst a v s).ioTrace = s.ioTrace := rfl
@[simp] theorem setDst_launch (a : AddrSize) (v : Word) : (setDst a v s).launch = s.launch := rfl
@[simp] theorem setDst_ioInput (a : AddrSize) (v : Word) : (setDst a v s).ioInput = s.ioInput := rfl
@[simp] theorem setDst_windows (a : AddrSize) (v : Word) : (setDst a v s).windows = s.windows := rfl
@[simp] theorem setDst_entryFlags (a : AddrSize) (v : Word) : (setDst a v s).entryFlags = s.entryFlags := rfl
@[simp] theorem setDst_draws (a : AddrSize) (v : Word) : (setDst a v s).draws = s.draws + 1 := rfl

@[simp] theorem advSrc_rax (a : AddrSize) (w : OpSize) : (advSrc a w s).rax = s.rax := rfl
@[simp] theorem advSrc_rcx (a : AddrSize) (w : OpSize) : (advSrc a w s).rcx = s.rcx := rfl
@[simp] theorem advSrc_rdx (a : AddrSize) (w : OpSize) : (advSrc a w s).rdx = s.rdx := rfl
@[simp] theorem advSrc_rsi (a : AddrSize) (w : OpSize) : (advSrc a w s).rsi = implicitValue s a s.rsi (moved s.df w (srcIdx a s)) := rfl
@[simp] theorem advSrc_rdi (a : AddrSize) (w : OpSize) : (advSrc a w s).rdi = s.rdi := rfl
@[simp] theorem advSrc_rip (a : AddrSize) (w : OpSize) : (advSrc a w s).rip = s.rip := rfl
@[simp] theorem advSrc_status (a : AddrSize) (w : OpSize) : (advSrc a w s).status = s.status := rfl
@[simp] theorem advSrc_df (a : AddrSize) (w : OpSize) : (advSrc a w s).df = s.df := rfl
@[simp] theorem advSrc_mem (a : AddrSize) (w : OpSize) : (advSrc a w s).mem = s.mem := rfl
@[simp] theorem advSrc_ioTrace (a : AddrSize) (w : OpSize) : (advSrc a w s).ioTrace = s.ioTrace := rfl
@[simp] theorem advSrc_launch (a : AddrSize) (w : OpSize) : (advSrc a w s).launch = s.launch := rfl
@[simp] theorem advSrc_ioInput (a : AddrSize) (w : OpSize) : (advSrc a w s).ioInput = s.ioInput := rfl
@[simp] theorem advSrc_windows (a : AddrSize) (w : OpSize) : (advSrc a w s).windows = s.windows := rfl
@[simp] theorem advSrc_entryFlags (a : AddrSize) (w : OpSize) : (advSrc a w s).entryFlags = s.entryFlags := rfl
@[simp] theorem advSrc_draws (a : AddrSize) (w : OpSize) : (advSrc a w s).draws = s.draws + 1 := rfl

@[simp] theorem advDst_rax (a : AddrSize) (w : OpSize) : (advDst a w s).rax = s.rax := rfl
@[simp] theorem advDst_rcx (a : AddrSize) (w : OpSize) : (advDst a w s).rcx = s.rcx := rfl
@[simp] theorem advDst_rdx (a : AddrSize) (w : OpSize) : (advDst a w s).rdx = s.rdx := rfl
@[simp] theorem advDst_rsi (a : AddrSize) (w : OpSize) : (advDst a w s).rsi = s.rsi := rfl
@[simp] theorem advDst_rdi (a : AddrSize) (w : OpSize) : (advDst a w s).rdi = implicitValue s a s.rdi (moved s.df w (dstIdx a s)) := rfl
@[simp] theorem advDst_rip (a : AddrSize) (w : OpSize) : (advDst a w s).rip = s.rip := rfl
@[simp] theorem advDst_status (a : AddrSize) (w : OpSize) : (advDst a w s).status = s.status := rfl
@[simp] theorem advDst_df (a : AddrSize) (w : OpSize) : (advDst a w s).df = s.df := rfl
@[simp] theorem advDst_mem (a : AddrSize) (w : OpSize) : (advDst a w s).mem = s.mem := rfl
@[simp] theorem advDst_ioTrace (a : AddrSize) (w : OpSize) : (advDst a w s).ioTrace = s.ioTrace := rfl
@[simp] theorem advDst_launch (a : AddrSize) (w : OpSize) : (advDst a w s).launch = s.launch := rfl
@[simp] theorem advDst_ioInput (a : AddrSize) (w : OpSize) : (advDst a w s).ioInput = s.ioInput := rfl
@[simp] theorem advDst_windows (a : AddrSize) (w : OpSize) : (advDst a w s).windows = s.windows := rfl
@[simp] theorem advDst_entryFlags (a : AddrSize) (w : OpSize) : (advDst a w s).entryFlags = s.entryFlags := rfl
@[simp] theorem advDst_draws (a : AddrSize) (w : OpSize) : (advDst a w s).draws = s.draws + 1 := rfl

@[simp] theorem setStatus_rax (f : StatusFlags) : (setStatus f s).rax = s.rax := rfl
@[simp] theorem setStatus_rcx (f : StatusFlags) : (setStatus f s).rcx = s.rcx := rfl
@[simp] theorem setStatus_rdx (f : StatusFlags) : (setStatus f s).rdx = s.rdx := rfl
@[simp] theorem setStatus_rsi (f : StatusFlags) : (setStatus f s).rsi = s.rsi := rfl
@[simp] theorem setStatus_rdi (f : StatusFlags) : (setStatus f s).rdi = s.rdi := rfl
@[simp] theorem setStatus_rip (f : StatusFlags) : (setStatus f s).rip = s.rip := rfl
@[simp] theorem setStatus_status (f : StatusFlags) : (setStatus f s).status = f := rfl
@[simp] theorem setStatus_df (f : StatusFlags) : (setStatus f s).df = s.df := rfl
@[simp] theorem setStatus_mem (f : StatusFlags) : (setStatus f s).mem = s.mem := rfl
@[simp] theorem setStatus_ioTrace (f : StatusFlags) : (setStatus f s).ioTrace = s.ioTrace := rfl
@[simp] theorem setStatus_launch (f : StatusFlags) : (setStatus f s).launch = s.launch := rfl
@[simp] theorem setStatus_ioInput (f : StatusFlags) : (setStatus f s).ioInput = s.ioInput := rfl
@[simp] theorem setStatus_windows (f : StatusFlags) : (setStatus f s).windows = s.windows := rfl
@[simp] theorem setStatus_entryFlags (f : StatusFlags) : (setStatus f s).entryFlags = s.entryFlags := rfl
@[simp] theorem setStatus_draws (f : StatusFlags) : (setStatus f s).draws = s.draws := rfl

@[simp] theorem writeElem_rax (w : OpSize) (a v : Word) : (writeElem w a v s).rax = s.rax := rfl
@[simp] theorem writeElem_rcx (w : OpSize) (a v : Word) : (writeElem w a v s).rcx = s.rcx := rfl
@[simp] theorem writeElem_rdx (w : OpSize) (a v : Word) : (writeElem w a v s).rdx = s.rdx := rfl
@[simp] theorem writeElem_rsi (w : OpSize) (a v : Word) : (writeElem w a v s).rsi = s.rsi := rfl
@[simp] theorem writeElem_rdi (w : OpSize) (a v : Word) : (writeElem w a v s).rdi = s.rdi := rfl
@[simp] theorem writeElem_rip (w : OpSize) (a v : Word) : (writeElem w a v s).rip = s.rip := rfl
@[simp] theorem writeElem_status (w : OpSize) (a v : Word) : (writeElem w a v s).status = s.status := rfl
@[simp] theorem writeElem_df (w : OpSize) (a v : Word) : (writeElem w a v s).df = s.df := rfl
@[simp] theorem writeElem_mem (w : OpSize) (a v : Word) : (writeElem w a v s).mem = scatter s.mem (byteAddrs s.launch a w.bytes) v := rfl
@[simp] theorem writeElem_ioTrace (w : OpSize) (a v : Word) : (writeElem w a v s).ioTrace = s.ioTrace := rfl
@[simp] theorem writeElem_launch (w : OpSize) (a v : Word) : (writeElem w a v s).launch = s.launch := rfl
@[simp] theorem writeElem_ioInput (w : OpSize) (a v : Word) : (writeElem w a v s).ioInput = s.ioInput := rfl
@[simp] theorem writeElem_windows (w : OpSize) (a v : Word) : (writeElem w a v s).windows = s.windows := rfl
@[simp] theorem writeElem_entryFlags (w : OpSize) (a v : Word) : (writeElem w a v s).entryFlags = s.entryFlags := rfl
@[simp] theorem writeElem_draws (w : OpSize) (a v : Word) : (writeElem w a v s).draws = s.draws := rfl

@[simp] theorem portInput_rax (w : OpSize) : (portInput w s).rax = s.rax := rfl
@[simp] theorem portInput_rcx (w : OpSize) : (portInput w s).rcx = s.rcx := rfl
@[simp] theorem portInput_rdx (w : OpSize) : (portInput w s).rdx = s.rdx := rfl
@[simp] theorem portInput_rsi (w : OpSize) : (portInput w s).rsi = s.rsi := rfl
@[simp] theorem portInput_rdi (w : OpSize) : (portInput w s).rdi = s.rdi := rfl
@[simp] theorem portInput_rip (w : OpSize) : (portInput w s).rip = s.rip := rfl
@[simp] theorem portInput_status (w : OpSize) : (portInput w s).status = s.status := rfl
@[simp] theorem portInput_df (w : OpSize) : (portInput w s).df = s.df := rfl
@[simp] theorem portInput_mem (w : OpSize) : (portInput w s).mem = s.mem := rfl
@[simp] theorem portInput_ioTrace (w : OpSize) : (portInput w s).ioTrace = s.ioTrace ++ [.input (portReg s) w.bytes (portValue w s)] := rfl
@[simp] theorem portInput_launch (w : OpSize) : (portInput w s).launch = s.launch := rfl
@[simp] theorem portInput_ioInput (w : OpSize) : (portInput w s).ioInput = s.ioInput.tail := rfl
@[simp] theorem portInput_windows (w : OpSize) : (portInput w s).windows = s.windows := rfl
@[simp] theorem portInput_entryFlags (w : OpSize) : (portInput w s).entryFlags = s.entryFlags := rfl
@[simp] theorem portInput_draws (w : OpSize) : (portInput w s).draws = s.draws + 1 := rfl

@[simp] theorem portOutput_rax (w : OpSize) (v : Word) : (portOutput w v s).rax = s.rax := rfl
@[simp] theorem portOutput_rcx (w : OpSize) (v : Word) : (portOutput w v s).rcx = s.rcx := rfl
@[simp] theorem portOutput_rdx (w : OpSize) (v : Word) : (portOutput w v s).rdx = s.rdx := rfl
@[simp] theorem portOutput_rsi (w : OpSize) (v : Word) : (portOutput w v s).rsi = s.rsi := rfl
@[simp] theorem portOutput_rdi (w : OpSize) (v : Word) : (portOutput w v s).rdi = s.rdi := rfl
@[simp] theorem portOutput_rip (w : OpSize) (v : Word) : (portOutput w v s).rip = s.rip := rfl
@[simp] theorem portOutput_status (w : OpSize) (v : Word) : (portOutput w v s).status = s.status := rfl
@[simp] theorem portOutput_df (w : OpSize) (v : Word) : (portOutput w v s).df = s.df := rfl
@[simp] theorem portOutput_mem (w : OpSize) (v : Word) : (portOutput w v s).mem = s.mem := rfl
@[simp] theorem portOutput_ioTrace (w : OpSize) (v : Word) : (portOutput w v s).ioTrace = s.ioTrace ++ [.output (portReg s) w.bytes (portTrunc w (v.setWidth 32))] := rfl
@[simp] theorem portOutput_launch (w : OpSize) (v : Word) : (portOutput w v s).launch = s.launch := rfl
@[simp] theorem portOutput_ioInput (w : OpSize) (v : Word) : (portOutput w v s).ioInput = s.ioInput := rfl
@[simp] theorem portOutput_windows (w : OpSize) (v : Word) : (portOutput w v s).windows = s.windows := rfl
@[simp] theorem portOutput_entryFlags (w : OpSize) (v : Word) : (portOutput w v s).entryFlags = s.entryFlags := rfl
@[simp] theorem portOutput_draws (w : OpSize) (v : Word) : (portOutput w v s).draws = s.draws := rfl

@[simp] theorem enter_rax : (enter s).rax = s.rax := rfl
@[simp] theorem enter_rcx : (enter s).rcx = s.rcx := rfl
@[simp] theorem enter_rdx : (enter s).rdx = s.rdx := rfl
@[simp] theorem enter_rsi : (enter s).rsi = s.rsi := rfl
@[simp] theorem enter_rdi : (enter s).rdi = s.rdi := rfl
@[simp] theorem enter_rip : (enter s).rip = s.rip := rfl
@[simp] theorem enter_status : (enter s).status = s.status := rfl
@[simp] theorem enter_df : (enter s).df = s.df := rfl
@[simp] theorem enter_mem : (enter s).mem = s.mem := rfl
@[simp] theorem enter_ioTrace : (enter s).ioTrace = s.ioTrace := rfl
@[simp] theorem enter_launch : (enter s).launch = s.launch := rfl
@[simp] theorem enter_ioInput : (enter s).ioInput = s.ioInput := rfl
@[simp] theorem enter_windows : (enter s).windows = s.windows.tail := rfl
@[simp] theorem enter_entryFlags : (enter s).entryFlags = some (s.entryFlags.getD s.status) := rfl
@[simp] theorem enter_draws : (enter s).draws = s.draws := rfl

@[simp] theorem complete_rax (ilen : Nat) : (complete ilen s).rax = s.rax := rfl
@[simp] theorem complete_rcx (ilen : Nat) : (complete ilen s).rcx = s.rcx := rfl
@[simp] theorem complete_rdx (ilen : Nat) : (complete ilen s).rdx = s.rdx := rfl
@[simp] theorem complete_rsi (ilen : Nat) : (complete ilen s).rsi = s.rsi := rfl
@[simp] theorem complete_rdi (ilen : Nat) : (complete ilen s).rdi = s.rdi := rfl
@[simp] theorem complete_rip (ilen : Nat) : (complete ilen s).rip = nextRip s.launch.mode s.rip ilen := rfl
@[simp] theorem complete_status (ilen : Nat) : (complete ilen s).status = s.status := rfl
@[simp] theorem complete_df (ilen : Nat) : (complete ilen s).df = s.df := rfl
@[simp] theorem complete_mem (ilen : Nat) : (complete ilen s).mem = s.mem := rfl
@[simp] theorem complete_ioTrace (ilen : Nat) : (complete ilen s).ioTrace = s.ioTrace := rfl
@[simp] theorem complete_launch (ilen : Nat) : (complete ilen s).launch = s.launch := rfl
@[simp] theorem complete_ioInput (ilen : Nat) : (complete ilen s).ioInput = s.ioInput := rfl
@[simp] theorem complete_windows (ilen : Nat) : (complete ilen s).windows = s.windows := rfl
@[simp] theorem complete_entryFlags (ilen : Nat) : (complete ilen s).entryFlags = none := rfl
@[simp] theorem complete_draws (ilen : Nat) : (complete ilen s).draws = s.draws := rfl

@[simp] theorem faultFlags_rax : (faultFlags s).rax = s.rax := rfl
@[simp] theorem faultFlags_rcx : (faultFlags s).rcx = s.rcx := rfl
@[simp] theorem faultFlags_rdx : (faultFlags s).rdx = s.rdx := rfl
@[simp] theorem faultFlags_rsi : (faultFlags s).rsi = s.rsi := rfl
@[simp] theorem faultFlags_rdi : (faultFlags s).rdi = s.rdi := rfl
@[simp] theorem faultFlags_rip : (faultFlags s).rip = s.rip := rfl
@[simp] theorem faultFlags_df : (faultFlags s).df = s.df := rfl
@[simp] theorem faultFlags_mem : (faultFlags s).mem = s.mem := rfl
@[simp] theorem faultFlags_ioTrace : (faultFlags s).ioTrace = s.ioTrace := rfl
@[simp] theorem faultFlags_launch : (faultFlags s).launch = s.launch := rfl
@[simp] theorem faultFlags_ioInput : (faultFlags s).ioInput = s.ioInput := rfl
@[simp] theorem faultFlags_windows : (faultFlags s).windows = s.windows := rfl
@[simp] theorem faultFlags_entryFlags : (faultFlags s).entryFlags = s.entryFlags := rfl
@[simp] theorem faultFlags_draws : (faultFlags s).draws = s.draws + 1 := rfl

@[simp] theorem resume_rax (rules : List MemRule) : (resume rules s).rax = s.rax := rfl
@[simp] theorem resume_rcx (rules : List MemRule) : (resume rules s).rcx = s.rcx := rfl
@[simp] theorem resume_rdx (rules : List MemRule) : (resume rules s).rdx = s.rdx := rfl
@[simp] theorem resume_rsi (rules : List MemRule) : (resume rules s).rsi = s.rsi := rfl
@[simp] theorem resume_rdi (rules : List MemRule) : (resume rules s).rdi = s.rdi := rfl
@[simp] theorem resume_rip (rules : List MemRule) : (resume rules s).rip = s.rip := rfl
@[simp] theorem resume_status (rules : List MemRule) : (resume rules s).status = s.status := rfl
@[simp] theorem resume_df (rules : List MemRule) : (resume rules s).df = s.df := rfl
@[simp] theorem resume_mem (rules : List MemRule) : (resume rules s).mem = s.mem := rfl
@[simp] theorem resume_ioTrace (rules : List MemRule) : (resume rules s).ioTrace = s.ioTrace := rfl
@[simp] theorem resume_launch (rules : List MemRule) : (resume rules s).launch = { s.launch with memRules := rules } := rfl
@[simp] theorem resume_ioInput (rules : List MemRule) : (resume rules s).ioInput = s.ioInput := rfl
@[simp] theorem resume_windows (rules : List MemRule) : (resume rules s).windows = s.windows := rfl
@[simp] theorem resume_entryFlags (rules : List MemRule) : (resume rules s).entryFlags = s.entryFlags := rfl
@[simp] theorem resume_draws (rules : List MemRule) : (resume rules s).draws = s.draws := rfl

@[simp] theorem serviced_rip (h : HandlerEffect) : (serviced h s).rip = s.rip := by cases h <;> rfl
@[simp] theorem serviced_launch (h : HandlerEffect) : (serviced h s).launch = s.launch := by cases h <;> rfl
@[simp] theorem serviced_ioInput (h : HandlerEffect) : (serviced h s).ioInput = s.ioInput := by cases h <;> rfl
@[simp] theorem serviced_windows (h : HandlerEffect) : (serviced h s).windows = s.windows.tail := by cases h <;> rfl
@[simp] theorem serviced_entryFlags (h : HandlerEffect) : (serviced h s).entryFlags = none := by cases h <;> rfl
@[simp] theorem serviced_draws (h : HandlerEffect) : (serviced h s).draws = s.draws := by cases h <;> rfl

@[simp] theorem zeroCount_rax (a : AddrSize) : (zeroCount a s).rax = s.rax := by unfold zeroCount; split <;> rfl
@[simp] theorem zeroCount_rdx (a : AddrSize) : (zeroCount a s).rdx = s.rdx := by unfold zeroCount; split <;> rfl
@[simp] theorem zeroCount_rsi (a : AddrSize) : (zeroCount a s).rsi = s.rsi := by unfold zeroCount; split <;> rfl
@[simp] theorem zeroCount_rdi (a : AddrSize) : (zeroCount a s).rdi = s.rdi := by unfold zeroCount; split <;> rfl
@[simp] theorem zeroCount_rip (a : AddrSize) : (zeroCount a s).rip = s.rip := by unfold zeroCount; split <;> rfl
@[simp] theorem zeroCount_status (a : AddrSize) : (zeroCount a s).status = s.status := by unfold zeroCount; split <;> rfl
@[simp] theorem zeroCount_df (a : AddrSize) : (zeroCount a s).df = s.df := by unfold zeroCount; split <;> rfl
@[simp] theorem zeroCount_mem (a : AddrSize) : (zeroCount a s).mem = s.mem := by unfold zeroCount; split <;> rfl
@[simp] theorem zeroCount_ioTrace (a : AddrSize) : (zeroCount a s).ioTrace = s.ioTrace := by unfold zeroCount; split <;> rfl
@[simp] theorem zeroCount_launch (a : AddrSize) : (zeroCount a s).launch = s.launch := by unfold zeroCount; split <;> rfl
@[simp] theorem zeroCount_ioInput (a : AddrSize) : (zeroCount a s).ioInput = s.ioInput := by unfold zeroCount; split <;> rfl
@[simp] theorem zeroCount_windows (a : AddrSize) : (zeroCount a s).windows = s.windows := by unfold zeroCount; split <;> rfl
@[simp] theorem zeroCount_entryFlags (a : AddrSize) : (zeroCount a s).entryFlags = s.entryFlags := by unfold zeroCount; split <;> rfl

@[simp] theorem faultState_rax (c : Bool) : (faultState c s).rax = s.rax := by cases c <;> rfl
@[simp] theorem faultState_rcx (c : Bool) : (faultState c s).rcx = s.rcx := by cases c <;> rfl
@[simp] theorem faultState_rdx (c : Bool) : (faultState c s).rdx = s.rdx := by cases c <;> rfl
@[simp] theorem faultState_rsi (c : Bool) : (faultState c s).rsi = s.rsi := by cases c <;> rfl
@[simp] theorem faultState_rdi (c : Bool) : (faultState c s).rdi = s.rdi := by cases c <;> rfl
@[simp] theorem faultState_rip (c : Bool) : (faultState c s).rip = s.rip := by cases c <;> rfl
@[simp] theorem faultState_df (c : Bool) : (faultState c s).df = s.df := by cases c <;> rfl
@[simp] theorem faultState_mem (c : Bool) : (faultState c s).mem = s.mem := by cases c <;> rfl
@[simp] theorem faultState_ioTrace (c : Bool) : (faultState c s).ioTrace = s.ioTrace := by cases c <;> rfl
@[simp] theorem faultState_launch (c : Bool) : (faultState c s).launch = s.launch := by cases c <;> rfl
@[simp] theorem faultState_ioInput (c : Bool) : (faultState c s).ioInput = s.ioInput := by cases c <;> rfl
@[simp] theorem faultState_windows (c : Bool) : (faultState c s).windows = s.windows := by cases c <;> rfl
@[simp] theorem faultState_entryFlags (c : Bool) : (faultState c s).entryFlags = none := by cases c <;> rfl

end Sys2Proof.Machine
end

