-- ==== Sys2Proof/Laws/Memory.lean ====
section
/-! SUPPORT. Memory: reads after writes, and that every memory operation keeps the canonical form. -/

namespace Sys2Proof.Machine

open Sys2Proof

/-! One byte. -/

@[simp] theorem readByte_nil (a : Nat) : readByte [] a = none := rfl

theorem readByte_writeByte_same (m : Memory) (a : Nat) (b : Byte) : readByte (writeByte m a b) a = some b := by
  induction m with
  | nil => simp [writeByte, readByte]
  | cons c rest ih =>
    obtain ⟨k, v⟩ := c
    unfold writeByte
    split
    · simp [readByte]
    · split
      · simp [readByte]
      · simp only [readByte]
        rw [if_neg (by omega)]
        exact ih

theorem readByte_writeByte_other (m : Memory) (a x : Nat) (b : Byte) (h : x ≠ a) :
    readByte (writeByte m a b) x = readByte m x := by
  induction m with
  | nil => simp [writeByte, readByte]; omega
  | cons c rest ih =>
    obtain ⟨k, v⟩ := c
    unfold writeByte
    split
    · simp only [readByte]
      rw [if_neg (by omega)]
    · split
      · next hk =>
        simp only [readByte]
        rw [if_neg (by omega), if_neg (by omega)]
      · simp only [readByte]
        split
        · rfl
        · exact ih

theorem readByte_writeByte (m : Memory) (a x : Nat) (b : Byte) :
    readByte (writeByte m a b) x = if x = a then some b else readByte m x := by
  split
  · next h => rw [h]; exact readByte_writeByte_same m a b
  · next h => exact readByte_writeByte_other m a x b h

/-! The canonical form. -/

theorem wf_cons (k : Nat) (v : Byte) (m : Memory) :
    Memory.wf ((k, v) :: m) = true ↔ k < 2 ^ 64 ∧ (∀ c ∈ m, k < c.1) ∧ Memory.wf m = true := by
  simp only [Memory.wf, Bool.and_eq_true, decide_eq_true_eq, List.all_eq_true]
  tauto

theorem mem_writeByte (m : Memory) (a : Nat) (b : Byte) (c : Host.Cell) (h : c ∈ writeByte m a b) :
    c = (a, b) ∨ c ∈ m := by
  induction m with
  | nil => exact .inl (by simpa [writeByte] using h)
  | cons d rest ih =>
    obtain ⟨k, v⟩ := d
    unfold writeByte at h
    split at h
    · simpa using h
    · split at h
      · rcases List.mem_cons.mp h with h | h
        · exact .inl h
        · exact .inr (List.mem_cons_of_mem _ h)
      · rcases List.mem_cons.mp h with h | h
        · exact .inr (h ▸ List.mem_cons_self)
        · rcases ih h with h | h
          · exact .inl h
          · exact .inr (List.mem_cons_of_mem _ h)

theorem wf_writeByte (m : Memory) (a : Nat) (b : Byte) (ha : a < 2 ^ 64) (h : Memory.wf m = true) :
    Memory.wf (writeByte m a b) = true := by
  induction m with
  | nil => simpa [writeByte, Memory.wf] using ha
  | cons c rest ih =>
    obtain ⟨k, v⟩ := c
    obtain ⟨hk, hrest, hwf⟩ := (wf_cons k v rest).mp h
    unfold writeByte
    split
    · next hlt =>
      refine (wf_cons a b _).mpr ⟨ha, fun c hc => ?_, h⟩
      rcases List.mem_cons.mp hc with hc | hc
      · rw [hc]; exact hlt
      · exact Nat.lt_trans hlt (hrest c hc)
    · split
      · next heq => exact (wf_cons a b rest).mpr ⟨ha, fun c hc => heq ▸ hrest c hc, hwf⟩
      · next hge hne =>
        refine (wf_cons k v _).mpr ⟨hk, fun c hc => ?_, ih hwf⟩
        rcases mem_writeByte rest a b c hc with hc | hc
        · rw [hc]; exact Nat.lt_of_le_of_ne (Nat.le_of_not_lt hge) (Ne.symm hne)
        · exact hrest c hc

theorem wf_scatter (as : List Nat) (has : ∀ a ∈ as, a < 2 ^ 64) :
    ∀ (m : Memory) (v : Word), Memory.wf m = true → Memory.wf (scatter m as v) = true := by
  induction as with
  | nil => intro m v h; exact h
  | cons a as ih =>
    intro m v h
    exact ih (fun x hx => has x (List.mem_cons_of_mem a hx)) _ _ (wf_writeByte m a _ (has a List.mem_cons_self) h)

theorem wf_writeCells (cs : List Host.Cell) :
    ∀ m : Memory, Memory.wf m = true → Memory.wf (writeCells m cs) = true := by
  induction cs with
  | nil => intro m h; exact h
  | cons c cs ih =>
    intro m h
    exact ih _ (wf_writeByte m _ _ (Nat.mod_lt _ (by norm_num)) h)

/-! An element: the addresses of its bytes. -/

@[simp] theorem byteAddrs_length (l : Launch) (a : Word) (n : Nat) : (byteAddrs l a n).length = n := by
  simp [byteAddrs]

theorem mem_byteAddrs (l : Launch) (a : Word) (n x : Nat) :
    x ∈ byteAddrs l a n ↔ ∃ k, k < n ∧ (byteAddr l a k).toNat = x := by
  simp [byteAddrs]

theorem byteAddrs_lt (l : Launch) (a : Word) (n x : Nat) (h : x ∈ byteAddrs l a n) : x < 2 ^ 64 := by
  obtain ⟨k, -, rfl⟩ := (mem_byteAddrs l a n x).mp h
  exact (byteAddr l a k).isLt

theorem linTrunc_toNat (m : Mode) (a : Word) :
    (linTrunc m a).toNat = match m with
      | .mode64 => a.toNat
      | .modeCL _ _ => a.toNat % 2 ^ 32 := by
  cases m <;> simp [linTrunc]
  omega

/-- The bytes of an element or an instruction have different addresses. -/
theorem byteAddr_inj (l : Launch) (a : Word) (j k : Nat) (hj : j < 2 ^ 32) (hk : k < 2 ^ 32)
    (h : (byteAddr l a j).toNat = (byteAddr l a k).toNat) : j = k := by
  unfold byteAddr at h
  rw [linTrunc_toNat, linTrunc_toNat] at h
  cases hm : l.mode with
  | mode64 => simp only [hm, BitVec.toNat_add, BitVec.toNat_ofNat] at h; omega
  | modeCL d o => simp only [hm, BitVec.toNat_add, BitVec.toNat_ofNat] at h; omega

theorem byteAddrs_nodup (l : Launch) (a : Word) (n : Nat) (hn : n ≤ 2 ^ 32) : (byteAddrs l a n).Nodup := by
  refine List.Nodup.map_on (fun j hj k hk h => ?_) List.nodup_range
  rw [List.mem_range] at hj hk
  exact byteAddr_inj l a j k (by omega) (by omega) h

theorem opSize_bytes_le (w : OpSize) : w.bytes ≤ 8 := by cases w <;> decide

theorem byteAddrs_getElem (l : Launch) (a : Word) (n k : Nat) (h : k < (byteAddrs l a n).length) :
    (byteAddrs l a n)[k] = (byteAddr l a k).toNat := by
  simp [byteAddrs]

/-! An element: reads after writes. -/

/-- A store leaves every other byte alone. -/
theorem readByte_scatter_other (as : List Nat) :
    ∀ (m : Memory) (v : Word) (x : Nat), x ∉ as → readByte (scatter m as v) x = readByte m x := by
  induction as with
  | nil => intro m v x _; rfl
  | cons a as ih =>
    intro m v x hx
    rw [List.mem_cons, not_or] at hx
    show readByte (scatter (writeByte m a (v.setWidth 8)) as (v >>> 8)) x = _
    rw [ih _ _ _ hx.2, readByte_writeByte_other _ _ _ _ hx.1]

/-- A store puts byte `v[8k+7:8k]` at the k-th address (R30). -/
theorem readByte_scatter_at (as : List Nat) (hd : as.Nodup) :
    ∀ (m : Memory) (v : Word) (k : Nat) (hk : k < as.length),
      readByte (scatter m as v) as[k] = some (v.extractLsb' (8 * k) 8) := by
  induction as with
  | nil => intro m v k hk; exact absurd hk (Nat.not_lt_zero k)
  | cons a as ih =>
    intro m v k hk
    obtain ⟨ha, hd⟩ := List.nodup_cons.mp hd
    show readByte (scatter (writeByte m a (v.setWidth 8)) as (v >>> 8)) _ = _
    cases k with
    | zero =>
      rw [List.getElem_cons_zero, readByte_scatter_other _ _ _ _ ha, readByte_writeByte_same]
      congr 1
    | succ k =>
      rw [List.getElem_cons_succ, ih hd _ _ k (by simpa using hk)]
      congr 1
      apply BitVec.eq_of_getLsbD_eq
      intro i hi
      simp only [BitVec.getLsbD_extractLsb', BitVec.getLsbD_ushiftRight]
      congr 1
      congr 1
      ring

/-- What a gathered element is made of: its bytes in address order, the least significant first (R30). -/
theorem gather_cons (m : Memory) (a : Nat) (as : List Nat) (v : Word) (h : gather m (a :: as) = .ok v) :
    ∃ b u, readByte m a = some b ∧ gather m as = .ok u ∧ v = u.extractLsb' 0 56 ++ b := by
  rw [gather] at h
  split at h
  · cases h
  · next b hb =>
    split at h
    · cases h
    · next u hu => exact ⟨b, u, hb, hu, (Except.ok.inj h).symm⟩

/-- The element read has the byte at the k-th address as its bits `8k+7:8k`, and no bit above its last byte (R30). -/
theorem gather_bytes (m : Memory) (as : List Nat) :
    ∀ v : Word, as.length ≤ 8 → gather m as = .ok v →
      (∀ (k : Nat) (hk : k < as.length), readByte m as[k] = some (v.extractLsb' (8 * k) 8))
        ∧ v.toNat < 2 ^ (8 * as.length) := by
  induction as with
  | nil => intro v _ h; cases h; simp
  | cons a as ih =>
    intro v hl h
    obtain ⟨b, u, hb, hu, rfl⟩ := gather_cons m a as v h
    obtain ⟨hby, hlt⟩ := ih u (by simp at hl; omega) hu
    simp only [List.length_cons] at hl
    constructor
    · intro k hk
      cases k with
      | zero =>
        rw [List.getElem_cons_zero, hb]
        congr 1
        apply BitVec.eq_of_getLsbD_eq
        intro i hi
        simp only [BitVec.getLsbD_extractLsb', BitVec.getLsbD_append]
        simp [hi]
      | succ k =>
        rw [List.getElem_cons_succ, hby k (by simpa using hk)]
        congr 1
        apply BitVec.eq_of_getLsbD_eq
        intro i hi
        have : k < as.length := by simpa using hk
        simp only [BitVec.getLsbD_extractLsb', BitVec.getLsbD_append]
        rw [if_neg (by omega)]
        have h1 : 8 * (k + 1) + i - 8 = 8 * k + i := by omega
        have h2 : 8 * k + i < 56 := by omega
        simp [h1, h2]
    · rw [BitVec.toNat_append, BitVec.extractLsb'_toNat]
      have hbl := b.isLt
      rw [Nat.shiftRight_zero, Nat.shiftLeft_eq, ← Nat.shiftLeft_eq, ← Nat.shiftLeft_add_eq_or_of_lt hbl, Nat.shiftLeft_eq]
      have h3 : u.toNat % 2 ^ 56 ≤ u.toNat := Nat.mod_le _ _
      have h4 : 2 ^ (8 * (as.length + 1)) = 2 ^ (8 * as.length) * 256 := by rw [Nat.mul_add, Nat.pow_add]
      rw [List.length_cons, h4]
      have : u.toNat + 1 ≤ 2 ^ (8 * as.length) := hlt
      nlinarith

/-- Reading succeeds where every byte has been written. -/
theorem gather_ok (m : Memory) (as : List Nat) (h : ∀ a ∈ as, readByte m a ≠ none) : ∃ v, gather m as = .ok v := by
  induction as with
  | nil => exact ⟨_, rfl⟩
  | cons a as ih =>
    obtain ⟨u, hu⟩ := ih fun x hx => h x (List.mem_cons_of_mem a hx)
    obtain ⟨b, hb⟩ := Option.ne_none_iff_exists'.mp (h a List.mem_cons_self)
    exact ⟨u.extractLsb' 0 56 ++ b, by simp [gather, hb, hu]⟩

/-- Reading looks at the bytes of its addresses alone. -/
theorem gather_congr (m m' : Memory) (as : List Nat) (h : ∀ a ∈ as, readByte m a = readByte m' a) :
    gather m as = gather m' as := by
  induction as with
  | nil => rfl
  | cons a as ih =>
    rw [gather, gather, h a List.mem_cons_self, ih fun x hx => h x (List.mem_cons_of_mem a hx)]

end Sys2Proof.Machine
end

