-- ==== Sys2Proof/Laws/Views.lean ====
section
/-! SUPPORT. Register views: reading a view after a write, and the numbers the count and index registers hold. -/

namespace Sys2Proof.Machine

open Sys2Proof

theorem append_toNat_mod {a b : Nat} (x : BitVec a) (y : BitVec b) : (x ++ y).toNat % 2 ^ b = y.toNat := by
  rw [BitVec.toNat_append, ← Nat.shiftLeft_add_eq_or_of_lt y.isLt, Nat.shiftLeft_eq, Nat.add_comm,
    Nat.add_mul_mod_self_right, Nat.mod_eq_of_lt y.isLt]

theorem append_toNat_div {a b : Nat} (x : BitVec a) (y : BitVec b) : (x ++ y).toNat / 2 ^ b = x.toNat := by
  rw [BitVec.toNat_append, ← Nat.shiftLeft_add_eq_or_of_lt y.isLt, Nat.shiftLeft_eq, Nat.mul_comm,
    Nat.mul_add_div (by positivity), Nat.div_eq_of_lt y.isLt, Nat.add_zero]

/-- The number an address-size view holds (R11). -/
theorem addrView_get_toNat (a : AddrSize) (r : Word) : ((addrView a).get r).toNat = r.toNat % 2 ^ a.bits := by
  cases a <;> simp [addrView, View.get, AddrSize.bits] <;> omega

theorem addrView_put_mod (m : Mode) (a : AddrSize) (old v : Word) :
    ((addrView a).put m old v).toNat % 2 ^ a.bits = v.toNat % 2 ^ a.bits := by
  cases a with
  | a16 => exact (append_toNat_mod (old.extractLsb' 16 48) (v.setWidth 16)).trans (BitVec.toNat_setWidth _ _)
  | a32 =>
    cases m with
    | mode64 => exact (append_toNat_mod 0#32 (v.setWidth 32)).trans (BitVec.toNat_setWidth _ _)
    | modeCL d o => exact (append_toNat_mod (old.extractLsb' 32 32) (v.setWidth 32)).trans (BitVec.toNat_setWidth _ _)
  | a64 => rfl

/-- An implicit write leaves its value in the view it writes, whatever `A32Upper` is (R86). -/
theorem implicitValue_mod (s : State) (a : AddrSize) (old v : Word) :
    (implicitValue s a old v).toNat % 2 ^ a.bits = v.toNat % 2 ^ a.bits := by
  unfold implicitValue
  split
  · split
    · exact (append_toNat_mod 0#32 (v.setWidth 32)).trans (BitVec.toNat_setWidth _ _)
    · exact (append_toNat_mod (old.extractLsb' 32 32) (v.setWidth 32)).trans (BitVec.toNat_setWidth _ _)
    · exact (append_toNat_mod (Config.upperHalf s.draws) (v.setWidth 32)).trans (BitVec.toNat_setWidth _ _)
  · exact addrView_put_mod _ _ _ _

theorem implicitValue_get (s : State) (a : AddrSize) (old v : Word) :
    ((addrView a).get (implicitValue s a old v)).toNat = v.toNat % 2 ^ a.bits := by
  rw [addrView_get_toNat, implicitValue_mod]

theorem countReg_toNat (a : AddrSize) (s : State) : (countReg a s).toNat = s.rcx.toNat % 2 ^ a.bits :=
  addrView_get_toNat a s.rcx

theorem srcIdx_toNat (a : AddrSize) (s : State) : (srcIdx a s).toNat = s.rsi.toNat % 2 ^ a.bits :=
  addrView_get_toNat a s.rsi

theorem dstIdx_toNat (a : AddrSize) (s : State) : (dstIdx a s).toNat = s.rdi.toNat % 2 ^ a.bits :=
  addrView_get_toNat a s.rdi

theorem addrSize_bits_le (a : AddrSize) : 2 ^ a.bits ≤ 2 ^ 64 := by cases a <;> decide

theorem addrView_get_of_lt (a : AddrSize) (v : Word) (h : v.toNat < 2 ^ a.bits) : (addrView a).get v = v :=
  BitVec.eq_of_toNat_eq (by rw [addrView_get_toNat, Nat.mod_eq_of_lt h])

/-- The view a register write reads back (R86). -/
theorem countReg_setCount (a : AddrSize) (v : Word) (s : State) : countReg a (setCount a v s) = (addrView a).get v :=
  BitVec.eq_of_toNat_eq (by rw [addrView_get_toNat]; exact implicitValue_get s a s.rcx v)

theorem srcIdx_setSrc (a : AddrSize) (v : Word) (s : State) : srcIdx a (setSrc a v s) = (addrView a).get v :=
  BitVec.eq_of_toNat_eq (by rw [addrView_get_toNat]; exact implicitValue_get s a s.rsi v)

theorem dstIdx_setDst (a : AddrSize) (v : Word) (s : State) : dstIdx a (setDst a v s) = (addrView a).get v :=
  BitVec.eq_of_toNat_eq (by rw [addrView_get_toNat]; exact implicitValue_get s a s.rdi v)

/-- `idx + delta` modulo `2^A` (R39, R85). -/
theorem moved_toNat_mod (a : AddrSize) (df : Bool) (w : OpSize) (idx : Word) (h : idx.toNat < 2 ^ a.bits) :
    (moved df w idx).toNat % 2 ^ a.bits = offsetAfter a df w 1 idx.toNat := by
  cases df <;> cases a <;> cases w <;> simp [moved, offsetAfter, AddrSize.bits, OpSize.bytes] at h ⊢ <;> bv_omega

theorem dstIdx_advDst (a : AddrSize) (w : OpSize) (s : State) :
    (dstIdx a (advDst a w s)).toNat = offsetAfter a s.df w 1 (dstIdx a s).toNat := by
  rw [advDst, dstIdx_setDst, addrView_get_toNat, moved_toNat_mod]
  rw [dstIdx_toNat]
  exact Nat.mod_lt _ (by positivity)

theorem srcIdx_advSrc (a : AddrSize) (w : OpSize) (s : State) :
    (srcIdx a (advSrc a w s)).toNat = offsetAfter a s.df w 1 (srcIdx a s).toNat := by
  rw [advSrc, srcIdx_setSrc, addrView_get_toNat, moved_toNat_mod]
  rw [srcIdx_toNat]
  exact Nat.mod_lt _ (by positivity)

/-- The decrement does not wrap where the count is not zero (R76). -/
theorem countReg_decrement (a : AddrSize) (s : State) (h : countReg a s ≠ 0#64) :
    (countReg a (setCount a (countReg a s - 1#64) s)).toNat = (countReg a s).toNat - 1 := by
  rw [countReg_setCount, addrView_get_toNat]
  have h1 : (countReg a s).toNat ≠ 0 := fun h0 => h (BitVec.eq_of_toNat_eq h0)
  have h2 : (countReg a s).toNat < 2 ^ a.bits := by rw [countReg_toNat]; exact Nat.mod_lt _ (by positivity)
  have h3 := addrSize_bits_le a
  have h4 : (countReg a s - 1#64).toNat = (countReg a s).toNat - 1 := by bv_omega
  rw [h4, Nat.mod_eq_of_lt (by omega)]

/-- The bits an implicit write does not write (R86). -/
theorem implicitValue_otherBits (s : State) (a : AddrSize) (old v : Word) :
    otherBits s.launch a old (implicitValue s a old v) := by
  have hd : ∀ {m n : Nat} (x : BitVec m) (y : BitVec n), (x ++ y).toNat / 2 ^ n = x.toNat := append_toNat_div
  cases a with
  | a16 =>
    show (old.extractLsb' 16 48 ++ v.setWidth 16).toNat / 2 ^ 16 = old.toNat / 2 ^ 16
    rw [hd, BitVec.extractLsb'_toNat, Nat.shiftRight_eq_div_pow]
    omega
  | a64 =>
    show v.toNat / 2 ^ 64 = old.toNat / 2 ^ 64
    omega
  | a32 =>
    have h32 : (old.extractLsb' 32 32 ++ v.setWidth 32).toNat / 2 ^ 32 = old.toNat / 2 ^ 32 := by
      rw [hd, BitVec.extractLsb'_toNat, Nat.shiftRight_eq_div_pow]
      omega
    unfold implicitValue otherBits
    cases hm : s.launch.mode with
    | modeCL d o => exact h32
    | mode64 =>
      cases hu : s.launch.a32Upper with
      | zero => exact hd 0#32 (v.setWidth 32)
      | keep => exact h32
      | any => trivial

end Sys2Proof.Machine
end

