-- ==== Sys2Proof/Laws/Rep.lean ====
section
/-! SUPPORT. What the shared operations of a meaning can answer: the operands, a store, an exception, an iteration, the
repeat step. -/

namespace Sys2Proof.Machine

open Sys2Proof

/-! Combinators. -/

@[simp] theorem andThen_next (s : State) (f : State → Result) : andThen (.next s) f = f s := rfl

theorem andThen_next_inv {r : Result} {f : State → Result} {t : State} (h : andThen r f = .next t) :
    ∃ s, r = .next s ∧ f s = .next t := by
  cases r with
  | next s => exact ⟨s, rfl, h⟩
  | fault e => cases h
  | refused e => cases h

theorem andThen_fault_inv {r : Result} {f : State → Result} {e : Fault} (h : andThen r f = .fault e) :
    r = .fault e ∨ ∃ s, r = .next s ∧ f s = .fault e := by
  cases r with
  | next s => exact .inr ⟨s, rfl, h⟩
  | fault e => exact .inl h
  | refused e => cases h

theorem withElem_next_inv {r : Except Nat Word} {f : Word → Result} {t : State} (h : withElem r f = .next t) :
    ∃ v, r = .ok v ∧ f v = .next t := by
  cases r with
  | ok v => exact ⟨v, rfl, h⟩
  | error a => cases h

theorem takeException_ne_next (c : Bool) (e : MemEvent) (x : Option Access) (s t : State) :
    takeException c e x s ≠ .next t := by
  cases e <;> simp [takeException]

theorem withOperand_next_inv {c : Bool} {o : Operand} {s t : State} {f : Word → Result}
    (h : withOperand c o s f = .next t) : ∃ a, o = .at' a ∧ f a = .next t := by
  cases o with
  | at' a => exact ⟨a, rfl, h⟩
  | raises e x => exact absurd h (takeException_ne_next c e (some x) s t)
  | refused r => cases h

theorem withOperands_next_inv {c : Bool} {o o' : Operand} {s t : State} {f : Word → Word → Result}
    (h : withOperands c o o' s f = .next t) : ∃ a b, o = .at' a ∧ o' = .at' b ∧ f a b = .next t := by
  cases o with
  | at' a =>
    cases o' with
    | at' b => exact ⟨a, b, rfl, rfl, h⟩
    | raises e x => exact absurd h (takeException_ne_next c e (some x) s t)
    | refused r => cases h
  | raises e x =>
    cases o' with
    | at' b => exact absurd h (takeException_ne_next c e (some x) s t)
    | raises e' x' =>
      simp only [withOperands] at h
      split at h
      · exact absurd h (takeException_ne_next c e (some x) s t)
      · exact absurd h (takeException_ne_next c e' (some x') s t)
    | refused r => cases h
  | refused r => cases h

theorem storeElem_next_inv {w : OpSize} {ilen : Nat} {a v : Word} {s t : State}
    (h : storeElem w ilen a v s = .next t) : hitsCode w ilen a s = false ∧ t = writeElem w a v s := by
  unfold storeElem at h
  split at h
  · cases h
  · next hc => exact ⟨by simpa using hc, by cases h; rfl⟩

theorem storeElem_of_misses {w : OpSize} {ilen : Nat} {a v : Word} {s : State} (h : hitsCode w ilen a s = false) :
    storeElem w ilen a v s = .next (writeElem w a v s) := by
  simp [storeElem, h]

/-! Operands. -/

theorem address_of_ok {l : Launch} {kind : AccessKind} {seg : SegReg} {w : OpSize} {a : AddrSize} {off : Word}
    (h : accessOk l kind seg w a off) : address l kind seg w a off = .at' (lin l seg off) := by
  simp [address, h.1, h.2.1]

theorem operand_of_ok {l : Launch} {kind : AccessKind} {seg : SegReg} {w : OpSize} {a : AddrSize} {off : Word}
    (h : accessOk l kind seg w a off) : operand l kind seg w a off = .at' (lin l seg off) := by
  simp [operand, address_of_ok h, h.2.2]

theorem address_at_inv {l : Launch} {kind : AccessKind} {seg : SegReg} {w : OpSize} {a : AddrSize} {off x : Word}
    (h : address l kind seg w a off = .at' x) :
    x = lin l seg off ∧ straddles w a off = false ∧ allCanonical l x w.bytes = true := by
  unfold address at h
  split at h
  · cases h
  · next hs =>
    split at h
    · next hc => cases h; exact ⟨rfl, by simpa using hs, hc⟩
    · cases h

theorem operand_at_inv {l : Launch} {kind : AccessKind} {seg : SegReg} {w : OpSize} {a : AddrSize} {off x : Word}
    (h : operand l kind seg w a off = .at' x) : x = lin l seg off ∧ accessOk l kind seg w a off := by
  unfold operand at h
  split at h
  · next y hy =>
    obtain ⟨rfl, hs, hc⟩ := address_at_inv hy
    split at h
    · cases h
    · next hm => cases h; exact ⟨rfl, hs, hc, hm⟩
  · next hne => exact absurd h (hne x)

/-! Exceptions. -/

/-- Taking an exception ends the run with the state of R161. -/
theorem takeException_state (c : Bool) (e : MemEvent) (x : Option Access) (s : State) :
    ∃ f, takeException c e x s = .fault f ∧ f.state = faultState c s := by
  cases e <;> exact ⟨_, rfl, rfl⟩

/-- The status flags a fault shows: unchanged, or one of the two images of R83. -/
theorem faultState_status (c : Bool) (s : State) :
    (faultState c s).status = s.status ∨ (c = true ∧ (faultState c s).status = s.entryFlags.getD s.status) := by
  cases c with
  | false => exact .inl rfl
  | true =>
    cases h : Config.faultFlagsImage s.draws with
    | beforeInstruction => exact .inr ⟨rfl, by simp [faultState, faultFlags, h]⟩
    | afterLastIteration => exact .inl (by simp [faultState, faultFlags, h])

/-! The end of an iteration. -/

/-- The end of an iteration writes the count, and RIP where the instruction completes; nothing else of the machine. -/
theorem endIteration_eq (kind : RepKind) (a : AddrSize) (ilen : Nat) (s : State) :
    let t := setCount a (countReg a s - 1#64) s
    endIteration kind a ilen s =
      if countReg a t = 0#64 ∨ stopsOn kind s.status.zf = true then complete ilen t else t := by
  simp only [endIteration, setCount_status]
  by_cases h : countReg a (setCount a (countReg a s - 1#64) s) = 0#64
  · simp [h]
  · by_cases h' : stopsOn kind s.status.zf = true <;> simp [h, h']

section
variable (kind : RepKind) (a : AddrSize) (ilen : Nat) (s : State)

@[simp] theorem endIteration_rax : (endIteration kind a ilen s).rax = s.rax := by
  rw [endIteration_eq]; split <;> rfl
@[simp] theorem endIteration_rcx :
    (endIteration kind a ilen s).rcx = (setCount a (countReg a s - 1#64) s).rcx := by rw [endIteration_eq]; split <;> rfl
@[simp] theorem endIteration_rdx : (endIteration kind a ilen s).rdx = s.rdx := by
  rw [endIteration_eq]; split <;> rfl
@[simp] theorem endIteration_rsi : (endIteration kind a ilen s).rsi = s.rsi := by
  rw [endIteration_eq]; split <;> rfl
@[simp] theorem endIteration_rdi : (endIteration kind a ilen s).rdi = s.rdi := by
  rw [endIteration_eq]; split <;> rfl
@[simp] theorem endIteration_status : (endIteration kind a ilen s).status = s.status := by
  rw [endIteration_eq]; split <;> rfl
@[simp] theorem endIteration_df : (endIteration kind a ilen s).df = s.df := by
  rw [endIteration_eq]; split <;> rfl
@[simp] theorem endIteration_mem : (endIteration kind a ilen s).mem = s.mem := by
  rw [endIteration_eq]; split <;> rfl
@[simp] theorem endIteration_ioTrace : (endIteration kind a ilen s).ioTrace = s.ioTrace := by
  rw [endIteration_eq]; split <;> rfl
@[simp] theorem endIteration_launch : (endIteration kind a ilen s).launch = s.launch := by
  rw [endIteration_eq]; split <;> rfl
@[simp] theorem endIteration_ioInput : (endIteration kind a ilen s).ioInput = s.ioInput := by
  rw [endIteration_eq]; split <;> rfl
@[simp] theorem endIteration_windows : (endIteration kind a ilen s).windows = s.windows := by
  rw [endIteration_eq]; split <;> rfl

theorem endIteration_countReg (h : countReg a s ≠ 0#64) :
    (countReg a (endIteration kind a ilen s)).toNat = (countReg a s).toNat - 1 := by
  rw [← countReg_decrement a s h]
  simp [countReg]

theorem endIteration_rip (h : countReg a s ≠ 0#64) :
    (endIteration kind a ilen s).rip =
      if (countReg a s).toNat = 1 ∨ stopsOn kind s.status.zf = true then nextRip s.launch.mode s.rip ilen
      else s.rip := by
  have h1 : (countReg a s).toNat ≠ 0 := fun h0 => h (BitVec.eq_of_toNat_eq h0)
  have h2 : countReg a (setCount a (countReg a s - 1#64) s) = 0#64 ↔ (countReg a s).toNat = 1 := by
    have h3 := countReg_decrement a s h
    constructor
    · intro h4; rw [h4] at h3; simp at h3; omega
    · intro h4; exact BitVec.eq_of_toNat_eq (by rw [h3, h4]; rfl)
  rw [endIteration_eq]
  simp only [h2]
  split <;> rfl

end

/-! The repeat step. -/

theorem repStep_zero {kind : RepKind} {w : OpSize} {a : AddrSize} {ilen : Nat} {el : State → Result} {s : State}
    (he : encodable s.launch.mode w a = true) (h0 : countReg a s = 0#64) :
    repStep kind w a ilen el s = .next (complete ilen (zeroCount a s)) := by
  simp [repStep, he, h0]

theorem repStep_interrupt {kind : RepKind} {w : OpSize} {a : AddrSize} {ilen : Nat} {el : State → Result} {s : State}
    {h : HandlerEffect} {rest : List (Option HandlerEffect)}
    (he : encodable s.launch.mode w a = true) (h0 : countReg a s ≠ 0#64) (hw : s.windows = some h :: rest) :
    repStep kind w a ilen el s = .next (serviced h s) := by
  simp [repStep, he, h0, hw]

theorem repStep_iteration {kind : RepKind} {w : OpSize} {a : AddrSize} {ilen : Nat} {el : State → Result} {s : State}
    (h : entered w a s) :
    repStep kind w a ilen el s = andThen (el (enter s)) fun t => .next (endIteration kind a ilen t) := by
  obtain ⟨he, h0, hq⟩ := h
  unfold repStep
  rw [if_pos he, if_neg h0]
  split
  · next x rest hw => simp [quiet, hw] at hq
  · rfl

/-- Everything the repeat step can answer that is a next state: completion with no iteration, an interrupt, or one
iteration. -/
theorem repStep_next_inv {kind : RepKind} {w : OpSize} {a : AddrSize} {ilen : Nat} {el : State → Result} {s t : State}
    (h : repStep kind w a ilen el s = .next t) :
    encodable s.launch.mode w a = true ∧
      ((countReg a s = 0#64 ∧ t = complete ilen (zeroCount a s))
        ∨ (countReg a s ≠ 0#64 ∧ ∃ x rest, s.windows = some x :: rest ∧ t = serviced x s)
        ∨ (entered w a s ∧ ∃ u, el (enter s) = .next u ∧ t = endIteration kind a ilen u)) := by
  unfold repStep at h
  split at h
  · next he =>
    refine ⟨he, ?_⟩
    split at h
    · next h0 => cases h; exact .inl ⟨h0, rfl⟩
    · next h0 =>
      split at h
      · next x rest hw => cases h; exact .inr (.inl ⟨h0, x, rest, hw, rfl⟩)
      · next hw =>
        obtain ⟨u, hu, ht⟩ := andThen_next_inv h
        refine .inr (.inr ⟨⟨he, h0, ?_⟩, u, hu, by cases ht; rfl⟩)
        unfold quiet
        split
        · next x rest hx => exact absurd hx (hw x rest)
        · rfl
  · cases h

end Sys2Proof.Machine
end

