-- ==== Sys2Proof/Laws/Elements.lean ====
section
/-! SUPPORT. For each element operation, what it answers where nothing stops it, and everything a next state of it can
be; and one equation for all meanings. -/

namespace Sys2Proof.Machine

open Sys2Proof

/-! INS (R87). -/

theorem elementIns_of_ok {w : OpSize} {a : AddrSize} {ilen : Nat} {s : State} (hp : ioPermitted w s = true)
    (hd : accessOk s.launch .write .es w a (dstIdx a s)) (hc : hitsCode w ilen (dstAddr a s) s = false) :
    elementIns w a ilen s =
      .next (advDst a w (writeElem w (dstAddr a s) ((portValue w s).setWidth 64) (portInput w s))) := by
  have hm : memFault s.launch .write (dstAddr a s) w.bytes = none := hd.2.2
  have hs : storeElem w ilen (dstAddr a s) ((portValue w s).setWidth 64) (portInput w s) =
      .next (writeElem w (dstAddr a s) ((portValue w s).setWidth 64) (portInput w s)) := storeElem_of_misses hc
  unfold elementIns
  rw [if_pos hp, address_of_ok hd]
  show (match memFault s.launch .write (dstAddr a s) w.bytes with
    | some e => _
    | none => _) = _
  rw [hm]
  show andThen (storeElem w ilen (dstAddr a s) _ (portInput w s)) _ = _
  rw [hs, andThen_next]

theorem elementIns_next_inv {w : OpSize} {a : AddrSize} {ilen : Nat} {s u : State}
    (h : elementIns w a ilen s = .next u) :
    ioPermitted w s = true ∧ accessOk s.launch .write .es w a (dstIdx a s)
      ∧ hitsCode w ilen (dstAddr a s) s = false
      ∧ u = advDst a w (writeElem w (dstAddr a s) ((portValue w s).setWidth 64) (portInput w s)) := by
  unfold elementIns at h
  split at h
  · next hp =>
    obtain ⟨d, hd, h⟩ := withOperand_next_inv h
    obtain ⟨rfl, hs, hc⟩ := address_at_inv hd
    split at h
    · exact absurd h (takeException_ne_next _ _ _ _ _)
    · next hm =>
      obtain ⟨t, ht, h⟩ := andThen_next_inv h
      obtain ⟨hh, rfl⟩ := storeElem_next_inv ht
      cases h
      exact ⟨hp, ⟨hs, hc, hm⟩, hh, rfl⟩
  · exact absurd h (takeException_ne_next _ _ _ _ _)

/-! MOVS (R88). -/

theorem elementMovs_of_ok {w : OpSize} {a : AddrSize} {seg : SegReg} {ilen : Nat} {s : State} {v : Word}
    (hs : accessOk s.launch .read seg w a (srcIdx a s)) (hd : accessOk s.launch .write .es w a (dstIdx a s))
    (hv : readElem w (srcAddr a seg s) s = .ok v) (hc : hitsCode w ilen (dstAddr a s) s = false) :
    elementMovs w a seg ilen s = .next (advDst a w (advSrc a w (writeElem w (dstAddr a s) v s))) := by
  unfold elementMovs
  rw [operand_of_ok hs, operand_of_ok hd]
  show withElem (readElem w (srcAddr a seg s) s) _ = _
  rw [hv]
  show andThen (storeElem w ilen (dstAddr a s) v s) _ = _
  rw [storeElem_of_misses hc, andThen_next]

theorem elementMovs_next_inv {w : OpSize} {a : AddrSize} {seg : SegReg} {ilen : Nat} {s u : State}
    (h : elementMovs w a seg ilen s = .next u) :
    accessOk s.launch .read seg w a (srcIdx a s) ∧ accessOk s.launch .write .es w a (dstIdx a s)
      ∧ hitsCode w ilen (dstAddr a s) s = false
      ∧ ∃ v, readElem w (srcAddr a seg s) s = .ok v
        ∧ u = advDst a w (advSrc a w (writeElem w (dstAddr a s) v s)) := by
  obtain ⟨x, y, hx, hy, h⟩ := withOperands_next_inv h
  obtain ⟨rfl, hs⟩ := operand_at_inv hx
  obtain ⟨rfl, hd⟩ := operand_at_inv hy
  obtain ⟨v, hv, h⟩ := withElem_next_inv h
  obtain ⟨t, ht, h⟩ := andThen_next_inv h
  obtain ⟨hh, rfl⟩ := storeElem_next_inv ht
  cases h
  exact ⟨hs, hd, hh, v, hv, rfl⟩

/-! OUTS (R89). -/

theorem elementOuts_of_ok {w : OpSize} {a : AddrSize} {seg : SegReg} {s : State} {v : Word}
    (hp : ioPermitted w s = true) (hs : accessOk s.launch .read seg w a (srcIdx a s))
    (hv : readElem w (srcAddr a seg s) s = .ok v) :
    elementOuts w a seg s = .next (advSrc a w (portOutput w v s)) := by
  unfold elementOuts
  rw [if_pos hp, operand_of_ok hs]
  show withElem (readElem w (srcAddr a seg s) s) _ = _
  rw [hv]
  rfl

theorem elementOuts_next_inv {w : OpSize} {a : AddrSize} {seg : SegReg} {s u : State}
    (h : elementOuts w a seg s = .next u) :
    ioPermitted w s = true ∧ accessOk s.launch .read seg w a (srcIdx a s)
      ∧ ∃ v, readElem w (srcAddr a seg s) s = .ok v ∧ u = advSrc a w (portOutput w v s) := by
  unfold elementOuts at h
  split at h
  · next hp =>
    obtain ⟨x, hx, h⟩ := withOperand_next_inv h
    obtain ⟨rfl, hs⟩ := operand_at_inv hx
    obtain ⟨v, hv, h⟩ := withElem_next_inv h
    cases h
    exact ⟨hp, hs, v, hv, rfl⟩
  · exact absurd h (takeException_ne_next _ _ _ _ _)

/-! LODS (R90). -/

theorem elementLods_of_ok {w : OpSize} {a : AddrSize} {seg : SegReg} {s : State} {v : Word}
    (hs : accessOk s.launch .read seg w a (srcIdx a s)) (hv : readElem w (srcAddr a seg s) s = .ok v) :
    elementLods w a seg s = .next (advSrc a w (setAcc w v s)) := by
  unfold elementLods
  rw [operand_of_ok hs]
  show withElem (readElem w (srcAddr a seg s) s) _ = _
  rw [hv]
  rfl

theorem elementLods_next_inv {w : OpSize} {a : AddrSize} {seg : SegReg} {s u : State}
    (h : elementLods w a seg s = .next u) :
    accessOk s.launch .read seg w a (srcIdx a s)
      ∧ ∃ v, readElem w (srcAddr a seg s) s = .ok v ∧ u = advSrc a w (setAcc w v s) := by
  obtain ⟨x, hx, h⟩ := withOperand_next_inv h
  obtain ⟨rfl, hs⟩ := operand_at_inv hx
  obtain ⟨v, hv, h⟩ := withElem_next_inv h
  cases h
  exact ⟨hs, v, hv, rfl⟩

/-! STOS (R91). -/

theorem elementStos_of_ok {w : OpSize} {a : AddrSize} {ilen : Nat} {s : State}
    (hd : accessOk s.launch .write .es w a (dstIdx a s)) (hc : hitsCode w ilen (dstAddr a s) s = false) :
    elementStos w a ilen s = .next (advDst a w (writeElem w (dstAddr a s) (acc w s) s)) := by
  unfold elementStos
  rw [operand_of_ok hd]
  show andThen (storeElem w ilen (dstAddr a s) (acc w s) s) _ = _
  rw [storeElem_of_misses hc, andThen_next]

theorem elementStos_next_inv {w : OpSize} {a : AddrSize} {ilen : Nat} {s u : State}
    (h : elementStos w a ilen s = .next u) :
    accessOk s.launch .write .es w a (dstIdx a s) ∧ hitsCode w ilen (dstAddr a s) s = false
      ∧ u = advDst a w (writeElem w (dstAddr a s) (acc w s) s) := by
  obtain ⟨y, hy, h⟩ := withOperand_next_inv h
  obtain ⟨rfl, hd⟩ := operand_at_inv hy
  obtain ⟨t, ht, h⟩ := andThen_next_inv h
  obtain ⟨hh, rfl⟩ := storeElem_next_inv ht
  cases h
  exact ⟨hd, hh, rfl⟩

/-! CMPS (R92). -/

theorem elementCmps_of_ok {w : OpSize} {a : AddrSize} {seg : SegReg} {s : State} {x y : Word}
    (hs : accessOk s.launch .read seg w a (srcIdx a s)) (hd : accessOk s.launch .read .es w a (dstIdx a s))
    (hx : readElem w (srcAddr a seg s) s = .ok x) (hy : readElem w (dstAddr a s) s = .ok y) :
    elementCmps w a seg s = .next (advDst a w (advSrc a w (setStatus (subFlags w x y) s))) := by
  unfold elementCmps
  rw [operand_of_ok hs, operand_of_ok hd]
  show withElem (readElem w (srcAddr a seg s) s) _ = _
  rw [hx]
  show withElem (readElem w (dstAddr a s) s) _ = _
  rw [hy]
  rfl

theorem elementCmps_next_inv {w : OpSize} {a : AddrSize} {seg : SegReg} {s u : State}
    (h : elementCmps w a seg s = .next u) :
    accessOk s.launch .read seg w a (srcIdx a s) ∧ accessOk s.launch .read .es w a (dstIdx a s)
      ∧ ∃ x y, readElem w (srcAddr a seg s) s = .ok x ∧ readElem w (dstAddr a s) s = .ok y
        ∧ u = advDst a w (advSrc a w (setStatus (subFlags w x y) s)) := by
  obtain ⟨m, n, hm, hn, h⟩ := withOperands_next_inv h
  obtain ⟨rfl, hs⟩ := operand_at_inv hm
  obtain ⟨rfl, hd⟩ := operand_at_inv hn
  obtain ⟨x, hx, h⟩ := withElem_next_inv h
  obtain ⟨y, hy, h⟩ := withElem_next_inv h
  cases h
  exact ⟨hs, hd, x, y, hx, hy, rfl⟩

/-! SCAS (R93). -/

theorem elementScas_of_ok {w : OpSize} {a : AddrSize} {s : State} {y : Word}
    (hd : accessOk s.launch .read .es w a (dstIdx a s)) (hy : readElem w (dstAddr a s) s = .ok y) :
    elementScas w a s = .next (advDst a w (setStatus (subFlags w (acc w s) y) s)) := by
  unfold elementScas
  rw [operand_of_ok hd]
  show withElem (readElem w (dstAddr a s) s) _ = _
  rw [hy]
  rfl

theorem elementScas_next_inv {w : OpSize} {a : AddrSize} {s u : State} (h : elementScas w a s = .next u) :
    accessOk s.launch .read .es w a (dstIdx a s)
      ∧ ∃ y, readElem w (dstAddr a s) s = .ok y ∧ u = advDst a w (setStatus (subFlags w (acc w s) y) s) := by
  obtain ⟨n, hn, h⟩ := withOperand_next_inv h
  obtain ⟨rfl, hd⟩ := operand_at_inv hn
  obtain ⟨y, hy, h⟩ := withElem_next_inv h
  cases h
  exact ⟨hd, y, hy, rfl⟩

/-! All meanings at once. -/

/-- Every meaning is `StepRep` at the row's form (R77, R145). -/
theorem exec_eq (i : Instr) (s : State) :
    exec i s = repStep i.form.kind i.form.w i.form.a i.ilen (elementOf i) s := by
  cases i <;> rfl

/-- An iteration is the element operation, then its end (R75, R77). -/
theorem exec_iteration (i : Instr) (s : State) (h : entered i.form.w i.form.a s) :
    exec i s = andThen (elementOf i (enter s)) fun t => .next (endIteration i.form.kind i.form.a i.ilen t) := by
  rw [exec_eq, repStep_iteration h]

theorem sourceMoved_advSrc (a : AddrSize) (w : OpSize) (s x : State) (h1 : x.rsi = s.rsi) (h2 : x.df = s.df)
    (h3 : x.launch = s.launch) : sourceMoved a w s (advSrc a w x) := by
  constructor
  · rw [srcIdx_advSrc, h2]
    simp [srcIdx, h1]
  · rw [← h1, ← h3]
    exact implicitValue_otherBits x _ _ _

theorem destMoved_advDst (a : AddrSize) (w : OpSize) (s x : State) (h1 : x.rdi = s.rdi) (h2 : x.df = s.df)
    (h3 : x.launch = s.launch) : destMoved a w s (advDst a w x) := by
  constructor
  · rw [dstIdx_advDst, h2]
    simp [dstIdx, h1]
  · rw [← h1, ← h3]
    exact implicitValue_otherBits x _ _ _

/-- No element operation that goes through writes the count, RIP, RDX, DF, the launch or the windows, and each moves
the index registers it uses (R85 to R93). -/
theorem elementOf_next (i : Instr) (s u : State) (h : elementOf i s = .next u) :
    u.rcx = s.rcx ∧ u.rip = s.rip ∧ u.rdx = s.rdx ∧ u.df = s.df ∧ u.launch = s.launch ∧ u.windows = s.windows
      ∧ u.entryFlags = s.entryFlags
      ∧ (usesSource i.form.op = true → sourceMoved i.form.a i.form.w s u)
      ∧ (usesSource i.form.op = false → u.rsi = s.rsi)
      ∧ (usesDest i.form.op = true → destMoved i.form.a i.form.w s u)
      ∧ (usesDest i.form.op = false → u.rdi = s.rdi) := by
  have hsrc := sourceMoved_advSrc i.form.a i.form.w s
  have hdst := destMoved_advDst i.form.a i.form.w s
  have hboth : ∀ x : State, sourceMoved i.form.a i.form.w s x →
      sourceMoved i.form.a i.form.w s (advDst i.form.a i.form.w x) := fun _ hx => hx
  unfold elementOf at h
  cases hop : i.form.op <;> simp only [hop] at h
  · obtain ⟨-, -, -, rfl⟩ := elementIns_next_inv h
    simp only [usesSource, usesDest]
    refine ⟨rfl, rfl, rfl, rfl, rfl, rfl, rfl, ?_⟩
    simp
    exact hdst _ rfl rfl rfl
  · obtain ⟨-, -, -, v, -, rfl⟩ := elementMovs_next_inv h
    simp only [usesSource, usesDest]
    refine ⟨rfl, rfl, rfl, rfl, rfl, rfl, rfl, ?_⟩
    simp
    exact ⟨hboth _ (hsrc _ rfl rfl rfl), hdst _ rfl rfl rfl⟩
  · obtain ⟨-, -, v, -, rfl⟩ := elementOuts_next_inv h
    simp only [usesSource, usesDest]
    refine ⟨rfl, rfl, rfl, rfl, rfl, rfl, rfl, ?_⟩
    simp
    exact hsrc _ rfl rfl rfl
  · obtain ⟨-, v, -, rfl⟩ := elementLods_next_inv h
    simp only [usesSource, usesDest]
    refine ⟨rfl, rfl, rfl, rfl, rfl, rfl, rfl, ?_⟩
    simp
    exact hsrc _ rfl rfl rfl
  · obtain ⟨-, -, rfl⟩ := elementStos_next_inv h
    simp only [usesSource, usesDest]
    refine ⟨rfl, rfl, rfl, rfl, rfl, rfl, rfl, ?_⟩
    simp
    exact hdst _ rfl rfl rfl
  · obtain ⟨-, -, x, y, -, -, rfl⟩ := elementCmps_next_inv h
    simp only [usesSource, usesDest]
    refine ⟨rfl, rfl, rfl, rfl, rfl, rfl, rfl, ?_⟩
    simp
    exact ⟨hboth _ (hsrc _ rfl rfl rfl), hdst _ rfl rfl rfl⟩
  · obtain ⟨-, y, -, rfl⟩ := elementScas_next_inv h
    simp only [usesSource, usesDest]
    refine ⟨rfl, rfl, rfl, rfl, rfl, rfl, rfl, ?_⟩
    simp
    exact hdst _ rfl rfl rfl

/-- The end of an iteration whose element operation has left the count, RIP, RDX, DF and the launch alone. -/
theorem afterIteration_endIteration (kind : RepKind) (w : OpSize) (a : AddrSize) (ilen : Nat) (s u : State)
    (h : entered w a s) (h1 : u.rcx = s.rcx) (h2 : u.rip = s.rip) (h3 : u.rdx = s.rdx) (h4 : u.df = s.df)
    (h5 : u.launch = s.launch) (h6 : u.windows = s.windows.tail) :
    afterIteration kind a ilen s (endIteration kind a ilen u) := by
  have hc : countReg a u = countReg a s := by simp [countReg, h1]
  have hc0 : countReg a u ≠ 0#64 := by rw [hc]; exact h.2.1
  refine ⟨?_, ?_, ?_, by simpa using h6, by simpa using h3, by simpa using h4, by simpa using h5⟩
  · rw [endIteration_countReg _ _ _ _ hc0, hc]
  · rw [endIteration_rcx, ← h1, ← h5]
    exact implicitValue_otherBits u _ _ _
  · rw [endIteration_rip _ _ _ _ hc0, hc, h5, h2]
    simp

end Sys2Proof.Machine
end

