-- ==== Sys2Proof/Laws/PerInstr.lean ====
section
/-! SUPPORT. The family RowOfForm, one lemma per constructor: the decoder's table gives back each row from its form and
its prefixes (R69, R145), so no two rows share a form. -/

namespace Sys2Proof.Laws.RowOfForm

open Sys2Proof

/-- The row of the instruction's own form is the instruction. -/
def Statement (i : Instr) : Prop := rowOf i.form i.pre = some i

theorem repInsM8 (a : AddrEC) (p : Prefixes) : Statement (.repInsM8 a p) := by cases a <;> rfl
theorem repInsM8A64 (p : Prefixes) : Statement (.repInsM8A64 p) := rfl
theorem repInsM16 (a : AddrEC) (p : Prefixes) : Statement (.repInsM16 a p) := by cases a <;> rfl
theorem repInsM32 (a : AddrEC) (p : Prefixes) : Statement (.repInsM32 a p) := by cases a <;> rfl
theorem repInsRm32A64 (p : Prefixes) : Statement (.repInsRm32A64 p) := rfl
theorem repMovsM8 (a : AddrEC) (p : Prefixes) : Statement (.repMovsM8 a p) := by cases a <;> rfl
theorem repMovsM8A64 (p : Prefixes) : Statement (.repMovsM8A64 p) := rfl
theorem repMovsM16 (a : AddrEC) (p : Prefixes) : Statement (.repMovsM16 a p) := by cases a <;> rfl
theorem repMovsM32 (a : AddrEC) (p : Prefixes) : Statement (.repMovsM32 a p) := by cases a <;> rfl
theorem repMovsM64A64 (p : Prefixes) : Statement (.repMovsM64A64 p) := rfl
theorem repOutsM8 (a : AddrEC) (p : Prefixes) : Statement (.repOutsM8 a p) := by cases a <;> rfl
theorem repOutsM8A64 (p : Prefixes) : Statement (.repOutsM8A64 p) := rfl
theorem repOutsM16 (a : AddrEC) (p : Prefixes) : Statement (.repOutsM16 a p) := by cases a <;> rfl
theorem repOutsM32 (a : AddrEC) (p : Prefixes) : Statement (.repOutsM32 a p) := by cases a <;> rfl
theorem repOutsM32A64 (p : Prefixes) : Statement (.repOutsM32A64 p) := rfl
theorem repLodsAl (a : AddrEC) (p : Prefixes) : Statement (.repLodsAl a p) := by cases a <;> rfl
theorem repLodsAlA64 (p : Prefixes) : Statement (.repLodsAlA64 p) := rfl
theorem repLodsAx (a : AddrEC) (p : Prefixes) : Statement (.repLodsAx a p) := by cases a <;> rfl
theorem repLodsEax (a : AddrEC) (p : Prefixes) : Statement (.repLodsEax a p) := by cases a <;> rfl
theorem repLodsRaxA64 (p : Prefixes) : Statement (.repLodsRaxA64 p) := rfl
theorem repStosM8 (a : AddrEC) (p : Prefixes) : Statement (.repStosM8 a p) := by cases a <;> rfl
theorem repStosM8A64 (p : Prefixes) : Statement (.repStosM8A64 p) := rfl
theorem repStosM16 (a : AddrEC) (p : Prefixes) : Statement (.repStosM16 a p) := by cases a <;> rfl
theorem repStosM32 (a : AddrEC) (p : Prefixes) : Statement (.repStosM32 a p) := by cases a <;> rfl
theorem repStosM64A64 (p : Prefixes) : Statement (.repStosM64A64 p) := rfl
theorem repeCmpsM8 (a : AddrEC) (p : Prefixes) : Statement (.repeCmpsM8 a p) := by cases a <;> rfl
theorem repeCmpsM8A64 (p : Prefixes) : Statement (.repeCmpsM8A64 p) := rfl
theorem repeCmpsM16 (a : AddrEC) (p : Prefixes) : Statement (.repeCmpsM16 a p) := by cases a <;> rfl
theorem repeCmpsM32 (a : AddrEC) (p : Prefixes) : Statement (.repeCmpsM32 a p) := by cases a <;> rfl
theorem repeCmpsM64A64 (p : Prefixes) : Statement (.repeCmpsM64A64 p) := rfl
theorem repeScasM8 (a : AddrEC) (p : Prefixes) : Statement (.repeScasM8 a p) := by cases a <;> rfl
theorem repeScasM8A64 (p : Prefixes) : Statement (.repeScasM8A64 p) := rfl
theorem repeScasM16 (a : AddrEC) (p : Prefixes) : Statement (.repeScasM16 a p) := by cases a <;> rfl
theorem repeScasM32 (a : AddrEC) (p : Prefixes) : Statement (.repeScasM32 a p) := by cases a <;> rfl
theorem repeScasM64A64 (p : Prefixes) : Statement (.repeScasM64A64 p) := rfl
theorem repneCmpsM8 (a : AddrEC) (p : Prefixes) : Statement (.repneCmpsM8 a p) := by cases a <;> rfl
theorem repneCmpsM8A64 (p : Prefixes) : Statement (.repneCmpsM8A64 p) := rfl
theorem repneCmpsM16 (a : AddrEC) (p : Prefixes) : Statement (.repneCmpsM16 a p) := by cases a <;> rfl
theorem repneCmpsM32 (a : AddrEC) (p : Prefixes) : Statement (.repneCmpsM32 a p) := by cases a <;> rfl
theorem repneCmpsM64A64 (p : Prefixes) : Statement (.repneCmpsM64A64 p) := rfl
theorem repneScasM8 (a : AddrEC) (p : Prefixes) : Statement (.repneScasM8 a p) := by cases a <;> rfl
theorem repneScasM8A64 (p : Prefixes) : Statement (.repneScasM8A64 p) := rfl
theorem repneScasM16 (a : AddrEC) (p : Prefixes) : Statement (.repneScasM16 a p) := by cases a <;> rfl
theorem repneScasM32 (a : AddrEC) (p : Prefixes) : Statement (.repneScasM32 a p) := by cases a <;> rfl
theorem repneScasM64A64 (p : Prefixes) : Statement (.repneScasM64A64 p) := rfl
theorem repInsM16A64 (p : Prefixes) : Statement (.repInsM16A64 p) := rfl
theorem repOutsM16A64 (p : Prefixes) : Statement (.repOutsM16A64 p) := rfl
theorem repMovsM16A64 (p : Prefixes) : Statement (.repMovsM16A64 p) := rfl
theorem repMovsM32A64 (p : Prefixes) : Statement (.repMovsM32A64 p) := rfl
theorem repMovsM64A32 (p : Prefixes) : Statement (.repMovsM64A32 p) := rfl
theorem repLodsAxA64 (p : Prefixes) : Statement (.repLodsAxA64 p) := rfl
theorem repLodsEaxA64 (p : Prefixes) : Statement (.repLodsEaxA64 p) := rfl
theorem repLodsRaxA32 (p : Prefixes) : Statement (.repLodsRaxA32 p) := rfl
theorem repStosM16A64 (p : Prefixes) : Statement (.repStosM16A64 p) := rfl
theorem repStosM32A64 (p : Prefixes) : Statement (.repStosM32A64 p) := rfl
theorem repStosM64A32 (p : Prefixes) : Statement (.repStosM64A32 p) := rfl
theorem repeCmpsM16A64 (p : Prefixes) : Statement (.repeCmpsM16A64 p) := rfl
theorem repeCmpsM32A64 (p : Prefixes) : Statement (.repeCmpsM32A64 p) := rfl
theorem repeCmpsM64A32 (p : Prefixes) : Statement (.repeCmpsM64A32 p) := rfl
theorem repeScasM16A64 (p : Prefixes) : Statement (.repeScasM16A64 p) := rfl
theorem repeScasM32A64 (p : Prefixes) : Statement (.repeScasM32A64 p) := rfl
theorem repeScasM64A32 (p : Prefixes) : Statement (.repeScasM64A32 p) := rfl
theorem repneCmpsM16A64 (p : Prefixes) : Statement (.repneCmpsM16A64 p) := rfl
theorem repneCmpsM32A64 (p : Prefixes) : Statement (.repneCmpsM32A64 p) := rfl
theorem repneCmpsM64A32 (p : Prefixes) : Statement (.repneCmpsM64A32 p) := rfl
theorem repneScasM16A64 (p : Prefixes) : Statement (.repneScasM16A64 p) := rfl
theorem repneScasM32A64 (p : Prefixes) : Statement (.repneScasM32A64 p) := rfl
theorem repneScasM64A32 (p : Prefixes) : Statement (.repneScasM64A32 p) := rfl

end Sys2Proof.Laws.RowOfForm
end

