-- ==== Sys2Proof/Laws/Encoding.lean ====
section
/-! SUPPORT. Each byte the encoder writes is what the decoder takes it for (R51 to R56). -/

namespace Sys2Proof

theorem classify_legacyByte (l : Legacy) : classify (legacyByte l) = .legacy l := by
  cases l with
  | addrSize => rfl
  | opSize => rfl
  | seg r => cases r <;> rfl

/-- The repeat byte of a kind, as the scan sees it. -/
def repByteOf : RepKind → RepByte
  | .rep => .f3
  | .repe => .f3
  | .repne => .f2

theorem classify_repeatByte (k : RepKind) : classify (repeatByte k) = .rep (repByteOf k) := by cases k <;> rfl

theorem classify_rexByte (r : Rex) : classify (rexByte r) = .other := by
  obtain ⟨w, r, x, b⟩ := r
  cases w <;> cases r <;> cases x <;> cases b <;> rfl

theorem classify_opcodeByte (op : StringOp) (w : OpSize) : classify (opcodeByte op w) = .other := by
  cases op <;> cases w <;> rfl

theorem stringOf_opcodeByte (op : StringOp) (w : OpSize) :
    stringOf (opcodeByte op w) = some (op, decide (w = .b8)) := by
  cases op <;> cases w <;> rfl

theorem takeRex_rexByte (r : Rex) (bs : List Byte) : takeRex .mode64 (rexByte r :: bs) = (some r, bs) := by
  obtain ⟨w, r, x, b⟩ := r
  cases w <;> cases r <;> cases x <;> cases b <;> rfl

theorem takeRex_opcodeByte (m : Mode) (op : StringOp) (w : OpSize) (bs : List Byte) :
    takeRex m (opcodeByte op w :: bs) = (none, opcodeByte op w :: bs) := by
  cases m <;> cases op <;> cases w <;> rfl

theorem takeRex_modeCL (d o : LegacySize) (bs : List Byte) : takeRex (.modeCL d o) bs = (none, bs) := by
  cases bs <;> rfl

theorem rowOf_form (i : Instr) : rowOf i.form i.pre = some i := by
  cases i with
  | _ => first | rfl | (rename_i a p; cases a <;> rfl)

/-- A repeat kind goes with an instruction (R52): REPE and REPNE with those that compare, REP with the others. -/
theorem kindOf_form (i : Instr) : kindOf i.form.op (repByteOf i.form.kind) = some i.form.kind := by
  cases i <;> rfl

/-- The row a form has carries that form and those prefixes. -/
theorem rowOf_inv (f : Form) (p : Prefixes) (i : Instr) (h : rowOf f p = some i) : i.form = f ∧ i.pre = p := by
  obtain ⟨k, op, w, a⟩ := f
  unfold rowOf at h
  split at h <;> cases h <;> simp_all [Instr.form, Instr.pre, AddrEC.size]

/-- The length of an instruction is the number of its bytes (R58). -/
theorem encode_length_eq (i : Instr) : (encode i).length = i.ilen := by
  unfold encode Instr.ilen Prefixes.ilen
  cases i.pre.rex <;> simp <;> omega

end Sys2Proof
end

