-- ==== Sys2Proof/Laws/Scan.lean ====
section
/-! SUPPORT. What the scan of the prefixes and the reading of REX and opcode do, forwards from encoded bytes and
backwards from what was decoded (R50 to R59). -/

namespace Sys2Proof

/-- At most one prefix of each group in a list (R58). -/
def noDup (ls : List Legacy) : Bool := ls.count .addrSize ≤ 1 && ls.count .opSize ≤ 1 && segCount ls ≤ 1

theorem segCount_append (a b : List Legacy) : segCount (a ++ b) = segCount a + segCount b := by
  induction a with
  | nil => simp [segCount]
  | cons x xs ih => cases x <;> (simp [segCount, ih]; try omega)

theorem segCount_pos_of_mem (ls : List Legacy) (r : SegReg) (h : Legacy.seg r ∈ ls) : 0 < segCount ls := by
  induction ls with
  | nil => cases h
  | cons x xs ih =>
    cases x <;> simp [segCount] at * <;> tauto

theorem mem_of_segCount_pos (ls : List Legacy) (h : 0 < segCount ls) : ∃ r, Legacy.seg r ∈ ls := by
  induction ls with
  | nil => simp [segCount] at h
  | cons x xs ih =>
    cases x with
    | seg r => exact ⟨r, by simp⟩
    | addrSize => obtain ⟨r, hr⟩ := ih h; exact ⟨r, by simp [hr]⟩
    | opSize => obtain ⟨r, hr⟩ := ih h; exact ⟨r, by simp [hr]⟩

/-- One more prefix keeps at most one of each group exactly where none of its group is there. -/
theorem noDup_snoc (ls : List Legacy) (l : Legacy) (h : noDup ls = true) :
    noDup (ls ++ [l]) = !(ls.any (sameGroup l)) := by
  simp only [noDup, Bool.and_eq_true, decide_eq_true_eq] at h
  obtain ⟨⟨h1, h2⟩, h3⟩ := h
  rw [Bool.eq_iff_iff]
  simp only [noDup, Bool.and_eq_true, decide_eq_true_eq, List.count_append, segCount_append,
    Bool.not_eq_true', List.any_eq_false]
  cases l with
  | addrSize =>
    simp [segCount]
    constructor
    · intro ⟨⟨ha, _⟩, _⟩ x hx
      cases x <;> simp [sameGroup]
      have := List.count_pos_iff.mpr hx; omega
    · intro hx
      refine ⟨⟨?_, h2⟩, h3⟩
      by_contra hc
      have : 0 < ls.count .addrSize := by omega
      exact absurd (hx _ (List.count_pos_iff.mp this)) (by simp [sameGroup])
  | opSize =>
    simp [segCount]
    constructor
    · intro ⟨⟨_, ha⟩, _⟩ x hx
      cases x <;> simp [sameGroup]
      have := List.count_pos_iff.mpr hx; omega
    · intro hx
      refine ⟨⟨h1, ?_⟩, h3⟩
      by_contra hc
      have : 0 < ls.count .opSize := by omega
      exact absurd (hx _ (List.count_pos_iff.mp this)) (by simp [sameGroup])
  | seg r =>
    simp [segCount]
    constructor
    · intro ⟨⟨_, _⟩, ha⟩ x hx
      cases x with
      | seg r' => have := segCount_pos_of_mem ls r' hx; omega
      | addrSize => rfl
      | opSize => rfl
    · intro hx
      refine ⟨⟨h1, h2⟩, ?_⟩
      by_contra hc
      obtain ⟨r', hr⟩ := mem_of_segCount_pos ls (by omega)
      exact absurd (hx _ hr) (by simp [sameGroup])

theorem noDup_left (a b : List Legacy) (h : noDup (a ++ b) = true) : noDup a = true := by
  simp only [noDup, Bool.and_eq_true, decide_eq_true_eq, List.count_append, segCount_append] at *
  omega

theorem noDup_cons_any (a b : List Legacy) (l : Legacy) (h : noDup (a ++ l :: b) = true) :
    a.any (sameGroup l) = false := by
  have h2 : noDup (a ++ [l]) = true := noDup_left (a ++ [l]) b (by simpa using h)
  have := noDup_snoc a l (noDup_left a [l] h2)
  rw [h2] at this; simpa using this.symm

/-- The scan reads the prefixes before the repeat byte. -/
theorem scan_before (ls : List Legacy) (rest : List Byte) : ∀ b0, noDup (b0 ++ ls) = true →
    scanPrefixes (ls.map legacyByte ++ rest) ⟨none, b0, []⟩ = scanPrefixes rest ⟨none, b0 ++ ls, []⟩ := by
  induction ls with
  | nil => intro b0 _; simp
  | cons l ls ih =>
    intro b0 h
    simp only [List.map_cons, List.cons_append, scanPrefixes, classify_legacyByte]
    rw [List.append_nil, noDup_cons_any b0 ls l h, if_neg (by simp)]
    have := ih (b0 ++ [l]) (by simpa using h)
    simpa [Scan.push] using this

/-- The scan reads the prefixes after the repeat byte. -/
theorem scan_after (r : RepByte) (b : List Legacy) (ls : List Legacy) (rest : List Byte) :
    ∀ a0, noDup (b ++ a0 ++ ls) = true →
    scanPrefixes (ls.map legacyByte ++ rest) ⟨some r, b, a0⟩ = scanPrefixes rest ⟨some r, b, a0 ++ ls⟩ := by
  induction ls with
  | nil => intro b0 _; simp
  | cons l ls ih =>
    intro a0 h
    simp only [List.map_cons, List.cons_append, scanPrefixes, classify_legacyByte]
    rw [noDup_cons_any (b ++ a0) ls l h, if_neg (by simp)]
    have := ih (a0 ++ [l]) (by simpa using h)
    simpa [Scan.push] using this

/-- The scan reads all prefixes of an encoding. -/
theorem scan_encode (i : Instr) (tail : List Byte) (h : i.pre.oneEach = true)
    (ht : ∀ b bs, tail = b :: bs → classify b = .other) :
    scanPrefixes (i.pre.before.map legacyByte ++ ([repeatByte i.form.kind] ++ (i.pre.after.map legacyByte ++ tail)))
      ⟨none, [], []⟩ = .ok (⟨some (repByteOf i.form.kind), i.pre.before, i.pre.after⟩, tail) := by
  have h1 : noDup (i.pre.before ++ i.pre.after) = true := h
  rw [scan_before _ _ [] (by simpa using noDup_left _ _ h1)]
  simp only [List.nil_append, List.singleton_append]
  rw [scanPrefixes, classify_repeatByte]
  simp only [Option.isSome_none, Bool.false_eq_true, if_false]
  rw [scan_after _ _ _ _ [] (by simpa using h1)]
  cases tail with
  | nil => simp [scanPrefixes]
  | cons b bs => simp [scanPrefixes, ht b bs rfl]

theorem addrSizeOf_of_fits (m : Mode) (a : AddrSize) (p : Prefixes) (h : addrSizeFits m a p = true) :
    addrSizeOf m p.has67 = a := by
  cases m with
  | mode64 => cases a <;> simp_all [addrSizeFits, addrSizeOf]
  | modeCL d o =>
    cases a <;> cases d <;> cases hh : p.has67 <;>
      simp_all [addrSizeFits, addrSizeOf, LegacySize.addr, LegacySize.other]

theorem opSizeOf_of_fits (m : Mode) (op : StringOp) (w : OpSize) (p : Prefixes) (h : opSizeFits m op w p = true)
    (hr : p.rexAllowed m = true) : opSizeOf m op (decide (w = .b8)) p.rexW p.has66 = some w := by
  have hx : ∀ d o, m = .modeCL d o → p.rexW = false := by
    intro d o hm; subst hm
    simp [Prefixes.rexAllowed] at hr
    simp [Prefixes.rexW, hr]
  cases m with
  | mode64 =>
    cases w <;> cases op <;> cases h1 : p.has66 <;> cases h2 : p.rexW <;>
      simp_all [opSizeFits, opSizeOf, StringOp.isIo]
  | modeCL d o =>
    have := hx d o rfl
    cases w <;> cases op <;> cases o <;> cases h1 : p.has66 <;>
      simp_all [opSizeFits, opSizeOf, StringOp.isIo, LegacySize.op, LegacySize.other]

/-- The class of every byte that is a prefix names that byte. -/
theorem classify_all : ∀ n : Fin 256,
    (match classify (BitVec.ofFin (w := 8) n) with
    | .rep .f3 => decide (n = 0xF3)
    | .rep .f2 => decide (n = 0xF2)
    | .legacy l => decide (legacyByte l = BitVec.ofFin n)
    | _ => true) = true := by decide +kernel

theorem classify_legacy_inv (b : Byte) (l : Legacy) (h : classify b = .legacy l) : b = legacyByte l := by
  have := classify_all b.toFin
  simp only [BitVec.ofFin_toFin, h] at this
  exact (of_decide_eq_true this).symm

theorem classify_rep_inv (b : Byte) (r : RepByte) (h : classify b = .rep r) (k : RepKind)
    (hk : repByteOf k = r) : b = repeatByte k := by
  have := classify_all b.toFin
  simp only [BitVec.ofFin_toFin, h] at this
  cases k <;> simp [repByteOf] at hk <;> subst hk <;> simp at this <;> exact BitVec.eq_of_toFin_eq this

/-- Every byte that is an opcode is the opcode of its instruction. -/
theorem stringOf_all : ∀ n : Fin 256, (match stringOf (BitVec.ofFin (w := 8) n) with
     | none => true
     | some (op, true) => decide (opcodeByte op .b8 = BitVec.ofFin n)
     | some (op, false) => decide (opcodeByte op .b16 = BitVec.ofFin n)) = true := by decide +kernel

theorem stringOf_inv (b : Byte) (op isB) (h : stringOf b = some (op, isB)) (w) (hw : decide (w = OpSize.b8) = isB) :
    opcodeByte op w = b := by
  have := stringOf_all b.toFin
  simp only [BitVec.ofFin_toFin, h] at this
  cases isB with
  | true => cases w <;> first | exact of_decide_eq_true this | simp at hw
  | false => cases w <;> first | exact of_decide_eq_true this | simp at hw

/-- Every byte 40H to 4FH is the REX byte of its four bits. -/
theorem rex_all : ∀ n : Fin 256,
    let b := BitVec.ofFin (w := 8) n
    b.extractLsb' 4 4 = 4#4 → rexByte ⟨b.getLsbD 3, b.getLsbD 2, b.getLsbD 1, b.getLsbD 0⟩ = b := by decide +kernel

theorem takeRex_inv (m : Mode) (bs rest : List Byte) (x : Option Rex) (h : takeRex m bs = (x, rest)) :
    bs = (match x with | some r => [rexByte r] | none => []) ++ rest ∧ (∀ d o, m = .modeCL d o → x = none) := by
  cases m with
  | modeCL d o =>
    rw [takeRex_modeCL, Prod.mk.injEq] at h
    obtain ⟨rfl, rfl⟩ := h
    exact ⟨rfl, fun _ _ _ => rfl⟩
  | mode64 =>
    refine ⟨?_, fun d o hm => nomatch hm⟩
    cases bs with
    | nil =>
      have h' : ((none : Option Rex), ([] : List Byte)) = (x, rest) := h
      rw [Prod.mk.injEq] at h'
      obtain ⟨rfl, rfl⟩ := h'
      rfl
    | cons b tl =>
      simp only [takeRex] at h
      split at h
      · next hb =>
        rw [Prod.mk.injEq] at h
        obtain ⟨rfl, rfl⟩ := h
        have := rex_all b.toFin (by simpa using hb)
        simp only [BitVec.ofFin_toFin] at this
        simp only [this]
        rfl
      · rw [Prod.mk.injEq] at h
        obtain ⟨rfl, rfl⟩ := h
        rfl

/-- What the scan has read after the repeat byte. -/
theorem scan_inv2 (bs : List Byte) : ∀ sc sc' rest r, sc.rep = some r → noDup (sc.before ++ sc.after) = true →
    scanPrefixes bs sc = .ok (sc', rest) →
    ∃ l2, bs = l2.map legacyByte ++ rest ∧ sc' = ⟨some r, sc.before, sc.after ++ l2⟩
      ∧ noDup (sc'.before ++ sc'.after) = true := by
  induction bs with
  | nil => intro sc sc' rest r hr hd h; cases h; exact ⟨[], by simp, by cases sc; simp_all, hd⟩
  | cons b bs ih =>
    intro sc sc' rest r hr hd h
    rw [scanPrefixes] at h
    split at h
    · cases h; exact ⟨[], by simp, by cases sc; simp_all, hd⟩
    · cases h
    · simp [hr] at h
    · next l hl =>
      split at h
      · cases h
      · next hany =>
        obtain ⟨l2, h1, h2, h3⟩ := ih (sc.push l) sc' rest r (by simp [Scan.push, hr]) (by
          simp only [Scan.push, hr]
          rw [← List.append_assoc, noDup_snoc _ _ hd]; simpa using hany) h
        refine ⟨l :: l2, by simp [h1, classify_legacy_inv b l hl], ?_, h3⟩
        rw [h2]; simp [Scan.push, hr]

/-- What the scan has read where it has met a repeat byte. -/
theorem scan_inv1 (bs : List Byte) : ∀ sc sc' rest r, sc.rep = none → sc.after = [] → noDup (sc.before) = true →
    scanPrefixes bs sc = .ok (sc', rest) → sc'.rep = some r →
    ∃ l1 b l2, classify b = .rep r ∧ bs = l1.map legacyByte ++ b :: (l2.map legacyByte ++ rest)
      ∧ sc' = ⟨some r, sc.before ++ l1, l2⟩ ∧ noDup (sc'.before ++ sc'.after) = true := by
  induction bs with
  | nil => intro sc sc' rest r hr ha hd h h'; cases h; simp_all
  | cons b bs ih =>
    intro sc sc' rest r hr ha hd h h'
    rw [scanPrefixes] at h
    split at h
    · cases h; simp_all
    · cases h
    · next r' hr' =>
      simp only [hr, Option.isSome_none, Bool.false_eq_true, if_false] at h
      obtain ⟨l2, h1, h2, h3⟩ := scan_inv2 bs { sc with rep := some r' } sc' rest r' rfl (by simpa [ha] using hd) h
      rw [h2] at h'
      cases h'
      exact ⟨[], b, l2, hr', by simp [h1], by rw [h2]; simp [ha], h3⟩
    · next l hl =>
      split at h
      · cases h
      · next hany =>
        obtain ⟨l1, b', l2, h0, h1, h2, h3⟩ := ih (sc.push l) sc' rest r (by simp [Scan.push, hr])
          (by simp [Scan.push, hr, ha]) (by
          simp only [Scan.push, hr]
          rw [noDup_snoc _ _ hd]; simpa [ha] using hany) h h'
        refine ⟨l :: l1, b', l2, h0, by simp [h1, classify_legacy_inv b l hl], ?_, h3⟩
        rw [h2]; simp [Scan.push, hr]

theorem fits_of_addrSizeOf (m : Mode) (p : Prefixes) : addrSizeFits m (addrSizeOf m p.has67) p = true := by
  cases m with
  | mode64 => cases h : p.has67 <;> simp [addrSizeFits, addrSizeOf, h]
  | modeCL d o =>
    cases d <;> cases h : p.has67 <;>
      simp [addrSizeFits, addrSizeOf, LegacySize.addr, LegacySize.other, h]

theorem fits_of_opSizeOf (m : Mode) (op : StringOp) (isB : Bool) (w : OpSize) (p : Prefixes)
    (hr : p.rexAllowed m = true) (h : opSizeOf m op isB p.rexW p.has66 = some w) :
    opSizeFits m op w p = true ∧ decide (w = .b8) = isB := by
  have hx : ∀ d o, m = .modeCL d o → p.rexW = false := by
    intro d o hm; subst hm
    simp [Prefixes.rexAllowed] at hr
    simp [Prefixes.rexW, hr]
  cases m with
  | mode64 =>
    cases w <;> cases op <;> cases isB <;> cases h1 : p.has66 <;> cases h2 : p.rexW <;>
      simp_all [opSizeFits, opSizeOf, StringOp.isIo]
  | modeCL d o =>
    have := hx d o rfl
    cases w <;> cases op <;> cases isB <;> cases o <;> cases h1 : p.has66 <;>
      simp_all [opSizeFits, opSizeOf, StringOp.isIo, LegacySize.op, LegacySize.other]

end Sys2Proof
end

