-- ==== Sys2Proof/Laws/Step.lean ====
section
/-! SUPPORT. What a step of the machine can be, and what a run observes of it. -/

namespace Sys2Proof.Machine

open Sys2Proof

/-- A next state is that of the decoded instruction: RIP is not at the exit address, and the instruction fits (R77, R172). -/
theorem step_next_inv {s t : State} (h : step s = .next t) :
    atExit s = false ∧ ∃ i, fetchDecode s = .ok i ∧ codeFits i.ilen s = true ∧ exec i s = .next t := by
  unfold step at h
  split at h
  · cases h
  · next he =>
    split at h
    · next i hi =>
      split at h
      · next hc => exact ⟨by simpa using he, i, hi, hc, h⟩
      · cases h
    · cases h
    · cases h

/-- A terminal outcome is the end of the run (R172 a), or what the decoded instruction raises. -/
theorem step_fault_inv {s : State} {f : Fault} (h : step s = .fault f) :
    (atExit s = true ∧ f = .completed s)
      ∨ ∃ i, fetchDecode s = .ok i ∧ codeFits i.ilen s = true ∧ exec i s = .fault f := by
  unfold step at h
  split at h
  · next he => cases h; exact .inl ⟨he, rfl⟩
  · split at h
    · next i hi =>
      split at h
      · next hc => exact .inr ⟨i, hi, hc, h⟩
      · cases h
    · cases h
    · cases h

theorem step_atExit {s : State} (h : atExit s = true) : step s = .fault (.completed s) := by simp [step, h]

/-- The fetch depends on the launch and on RIP alone (R45). -/
theorem fetch_congr {s t : State} (hl : t.launch = s.launch) (hr : t.rip = s.rip) : fetch t = fetch s := by
  simp [fetch, codeAddrs, codeAddr, hl, hr]

theorem run_next {s t : State} (n : Nat) (h : step s = .next t) : run (n + 1) s = run n t := by simp [run, h]

/-- A step that does not go on ends the run, however many steps are left. -/
theorem run_end {s : State} (n : Nat) (h : ∀ t, step s ≠ .next t) : run n s = observe s (step s) := by
  cases n with
  | zero => rfl
  | succ n =>
    unfold run
    split
    · next t ht => exact absurd ht (h t)
    · rfl

end Sys2Proof.Machine
end

