-- ==== Sys2Proof/Tests/Slice0.lean ====
section
/-! SUPPORT. The model's own tests: ill-formed terms that each check refuses, words written out from the spec's encodings,
single steps from the spec's vectors (95_test_vectors.md), and for each statement with hypotheses a state that meets
them. -/

namespace Sys2Proof.Tests

open Sys2Proof Sys2Proof.Machine

/-- No prefix but the repeat prefix. -/
def p0 : Prefixes := ⟨[], [], none⟩

/-! WellFormed: a term each check refuses, and one it admits. -/

theorem test_wf_repeated_prefix :
    (Prefixes.oneEach ⟨[.addrSize], [.addrSize], none⟩ = false ∧ Prefixes.oneEach ⟨[.opSize, .opSize], [], none⟩ = false)
      ∧ Prefixes.oneEach ⟨[.seg .fs], [.seg .gs], none⟩ = false
      ∧ Prefixes.oneEach ⟨[.seg .fs, .addrSize], [.opSize], none⟩ = true := by decide

theorem test_wf_rex_mode :
    Prefixes.rexAllowed (.modeCL .d32 .d32) ⟨[], [], some ⟨true, false, false, false⟩⟩ = false
      ∧ Prefixes.rexAllowed .mode64 ⟨[], [], some ⟨true, false, false, false⟩⟩ = true := by decide

theorem test_wf_address_size :
    addrSizeFits .mode64 .a16 ⟨[.addrSize], [], none⟩ = false ∧ addrSizeFits .mode64 .a32 p0 = false
      ∧ addrSizeFits (.modeCL .d32 .d32) .a64 p0 = false ∧ addrSizeFits (.modeCL .d32 .d32) .a16 p0 = false
      ∧ addrSizeFits (.modeCL .d16 .d32) .a16 p0 = true := by decide

theorem test_wf_element_size :
    opSizeFits .mode64 .movs .b64 p0 = false ∧ opSizeFits .mode64 .movs .b16 p0 = false
      ∧ opSizeFits .mode64 .ins .b16 ⟨[.opSize], [], some ⟨true, false, false, false⟩⟩ = false
      ∧ opSizeFits (.modeCL .d32 .d16) .movs .b32 p0 = false
      ∧ opSizeFits .mode64 .movs .b64 ⟨[.opSize], [], some ⟨true, false, false, false⟩⟩ = true := by decide

theorem test_wf_whole :
    wellFormed .mode64 (.repMovsM64A64 p0) = false ∧ wellFormed (.modeCL .d32 .d32) (.repMovsM8A64 p0) = false
      ∧ wellFormed .mode64 (.repInsM8 .a16 p0) = false ∧ wellFormed .mode64 (.repMovsM8A64 p0) = true := by decide

/-! Decoding: every constructor, by its bytes from 30_encoding.md section 3 and R145, the (E)CX rows at both address
sizes (R53, R55). -/

theorem test_decode_rep_ins :
    decode (.modeCL .d16 .d32) true [0xF3, 0x6C] = .ok (.repInsM8 .a16 ⟨[], [], none⟩)
      ∧ decode .mode64 true [0x67, 0xF3, 0x6C] = .ok (.repInsM8 .a32 ⟨[.addrSize], [], none⟩)
      ∧ decode .mode64 true [0xF3, 0x6C] = .ok (.repInsM8A64 ⟨[], [], none⟩)
      ∧ decode (.modeCL .d16 .d16) true [0xF3, 0x6D] = .ok (.repInsM16 .a16 ⟨[], [], none⟩)
      ∧ decode .mode64 true [0x67, 0x66, 0xF3, 0x6D] = .ok (.repInsM16 .a32 ⟨[.addrSize, .opSize], [], none⟩)
      ∧ decode (.modeCL .d16 .d32) true [0xF3, 0x6D] = .ok (.repInsM32 .a16 ⟨[], [], none⟩)
      ∧ decode .mode64 true [0x67, 0xF3, 0x6D] = .ok (.repInsM32 .a32 ⟨[.addrSize], [], none⟩)
      ∧ decode .mode64 true [0xF3, 0x6D] = .ok (.repInsRm32A64 ⟨[], [], none⟩)
      ∧ decode .mode64 true [0x66, 0xF3, 0x6D] = .ok (.repInsM16A64 ⟨[.opSize], [], none⟩) :=
  ⟨rfl, rfl, rfl, rfl, rfl, rfl, rfl, rfl, rfl⟩

theorem test_decode_rep_movs :
    decode (.modeCL .d16 .d32) true [0xF3, 0xA4] = .ok (.repMovsM8 .a16 ⟨[], [], none⟩)
      ∧ decode .mode64 true [0x67, 0xF3, 0xA4] = .ok (.repMovsM8 .a32 ⟨[.addrSize], [], none⟩)
      ∧ decode .mode64 true [0xF3, 0x48, 0xA4] = .ok (.repMovsM8A64 ⟨[], [], some ⟨true, false, false, false⟩⟩)
      ∧ decode (.modeCL .d16 .d16) true [0xF3, 0xA5] = .ok (.repMovsM16 .a16 ⟨[], [], none⟩)
      ∧ decode .mode64 true [0x67, 0x66, 0xF3, 0xA5] = .ok (.repMovsM16 .a32 ⟨[.addrSize, .opSize], [], none⟩)
      ∧ decode (.modeCL .d16 .d32) true [0xF3, 0xA5] = .ok (.repMovsM32 .a16 ⟨[], [], none⟩)
      ∧ decode .mode64 true [0x67, 0xF3, 0xA5] = .ok (.repMovsM32 .a32 ⟨[.addrSize], [], none⟩)
      ∧ decode .mode64 true [0xF3, 0x48, 0xA5] = .ok (.repMovsM64A64 ⟨[], [], some ⟨true, false, false, false⟩⟩)
      ∧ decode .mode64 true [0x66, 0xF3, 0xA5] = .ok (.repMovsM16A64 ⟨[.opSize], [], none⟩)
      ∧ decode .mode64 true [0xF3, 0xA5] = .ok (.repMovsM32A64 ⟨[], [], none⟩)
      ∧ decode .mode64 true [0x67, 0xF3, 0x48, 0xA5] = .ok (.repMovsM64A32 ⟨[.addrSize], [], some ⟨true, false, false, false⟩⟩) :=
  ⟨rfl, rfl, rfl, rfl, rfl, rfl, rfl, rfl, rfl, rfl, rfl⟩

theorem test_decode_rep_outs :
    decode (.modeCL .d16 .d32) true [0xF3, 0x6E] = .ok (.repOutsM8 .a16 ⟨[], [], none⟩)
      ∧ decode .mode64 true [0x67, 0xF3, 0x6E] = .ok (.repOutsM8 .a32 ⟨[.addrSize], [], none⟩)
      ∧ decode .mode64 true [0xF3, 0x48, 0x6E] = .ok (.repOutsM8A64 ⟨[], [], some ⟨true, false, false, false⟩⟩)
      ∧ decode (.modeCL .d16 .d16) true [0xF3, 0x6F] = .ok (.repOutsM16 .a16 ⟨[], [], none⟩)
      ∧ decode .mode64 true [0x67, 0x66, 0xF3, 0x6F] = .ok (.repOutsM16 .a32 ⟨[.addrSize, .opSize], [], none⟩)
      ∧ decode (.modeCL .d16 .d32) true [0xF3, 0x6F] = .ok (.repOutsM32 .a16 ⟨[], [], none⟩)
      ∧ decode .mode64 true [0x67, 0xF3, 0x6F] = .ok (.repOutsM32 .a32 ⟨[.addrSize], [], none⟩)
      ∧ decode .mode64 true [0xF3, 0x48, 0x6F] = .ok (.repOutsM32A64 ⟨[], [], some ⟨true, false, false, false⟩⟩)
      ∧ decode .mode64 true [0x66, 0xF3, 0x6F] = .ok (.repOutsM16A64 ⟨[.opSize], [], none⟩) :=
  ⟨rfl, rfl, rfl, rfl, rfl, rfl, rfl, rfl, rfl⟩

theorem test_decode_rep_lods :
    decode (.modeCL .d16 .d32) true [0xF3, 0xAC] = .ok (.repLodsAl .a16 ⟨[], [], none⟩)
      ∧ decode .mode64 true [0x67, 0xF3, 0xAC] = .ok (.repLodsAl .a32 ⟨[.addrSize], [], none⟩)
      ∧ decode .mode64 true [0xF3, 0x48, 0xAC] = .ok (.repLodsAlA64 ⟨[], [], some ⟨true, false, false, false⟩⟩)
      ∧ decode (.modeCL .d16 .d16) true [0xF3, 0xAD] = .ok (.repLodsAx .a16 ⟨[], [], none⟩)
      ∧ decode .mode64 true [0x67, 0x66, 0xF3, 0xAD] = .ok (.repLodsAx .a32 ⟨[.addrSize, .opSize], [], none⟩)
      ∧ decode (.modeCL .d16 .d32) true [0xF3, 0xAD] = .ok (.repLodsEax .a16 ⟨[], [], none⟩)
      ∧ decode .mode64 true [0x67, 0xF3, 0xAD] = .ok (.repLodsEax .a32 ⟨[.addrSize], [], none⟩)
      ∧ decode .mode64 true [0xF3, 0x48, 0xAD] = .ok (.repLodsRaxA64 ⟨[], [], some ⟨true, false, false, false⟩⟩)
      ∧ decode .mode64 true [0x66, 0xF3, 0xAD] = .ok (.repLodsAxA64 ⟨[.opSize], [], none⟩)
      ∧ decode .mode64 true [0xF3, 0xAD] = .ok (.repLodsEaxA64 ⟨[], [], none⟩)
      ∧ decode .mode64 true [0x67, 0xF3, 0x48, 0xAD] = .ok (.repLodsRaxA32 ⟨[.addrSize], [], some ⟨true, false, false, false⟩⟩) :=
  ⟨rfl, rfl, rfl, rfl, rfl, rfl, rfl, rfl, rfl, rfl, rfl⟩

theorem test_decode_rep_stos :
    decode (.modeCL .d16 .d32) true [0xF3, 0xAA] = .ok (.repStosM8 .a16 ⟨[], [], none⟩)
      ∧ decode .mode64 true [0x67, 0xF3, 0xAA] = .ok (.repStosM8 .a32 ⟨[.addrSize], [], none⟩)
      ∧ decode .mode64 true [0xF3, 0x48, 0xAA] = .ok (.repStosM8A64 ⟨[], [], some ⟨true, false, false, false⟩⟩)
      ∧ decode (.modeCL .d16 .d16) true [0xF3, 0xAB] = .ok (.repStosM16 .a16 ⟨[], [], none⟩)
      ∧ decode .mode64 true [0x67, 0x66, 0xF3, 0xAB] = .ok (.repStosM16 .a32 ⟨[.addrSize, .opSize], [], none⟩)
      ∧ decode (.modeCL .d16 .d32) true [0xF3, 0xAB] = .ok (.repStosM32 .a16 ⟨[], [], none⟩)
      ∧ decode .mode64 true [0x67, 0xF3, 0xAB] = .ok (.repStosM32 .a32 ⟨[.addrSize], [], none⟩)
      ∧ decode .mode64 true [0xF3, 0x48, 0xAB] = .ok (.repStosM64A64 ⟨[], [], some ⟨true, false, false, false⟩⟩)
      ∧ decode .mode64 true [0x66, 0xF3, 0xAB] = .ok (.repStosM16A64 ⟨[.opSize], [], none⟩)
      ∧ decode .mode64 true [0xF3, 0xAB] = .ok (.repStosM32A64 ⟨[], [], none⟩)
      ∧ decode .mode64 true [0x67, 0xF3, 0x48, 0xAB] = .ok (.repStosM64A32 ⟨[.addrSize], [], some ⟨true, false, false, false⟩⟩) :=
  ⟨rfl, rfl, rfl, rfl, rfl, rfl, rfl, rfl, rfl, rfl, rfl⟩

theorem test_decode_repe_cmps :
    decode (.modeCL .d16 .d32) true [0xF3, 0xA6] = .ok (.repeCmpsM8 .a16 ⟨[], [], none⟩)
      ∧ decode .mode64 true [0x67, 0xF3, 0xA6] = .ok (.repeCmpsM8 .a32 ⟨[.addrSize], [], none⟩)
      ∧ decode .mode64 true [0xF3, 0x48, 0xA6] = .ok (.repeCmpsM8A64 ⟨[], [], some ⟨true, false, false, false⟩⟩)
      ∧ decode (.modeCL .d16 .d16) true [0xF3, 0xA7] = .ok (.repeCmpsM16 .a16 ⟨[], [], none⟩)
      ∧ decode .mode64 true [0x67, 0x66, 0xF3, 0xA7] = .ok (.repeCmpsM16 .a32 ⟨[.addrSize, .opSize], [], none⟩)
      ∧ decode (.modeCL .d16 .d32) true [0xF3, 0xA7] = .ok (.repeCmpsM32 .a16 ⟨[], [], none⟩)
      ∧ decode .mode64 true [0x67, 0xF3, 0xA7] = .ok (.repeCmpsM32 .a32 ⟨[.addrSize], [], none⟩)
      ∧ decode .mode64 true [0xF3, 0x48, 0xA7] = .ok (.repeCmpsM64A64 ⟨[], [], some ⟨true, false, false, false⟩⟩)
      ∧ decode .mode64 true [0x66, 0xF3, 0xA7] = .ok (.repeCmpsM16A64 ⟨[.opSize], [], none⟩)
      ∧ decode .mode64 true [0xF3, 0xA7] = .ok (.repeCmpsM32A64 ⟨[], [], none⟩)
      ∧ decode .mode64 true [0x67, 0xF3, 0x48, 0xA7] = .ok (.repeCmpsM64A32 ⟨[.addrSize], [], some ⟨true, false, false, false⟩⟩) :=
  ⟨rfl, rfl, rfl, rfl, rfl, rfl, rfl, rfl, rfl, rfl, rfl⟩

theorem test_decode_repe_scas :
    decode (.modeCL .d16 .d32) true [0xF3, 0xAE] = .ok (.repeScasM8 .a16 ⟨[], [], none⟩)
      ∧ decode .mode64 true [0x67, 0xF3, 0xAE] = .ok (.repeScasM8 .a32 ⟨[.addrSize], [], none⟩)
      ∧ decode .mode64 true [0xF3, 0x48, 0xAE] = .ok (.repeScasM8A64 ⟨[], [], some ⟨true, false, false, false⟩⟩)
      ∧ decode (.modeCL .d16 .d16) true [0xF3, 0xAF] = .ok (.repeScasM16 .a16 ⟨[], [], none⟩)
      ∧ decode .mode64 true [0x67, 0x66, 0xF3, 0xAF] = .ok (.repeScasM16 .a32 ⟨[.addrSize, .opSize], [], none⟩)
      ∧ decode (.modeCL .d16 .d32) true [0xF3, 0xAF] = .ok (.repeScasM32 .a16 ⟨[], [], none⟩)
      ∧ decode .mode64 true [0x67, 0xF3, 0xAF] = .ok (.repeScasM32 .a32 ⟨[.addrSize], [], none⟩)
      ∧ decode .mode64 true [0xF3, 0x48, 0xAF] = .ok (.repeScasM64A64 ⟨[], [], some ⟨true, false, false, false⟩⟩)
      ∧ decode .mode64 true [0x66, 0xF3, 0xAF] = .ok (.repeScasM16A64 ⟨[.opSize], [], none⟩)
      ∧ decode .mode64 true [0xF3, 0xAF] = .ok (.repeScasM32A64 ⟨[], [], none⟩)
      ∧ decode .mode64 true [0x67, 0xF3, 0x48, 0xAF] = .ok (.repeScasM64A32 ⟨[.addrSize], [], some ⟨true, false, false, false⟩⟩) :=
  ⟨rfl, rfl, rfl, rfl, rfl, rfl, rfl, rfl, rfl, rfl, rfl⟩

theorem test_decode_repne_cmps :
    decode (.modeCL .d16 .d32) true [0xF2, 0xA6] = .ok (.repneCmpsM8 .a16 ⟨[], [], none⟩)
      ∧ decode .mode64 true [0x67, 0xF2, 0xA6] = .ok (.repneCmpsM8 .a32 ⟨[.addrSize], [], none⟩)
      ∧ decode .mode64 true [0xF2, 0x48, 0xA6] = .ok (.repneCmpsM8A64 ⟨[], [], some ⟨true, false, false, false⟩⟩)
      ∧ decode (.modeCL .d16 .d16) true [0xF2, 0xA7] = .ok (.repneCmpsM16 .a16 ⟨[], [], none⟩)
      ∧ decode .mode64 true [0x67, 0x66, 0xF2, 0xA7] = .ok (.repneCmpsM16 .a32 ⟨[.addrSize, .opSize], [], none⟩)
      ∧ decode (.modeCL .d16 .d32) true [0xF2, 0xA7] = .ok (.repneCmpsM32 .a16 ⟨[], [], none⟩)
      ∧ decode .mode64 true [0x67, 0xF2, 0xA7] = .ok (.repneCmpsM32 .a32 ⟨[.addrSize], [], none⟩)
      ∧ decode .mode64 true [0xF2, 0x48, 0xA7] = .ok (.repneCmpsM64A64 ⟨[], [], some ⟨true, false, false, false⟩⟩)
      ∧ decode .mode64 true [0x66, 0xF2, 0xA7] = .ok (.repneCmpsM16A64 ⟨[.opSize], [], none⟩)
      ∧ decode .mode64 true [0xF2, 0xA7] = .ok (.repneCmpsM32A64 ⟨[], [], none⟩)
      ∧ decode .mode64 true [0x67, 0xF2, 0x48, 0xA7] = .ok (.repneCmpsM64A32 ⟨[.addrSize], [], some ⟨true, false, false, false⟩⟩) :=
  ⟨rfl, rfl, rfl, rfl, rfl, rfl, rfl, rfl, rfl, rfl, rfl⟩

theorem test_decode_repne_scas :
    decode (.modeCL .d16 .d32) true [0xF2, 0xAE] = .ok (.repneScasM8 .a16 ⟨[], [], none⟩)
      ∧ decode .mode64 true [0x67, 0xF2, 0xAE] = .ok (.repneScasM8 .a32 ⟨[.addrSize], [], none⟩)
      ∧ decode .mode64 true [0xF2, 0x48, 0xAE] = .ok (.repneScasM8A64 ⟨[], [], some ⟨true, false, false, false⟩⟩)
      ∧ decode (.modeCL .d16 .d16) true [0xF2, 0xAF] = .ok (.repneScasM16 .a16 ⟨[], [], none⟩)
      ∧ decode .mode64 true [0x67, 0x66, 0xF2, 0xAF] = .ok (.repneScasM16 .a32 ⟨[.addrSize, .opSize], [], none⟩)
      ∧ decode (.modeCL .d16 .d32) true [0xF2, 0xAF] = .ok (.repneScasM32 .a16 ⟨[], [], none⟩)
      ∧ decode .mode64 true [0x67, 0xF2, 0xAF] = .ok (.repneScasM32 .a32 ⟨[.addrSize], [], none⟩)
      ∧ decode .mode64 true [0xF2, 0x48, 0xAF] = .ok (.repneScasM64A64 ⟨[], [], some ⟨true, false, false, false⟩⟩)
      ∧ decode .mode64 true [0x66, 0xF2, 0xAF] = .ok (.repneScasM16A64 ⟨[.opSize], [], none⟩)
      ∧ decode .mode64 true [0xF2, 0xAF] = .ok (.repneScasM32A64 ⟨[], [], none⟩)
      ∧ decode .mode64 true [0x67, 0xF2, 0x48, 0xAF] = .ok (.repneScasM64A32 ⟨[.addrSize], [], some ⟨true, false, false, false⟩⟩) :=
  ⟨rfl, rfl, rfl, rfl, rfl, rfl, rfl, rfl, rfl, rfl, rfl⟩

/-- Vectors DV5, DV13, DV14, DV15, DV24, DV26, DV27, DV29. -/
theorem test_decode_prefix_vectors :
    decode .mode64 true [0xF3, 0x67, 0xA4] = .ok (.repMovsM8 .a32 ⟨[], [.addrSize], none⟩)
      ∧ decode (.modeCL .d32 .d16) true [0x66, 0xF3, 0xA5] = .ok (.repMovsM32 .a32 ⟨[.opSize], [], none⟩)
      ∧ decode .mode64 true [0x66, 0xF3, 0x48, 0xA5] = .ok (.repMovsM64A64 ⟨[.opSize], [], some ⟨true, false, false, false⟩⟩)
      ∧ decode .mode64 true [0xF3, 0x48, 0x6D] = .ok (.repInsRm32A64 ⟨[], [], some ⟨true, false, false, false⟩⟩)
      ∧ decode (.modeCL .d16 .d16) true [0xF3, 0x2E, 0xA4] = .ok (.repMovsM8 .a16 ⟨[], [.seg .cs], none⟩)
      ∧ decode .mode64 true [0xF3, 0x41, 0xA4] = .ok (.repMovsM8A64 ⟨[], [], some ⟨false, false, false, true⟩⟩)
      ∧ decode .mode64 true [0xF3, 0x4F, 0xA5] = .ok (.repMovsM64A64 ⟨[], [], some ⟨true, true, true, true⟩⟩)
      ∧ decode .mode64 true [0xF3, 0x64, 0xA5] = .ok (.repMovsM32A64 ⟨[], [.seg .fs], none⟩) :=
  ⟨rfl, rfl, rfl, rfl, rfl, rfl, rfl, rfl⟩

/-- Vectors DV8, DV17 to DV23, DV28, DV33, and DV9 where unlisted forms are not admitted. -/
theorem test_decode_refusals :
    decode (.modeCL .d32 .d32) true [0xF3, 0x48, 0xA5] = .error .notInScope
      ∧ decode .mode64 true [0x66, 0xF3, 0x48, 0x6D] = .error .rexwAnd66OnIo
      ∧ decode .mode64 true [0xF2, 0xA4] = .error .f2OnNonCompare
      ∧ decode .mode64 true [0xF3, 0xF2, 0xA6] = .error .twoRepeatPrefixes
      ∧ decode .mode64 true [0xF3, 0x90] = .error .notInScope
      ∧ decode .mode64 true [0xF3, 0x0F, 0xB8, 0xC1] = .error .notInScope
      ∧ decode .mode64 true [0xA4] = .error .unprefixedString
      ∧ decode .mode64 true [0xF0, 0xF3, 0xA4] = .error .lockPrefix
      ∧ decode .mode64 true [0xF3, 0x48, 0x67, 0xA4] = .error .notInScope
      ∧ decode .mode64 true [0x66, 0x66, 0xF3, 0xA5] = .error .repeatedPrefix
      ∧ decode .mode64 false [0xF3, 0xA5] = .error .formNotListed
      ∧ decode .mode64 true [0xF3] = .error .truncated :=
  ⟨rfl, rfl, rfl, rfl, rfl, rfl, rfl, rfl, rfl, rfl, rfl, rfl⟩

/-- Words as spec/opcode_table.json numbers them: the first byte most significant. -/
theorem test_table_words :
    decodeTableWord 24 0xF348A4 = some (.repMovsM8A64 ⟨[], [], some ⟨true, false, false, false⟩⟩)
      ∧ decodeTableWord 16 0xF36C = some (.repInsM8A64 p0)
      ∧ decodeTableWord 32 0x67F248AF = some (.repneScasM64A32 ⟨[.addrSize], [], some ⟨true, false, false, false⟩⟩) :=
  ⟨rfl, rfl, rfl⟩

/-- The longest instruction and its bytes. -/
theorem test_encode_six_bytes :
    encode (.repMovsM64A32 ⟨[.opSize, .seg .gs], [.addrSize], some ⟨true, false, true, false⟩⟩)
        = [0x66, 0x65, 0xF3, 0x67, 0x4A, 0xA5]
      ∧ wellFormed .mode64 (.repMovsM64A32 ⟨[.opSize, .seg .gs], [.addrSize], some ⟨true, false, true, false⟩⟩) = true := by
  decide

/-- The first instruction placed after reset runs: a zero count completes. -/
theorem test_table_word_runs :
    (nextOf (step (State.withFetchWord State.reset 24 0xF348A4))).map (fun t => (t.rip, t.rcx)) = some (0xFFF3, 0) := by
  decide

/-! Flags: vectors F1, F4, F6, F12, F17, F21. -/

theorem test_sub_flags :
    subFlags .b8 0 0 = ⟨false, true, false, true, false, false⟩
      ∧ subFlags .b8 0x80 1 = ⟨false, false, true, false, false, true⟩
      ∧ subFlags .b8 0x7F 0x80 = ⟨true, true, false, false, true, true⟩
      ∧ subFlags .b16 0x8000 1 = ⟨false, true, true, false, false, true⟩
      ∧ subFlags .b32 0 0x80000000 = ⟨true, true, false, false, true, true⟩
      ∧ subFlags .b64 0 0xFFFFFFFFFFFFFFFF = ⟨true, false, true, false, false, false⟩ := by decide

/-! Single steps. -/

/-- 64-bit mode, the instruction at 400000H. -/
def s64 : State :=
  { State.reset with
    rip := 0x400000
    launch := { State.reset.launch with mode := .mode64, a32Upper := .keep } }

/-- 32-bit compatibility or legacy mode, all bases 0. -/
def s32 : State :=
  { State.reset with
    rip := 0x400000
    launch := { State.reset.launch with mode := .modeCL .d32 .d32, bases := ⟨0, 0, 0, 0, 0, 0⟩ } }

/-- 16-bit mode, the instruction at 7C00H, DS at 10000H and ES at 20000H. -/
def s16 : State :=
  { State.reset with
    rip := 0x7C00
    launch := { State.reset.launch with bases := ⟨0x20000, 0, 0, 0x10000, 0, 0⟩ } }

/-- A program's bytes at their address, in memory and as the launch's parameter (R171 item 5). -/
def withBytes (s : State) (a : Nat) (bs : List Byte) : State :=
  let load (m : Memory) : Memory := (List.range bs.length).foldl (fun m k => writeByte m (a + k) (bs.getD k 0)) m
  { s with
    mem := load s.mem
    launch := { s.launch with program := load s.launch.program } }

/-- Row 1 (vector I1): the byte from the port is stored, and the event recorded. -/
theorem test_step_ins :
    (nextOf (step (withBytes { s32 with rcx := 2, rdi := 0x1000, rdx := 0x60, ioInput := [0x1AA, 0xBB] } 0x400000
        [0xF3, 0x6C]))).map (fun t => (readByte t.mem 0x1000, t.ioTrace, t.rcx, t.rdi, t.rip))
      = some (some 0xAA, [.input 0x60 1 0xAA], 1, 0x1001, 0x400000) := by decide

/-- Row 5 (vector I3): a doubleword is stored little-endian and the instruction completes. -/
theorem test_step_ins_doubleword :
    (nextOf (step (withBytes { s64 with rcx := 1, rdi := 0x1000, rdx := 0xCFC, ioInput := [0x11223344] } 0x400000
        [0xF3, 0x6D]))).map (fun t => ((readByte t.mem 0x1000, readByte t.mem 0x1003), t.rcx, t.rdi, t.rip))
      = some ((some 0x44, some 0x11), 0, 0x1004, 0x400002) := by decide

/-- Row 7 (vector M2): a copy one byte up re-reads what it wrote. -/
theorem test_step_movs :
    (nextOf (step (withBytes { s64 with rcx := 1, rsi := 0x1001, rdi := 0x1002, mem := [(0x1001, 9), (0x1002, 1)] }
        0x400000 [0xF3, 0xA4]))).map (fun t => (readByte t.mem 0x1002, t.rsi, t.rdi, t.rip))
      = some (some 9, 0x1002, 0x1003, 0x400002) := by decide

/-- Row 8 in 16-bit mode, downward: SI wraps inside the segment, the upper bits of RSI stay. -/
theorem test_step_movs_word_down :
    (nextOf (step (withBytes
        { s16 with
          rcx := 0x50002, rsi := 0x70000, rdi := 0x10, df := true
          mem := [(0x10000, 0x5A), (0x10001, 0xA5)] } 0x7C00 [0xF3, 0xA5]))).map
        (fun t => ((readByte t.mem 0x20010, readByte t.mem 0x20011), t.rsi, t.rdi, t.rcx))
      = some ((some 0x5A, some 0xA5), 0x7FFFE, 0xE, 0x50001) := by decide

/-- Row 13 (vector O2): a word is assembled little-endian and sent. -/
theorem test_step_outs :
    (nextOf (step (withBytes { s16 with rcx := 1, rdx := 0x1F0, mem := [(0x10000, 0xCD), (0x10001, 0xAB)] } 0x7C00
        [0xF3, 0x6F]))).map (fun t => (t.ioTrace, t.rsi, t.rip))
      = some ([.output 0x1F0 2 0xABCD], 2, 0x7C02) := by decide

/-- Row 17 (vector L1): AL alone is written. -/
theorem test_step_lods :
    (nextOf (step (withBytes { s64 with rcx := 2, rsi := 0x1000, rax := 0xFFFFFFFFFFFFFF00, mem := [(0x1000, 1)] }
        0x400000 [0xF3, 0xAC]))).map (fun t => (t.rax, t.rsi)) = some (0xFFFFFFFFFFFFFF01, 0x1001) := by decide

/-- U7 (vector L3): EAX in 64-bit mode clears bits 63:32. -/
theorem test_step_lods_eax :
    (nextOf (step (withBytes
        { s64 with
          rcx := 1, rsi := 0x1000, rax := 0xFFFFFFFFFFFFFFFF
          mem := [(0x1000, 0x78), (0x1001, 0x56), (0x1002, 0x34), (0x1003, 0x12)] } 0x400000 [0xF3, 0xAD]))).map
        (fun t => (t.rax, t.rsi)) = some (0x12345678, 0x1004) := by decide

/-- Row 25 (vector S4): all of RAX is stored. -/
theorem test_step_stos :
    (nextOf (step (withBytes { s64 with rcx := 1, rdi := 0x1000, rax := 0x1234567890ABCDEF } 0x400000
        [0xF3, 0x48, 0xAB]))).map (fun t => ((readByte t.mem 0x1000, readByte t.mem 0x1007), t.rdi, t.rip))
      = some ((some 0xEF, some 0x12), 0x1008, 0x400003) := by decide

/-- Row 21 with 67H under `A32Upper = keep` (the open-parameter vector of 95_test_vectors.md). -/
theorem test_step_stos_a32 :
    (nextOf (step (withBytes { s64 with rcx := 0xFFFFFFFF00000001, rdi := 0xAAAAAAAA00001000, rax := 0x5A } 0x400000
        [0x67, 0xF3, 0xAA]))).map (fun t => (readByte t.mem 0x1000, t.rcx, t.rdi, t.rip))
      = some (some 0x5A, 0xFFFFFFFF00000000, 0xAAAAAAAA00001001, 0x400003) := by decide

/-- Row 26 (vector P7): a difference on the last byte ends the compare with count 0 and ZF 0. -/
theorem test_step_repe_cmps :
    (nextOf (step (withBytes { s32 with rcx := 2, rsi := 0x1000, rdi := 0x2000, mem := [(0x1000, 5), (0x2000, 6)] }
        0x400000 [0xF3, 0xA6]))).map (fun t => (t.status, t.rcx, t.rip))
      = some (⟨true, true, true, false, true, false⟩, 1, 0x400002) := by decide

/-- Row 36: REPNE goes on over a difference. -/
theorem test_step_repne_cmps :
    (nextOf (step (withBytes { s32 with rcx := 2, rsi := 0x1000, rdi := 0x2000, mem := [(0x1000, 5), (0x2000, 6)] }
        0x400000 [0xF2, 0xA6]))).map (fun t => (t.status.zf, t.rsi, t.rdi, t.rip))
      = some (false, 0x1001, 0x2001, 0x400000) := by decide

/-- Row 31: REPE goes on over an equal byte. -/
theorem test_step_repe_scas :
    (nextOf (step (withBytes { s32 with rcx := 2, rdi := 0x2000, rax := 0x101, mem := [(0x2000, 1)] } 0x400000
        [0xF3, 0xAE]))).map (fun t => (t.status.zf, t.rcx, t.rdi, t.rip)) = some (true, 1, 0x2001, 0x400000) := by decide

/-- Row 41 (vector P11): REPNE stops on the match, one element past it. -/
theorem test_step_repne_scas :
    (nextOf (step (withBytes { s32 with rcx := 0xFFFFFFFF, rdi := 0x2000, mem := [(0x2000, 0)] } 0x400000
        [0xF2, 0xAE]))).map (fun t => (t.status.zf, t.rcx, t.rdi, t.rip))
      = some (true, 0xFFFFFFFE, 0x2001, 0x400002) := by decide

/-- The source operand of MOVS through FS in 64-bit mode (vector M12). -/
theorem test_step_segment_override :
    (nextOf (step (withBytes
        { s64 with
          rcx := 1, rsi := 0x10, rdi := 0x2000, mem := [(0x100010, 0xC1)]
          launch := { s64.launch with bases := ⟨1, 2, 3, 4, 0x100000, 5⟩ } } 0x400000 [0x64, 0xF3, 0xA4]))).map
        (fun t => readByte t.mem 0x2000) = some (some 0xC1) := by decide

/-- An interrupt in the window: the element waits, and the transparent handler changes nothing (R80, R159). -/
theorem test_step_interrupt :
    (nextOf (step (withBytes { s64 with rcx := 1, rdi := 0x1000, windows := [some .identity] } 0x400000 [0xF3, 0xAA]))).map
        (fun t => (readByte t.mem 0x1000, t.rcx, t.rip, t.windows)) = some (none, 1, 0x400000, []) := by decide

/-- What a step ends with, for comparing faults and refusals. -/
def stopOf (r : Result) : Option (Option (Exn × Option Access) × Option Refusal) :=
  match r with
  | .next _ => none
  | .fault (.exception e x _) => some (some (e, x), none)
  | .fault _ => some (none, none)
  | .refused q => some (none, some q)

/-- Vector S6: a quadword that crosses the canonical boundary raises `#GP(0)`. -/
theorem test_step_non_canonical :
    stopOf (step (withBytes { s64 with rcx := 1, rdi := 0x7FFFFFFFFFFC } 0x400000 [0xF3, 0x48, 0xAB]))
      = some (some (.gp0, some ⟨0x7FFFFFFFFFFC, .write⟩), none) := by decide

/-- Vector M11: one byte of the element on a faulting page is enough. -/
theorem test_step_page_fault :
    stopOf (step (withBytes
        { s32 with
          rcx := 1, rsi := 0x1000, rdi := 0x2FFD
          launch := { s32.launch with memRules := [⟨.write, .range 0x3000 0x3FFF, .exn (.pf 2)⟩] } } 0x400000 [0xF3, 0xA5]))
      = some (some (.pf 2, some ⟨0x2FFD, .write⟩), none) := by decide

/-- Vector I9: a port that is not permitted. -/
theorem test_step_port_denied :
    stopOf (step (withBytes { s32 with rcx := 2, rdx := 0x60, launch := { s32.launch with ioDenied := [(0x60, 1)] } }
        0x400000 [0xF3, 0x6C])) = some (some (.gp0, none), none) := by decide

/-- Vector M13: an element that straddles the wrap of the offsets. -/
theorem test_step_straddle :
    stopOf (step (withBytes { s16 with rcx := 1, rsi := 0xFFFF, rdi := 0x100 } 0x7C00 [0xF3, 0xA5]))
      = some (none, some .elementStraddle) := by decide

/-- A store into a later instruction: memory has it, the program does not (R45, D14). -/
theorem test_step_store_into_later_code :
    (nextOf (step (withBytes { s64 with rcx := 1, rdi := 0x400002, rax := 0x90 } 0x400000 [0xF3, 0xAA, 0xF3, 0xA4]))).map
        (fun t => (readByte t.mem 0x400002, fetch t)) = some (some 0x90, [0xF3, 0xA4]) := by decide

/-- A read of a byte nothing has written (log entry 4). -/
theorem test_step_unwritten :
    stopOf (step (withBytes { s64 with rcx := 1, rsi := 0x1000 } 0x400000 [0xF3, 0xAC]))
      = some (none, some (.unwrittenByte 0x1000)) := by decide

/-- The order of R149 step 2 on one access, whatever the order of the rules. -/
theorem test_mem_fault_order :
    memFault { s64.launch with
        memRules := [⟨.read, .range 0 9, .exn (.pf 0)⟩, ⟨.read, .range 3 9, .exn .ac0⟩, ⟨.read, .range 3 9, .exn .ss0⟩] }
        .read 0 4 = some (.exn .ss0)
      ∧ memFault { s64.launch with memRules := [⟨.read, .range 0 9, .exn (.pf 0)⟩, ⟨.read, .range 3 9, .exn .ac0⟩] }
        .read 0 4 = some (.exn .ac0) := by decide

/-! Ends of a run (R172). -/

/-- REP STOS m8 of two bytes with the exit address just past it. -/
def sRun : State :=
  let s := withBytes { s64 with rcx := 2, rdi := 0x1000, rax := 7 } 0x400000 [0xF3, 0xAA]
  { s with launch := { s.launch with exitAddress := some 0x400002 } }

/-- How a run ended, and three fields of its final state. -/
def endOf (o : Option Observation) : Option (RunEnd × Word × Word × Option Byte) :=
  o.map fun x => (x.ended, x.final.rip, x.final.rcx, readByte x.final.mem 0x1001)

theorem test_run_completed :
    endOf (run 3 sRun) = some (.completed, 0x400002, 0, some 7) ∧ run 1 sRun = none := by decide

/-- Without an exit address the same run ends refused, past the program (R172 d). -/
theorem test_run_past_program :
    endOf (run 3 { sRun with launch := { sRun.launch with exitAddress := none } })
      = some (.refused .outsideProgram, 0x400002, 0, some 7) := by decide

/-- A store into the executing instruction (R45). -/
theorem test_step_store_into_code :
    stopOf (step (withBytes { s64 with rcx := 1, rdi := 0x400001 } 0x400000 [0xF3, 0xAA]))
      = some (none, some .storeIntoInstruction) := by decide

/-! Witnesses: for each statement with hypotheses, a state and operands that meet them together, clause by clause. -/

/-- A six-byte instruction of 64-bit mode, with a prefix of every group. -/
def i6 : Instr := .repMovsM64A32 ⟨[.opSize, .seg .gs], [.addrSize], some ⟨true, false, true, false⟩⟩

theorem witness_DecodeOfEncode :
    (wellFormed .mode64 i6 = true ∧ (false || i6.listed) = false ∧ (true || i6.listed) = true)
      ∧ wellFormed (.modeCL .d16 .d32) (.repStosM8 .a16 p0) = true ∧ (false || (Instr.repStosM8 .a16 p0).listed) = true := by
  decide

theorem witness_EncodeOfDecode : decode .mode64 true (encode i6 ++ [0x90]) = .ok i6 := rfl

theorem witness_InstructionLength :
    wellFormed .mode64 i6 = true ∧ i6.ilen = 6 ∧ wellFormed .mode64 (.repMovsM8A64 p0) = true
      ∧ (Instr.repMovsM8A64 p0).ilen = 2 := by decide

theorem witness_DecodedRowsAreEncodable : decode (.modeCL .d32 .d32) true [0xF3, 0xAB] = .ok (.repStosM32 .a32 p0) := rfl

theorem witness_UnlistedFormsNeedAdmission :
    (decode .mode64 true [0xF3, 0xA5] = .ok (.repMovsM32A64 p0) ∧ (Instr.repMovsM32A64 p0).listed = false)
      ∧ decode .mode64 true [0xF3, 0xA4] = .ok (.repMovsM8A64 p0) ∧ (Instr.repMovsM8A64 p0).listed = true :=
  ⟨⟨rfl, rfl⟩, rfl, rfl⟩

theorem witness_RepneNeedsComparison :
    i6.pre.oneEach = true ∧ i6.pre.rexAllowed .mode64 = true
      ∧ (0xAD : Byte) ∈ ([0x6C, 0x6D, 0x6E, 0x6F, 0xA4, 0xA5, 0xAA, 0xAB, 0xAC, 0xAD] : List Byte)
      ∧ (0xA6 : Byte) ∈ ([0xA6, 0xA7, 0xAE, 0xAF] : List Byte)
      ∧ decode .mode64 false [0xF2, 0xA6] = .ok (.repneCmpsM8A64 p0) := ⟨rfl, rfl, by decide, by decide, rfl⟩

theorem witness_LockAndTwoRepeatsRefused : wellFormed .mode64 i6 = true := by decide

theorem witness_RexKeepsAddressSize :
    decode .mode64 true ([Legacy.addrSize].map legacyByte ++ [repeatByte .rep] ++ [].map legacyByte
        ++ (none : Option Rex).toList.map rexByte ++ opcodeByte .movs .b32 :: []) = .ok (.repMovsM32 .a32 ⟨[.addrSize], [], none⟩)
      ∧ decode .mode64 true ([Legacy.addrSize].map legacyByte ++ [repeatByte .rep] ++ [].map legacyByte
        ++ (some (Rex.mk true false false false)).toList.map rexByte ++ opcodeByte .movs .b64 :: [])
          = .ok (.repMovsM64A32 ⟨[.addrSize], [], some ⟨true, false, false, false⟩⟩) := ⟨rfl, rfl⟩

theorem witness_LinearAddress :
    (s64.launch.mode = .mode64 ∧ SegReg.ss ≠ .fs ∧ SegReg.ss ≠ .gs ∧ s16.launch.mode = .modeCL .d16 .d16)
      ∧ i6.pre.oneEach = true ∧ Legacy.seg .gs ∈ i6.pre.before ++ i6.pre.after ∧ p0.oneEach = true
      ∧ ∀ r, Legacy.seg r ∉ p0.before ++ p0.after := by
  refine ⟨by decide, by decide, by decide, by decide, fun r => by simp [p0]⟩

/-- A doubleword in memory, at the top of the offsets of 16-bit code. -/
def m4 : Memory := [(0x1FFFC, 1), (0x1FFFD, 2), (0x1FFFE, 3), (0x1FFFF, 4)]

theorem witness_MemoryIsLittleEndian : readElem .b32 0x1FFFC { s16 with mem := m4 } = .ok 0x04030201 := rfl

theorem witness_MemFaultPriority :
    (memFault { s64.launch with memRules := [⟨.read, .range 3 9, .exn .ac0⟩, ⟨.read, .range 3 9, .exn .gp0⟩] } .read 0 4
        = some (.exn .gp0)
      ∧ ruleHit s64.launch ⟨.read, .range 3 9, .exn .ac0⟩ .read 0 4 = some 3)
    ∧ memFault { s32.launch with memRules := [⟨.write, .range 0x3000 0x3FFF, .exn (.pf 2)⟩] } .write 0x2FFD 4
      = some (.exn (.pf 2)) := ⟨⟨rfl, rfl⟩, rfl⟩

theorem witness_ZeroCountCompletes :
    encodable s16.launch.mode .b8 .a16 = true ∧ countReg .a16 { s16 with rcx := 0x10000 } = 0#64
      ∧ encodable s64.launch.mode .b64 .a32 = true ∧ countReg .a32 { s64 with rcx := 0x100000000 } = 0#64 := by decide

theorem witness_InterruptWindow :
    encodable s64.launch.mode .b8 .a64 = true ∧ countReg .a64 { s64 with rcx := 1 } ≠ 0#64
      ∧ ({ s64 with rcx := 1, windows := [some .identity] } : State).windows = some .identity :: []
      ∧ countReg .a64 { s64 with rcx := 1, windows := [some (.leaves 1 2 3 4 5 s64.status true [(9, 9)] []), none] } ≠ 0#64
      ∧ ({ s64 with rcx := 1, windows := [some (.leaves 1 2 3 4 5 s64.status true [(9, 9)] []), none] } : State).windows
          = some (.leaves 1 2 3 4 5 s64.status true [(9, 9)] []) :: [none] := by decide

/-- An INS that completes. -/
def sIns : State := { s64 with rcx := 2, rdi := 0x1000, rdx := 0x60, ioInput := [0x1AA] }

/-- A state with equal bytes at both operands. -/
def sMem : State := { s64 with rcx := 2, rsi := 0x1000, rdi := 0x2000, rax := 7, mem := [(0x1000, 7), (0x2000, 7)] }

/-- The same with different bytes. -/
def sMem' : State := { s64 with rcx := 2, rsi := 0x1000, rdi := 0x2000, rax := 7, mem := [(0x1000, 7), (0x2000, 8)] }

theorem witness_EveryIterationAdvances :
    (quiet sMem = true ∧ entered .b8 .a64 sMem ∧ ∃ t, exec (.repMovsM8A64 p0) sMem = .next t)
      ∧ (entered .b8 .a64 sIns ∧ ∃ t, exec (.repInsM8A64 p0) sIns = .next t)
      ∧ (entered .b8 .a64 sMem ∧ ∃ t, exec (.repLodsAlA64 p0) sMem = .next t) := by
  refine ⟨⟨rfl, by unfold entered; decide, _, rfl⟩, ⟨by unfold entered; decide, _, rfl⟩, by unfold entered; decide, _, rfl⟩

theorem witness_IterationFrames :
    (entered .b8 .a64 sIns ∧ ∃ t, exec (.repInsM8A64 p0) sIns = .next t)
      ∧ (entered .b8 .a64 sMem ∧ ∃ t, exec (.repOutsM8A64 p0) sMem = .next t)
      ∧ (entered .b8 .a64 sMem ∧ ∃ t, exec (.repneScasM8A64 p0) sMem = .next t)
      ∧ (entered .b8 .a64 sMem ∧ ∃ t, exec (.repStosM8A64 p0) sMem = .next t) := by
  refine ⟨⟨?_, _, rfl⟩, ⟨?_, _, rfl⟩, ⟨?_, _, rfl⟩, ?_, _, rfl⟩ <;> unfold entered <;> decide

theorem witness_FlagsNeedNoInitialisation :
    (∃ t, exec (.repneScasM8A64 p0) sMem = .next t) ∧ entered .b8 .a64 sMem
      ∧ (∃ t, exec (.repneScasM8A64 p0) { sMem with rcx := 0 } = .next t)
      ∧ countReg .a64 { sMem with rcx := 0 } = 0#64 := by
  unfold entered
  exact ⟨⟨_, rfl⟩, by decide, ⟨_, rfl⟩, by decide⟩

theorem witness_InsIteration :
    (Instr.repInsM8A64 p0).form = ⟨.rep, .ins, .b8, .a64⟩ ∧ entered .b8 .a64 sIns ∧ ioPermitted .b8 sIns = true
      ∧ accessOk sIns.launch .write .es .b8 .a64 (dstIdx .a64 sIns) ∧ hitsCode .b8 2 (dstAddr .a64 sIns) sIns = false := by
  unfold entered accessOk; decide

theorem witness_MovsIteration :
    (Instr.repMovsM8A64 p0).form = ⟨.rep, .movs, .b8, .a64⟩ ∧ entered .b8 .a64 sMem
      ∧ accessOk sMem.launch .read .ds .b8 .a64 (srcIdx .a64 sMem)
      ∧ accessOk sMem.launch .write .es .b8 .a64 (dstIdx .a64 sMem)
      ∧ readElem .b8 (srcAddr .a64 .ds sMem) sMem = .ok 7 ∧ hitsCode .b8 2 (dstAddr .a64 sMem) sMem = false := by
  unfold entered accessOk; exact ⟨rfl, by decide, by decide, by decide, rfl, by decide⟩

theorem witness_OutsIteration :
    (Instr.repOutsM8A64 p0).form = ⟨.rep, .outs, .b8, .a64⟩ ∧ entered .b8 .a64 sMem ∧ ioPermitted .b8 sMem = true
      ∧ accessOk sMem.launch .read .ds .b8 .a64 (srcIdx .a64 sMem)
      ∧ readElem .b8 (srcAddr .a64 .ds sMem) sMem = .ok 7 := by
  unfold entered accessOk; exact ⟨rfl, by decide, by decide, by decide, rfl⟩

theorem witness_LodsIteration :
    ((Instr.repLodsAlA64 p0).form = ⟨.rep, .lods, .b8, .a64⟩ ∧ entered .b8 .a64 sMem
      ∧ accessOk sMem.launch .read .ds .b8 .a64 (srcIdx .a64 sMem)
      ∧ readElem .b8 (srcAddr .a64 .ds sMem) sMem = .ok 7)
      ∧ (Instr.repLodsEax .a16 ⟨[.opSize], [], none⟩).form = ⟨.rep, .lods, .b32, .a16⟩
      ∧ entered .b32 .a16 { s16 with rcx := 1, rsi := 0xFFFC, mem := m4 }
      ∧ accessOk s16.launch .read .ds .b32 .a16 0xFFFC
      ∧ readElem .b32 (srcAddr .a16 .ds { s16 with rsi := 0xFFFC }) { s16 with mem := m4 } = .ok 0x04030201 := by
  unfold entered accessOk
  exact ⟨⟨rfl, by decide, by decide, rfl⟩, rfl, by decide, by decide, rfl⟩

theorem witness_StosIteration :
    (Instr.repStosM8A64 p0).form = ⟨.rep, .stos, .b8, .a64⟩ ∧ entered .b8 .a64 sMem
      ∧ accessOk sMem.launch .write .es .b8 .a64 (dstIdx .a64 sMem) ∧ hitsCode .b8 2 (dstAddr .a64 sMem) sMem = false := by
  unfold entered accessOk; decide

theorem witness_CmpsIteration :
    ((Instr.repeCmpsM8A64 p0).form = ⟨.repe, .cmps, .b8, .a64⟩ ∧ (Instr.repneCmpsM8A64 p0).form = ⟨.repne, .cmps, .b8, .a64⟩)
      ∧ entered .b8 .a64 sMem ∧ accessOk sMem.launch .read .ds .b8 .a64 (srcIdx .a64 sMem)
      ∧ accessOk sMem.launch .read .es .b8 .a64 (dstIdx .a64 sMem)
      ∧ readElem .b8 (srcAddr .a64 .ds sMem) sMem = .ok 7 ∧ readElem .b8 (dstAddr .a64 sMem) sMem = .ok 7
      ∧ readElem .b8 (dstAddr .a64 sMem') sMem' = .ok 8 := by
  unfold entered accessOk; exact ⟨⟨rfl, rfl⟩, by decide, by decide, by decide, rfl, rfl, rfl⟩

theorem witness_ScasIteration :
    ((Instr.repeScasM8A64 p0).form = ⟨.repe, .scas, .b8, .a64⟩ ∧ (Instr.repneScasM8A64 p0).form = ⟨.repne, .scas, .b8, .a64⟩)
      ∧ entered .b8 .a64 sMem ∧ accessOk sMem.launch .read .es .b8 .a64 (dstIdx .a64 sMem)
      ∧ readElem .b8 (dstAddr .a64 sMem) sMem = .ok 7 ∧ readElem .b8 (dstAddr .a64 sMem') sMem' = .ok 8 := by
  unfold entered accessOk; exact ⟨⟨rfl, rfl⟩, by decide, by decide, rfl, rfl⟩

theorem witness_LoopIsRepeatedStep :
    wellFormed .mode64 (.repStosM8A64 p0) = true ∧ encodable sMem.launch.mode .b8 .a64 = true
      ∧ countReg .a64 sMem ≠ 0#64 ∧ quietFor (countReg .a64 sMem).toNat sMem = true
      ∧ ∃ t, whileLoop (.repStosM8A64 p0) sMem = .next t := by
  exact ⟨by decide, by decide, by decide, by decide, _, rfl⟩

theorem witness_RegistersAfterIterations :
    quietFor 2 sMem = true ∧ 2 ≤ (countReg .a64 sMem).toNat ∧ (∃ t, execTimes 2 (.repStosM8A64 p0) sMem = .next t)
      ∧ ∃ t, execTimes 1 (.repMovsM8A64 p0) sMem = .next t := ⟨by decide, by decide, ⟨_, rfl⟩, _, rfl⟩

/-- The offsets of a run, as 64-bit numbers. -/
def offs (a : AddrSize) (df : Bool) (w : OpSize) (start k : Nat) : Word := BitVec.ofNat 64 (offsetAfter a df w k start)

theorem offs_toNat (a : AddrSize) (df : Bool) (w : OpSize) (start k : Nat) :
    (offs a df w start k).toNat = offsetAfter a df w k start := by
  have h : offsetAfter a df w k start < 2 ^ a.bits := by
    unfold offsetAfter
    split <;> exact Nat.mod_lt _ (by positivity)
  have h' : 2 ^ a.bits ≤ 2 ^ 64 := by cases a <;> decide
  rw [offs, BitVec.toNat_ofNat, Nat.mod_eq_of_lt (Nat.lt_of_lt_of_le h h')]

/-- DI wraps from FFFFH to 0 in this run. -/
def sWrap : State := { s16 with rcx := 2, rdi := 0xFFFF, rax := 0x5A }

theorem witness_RepStosFillsBytes :
    (Instr.repStosM8 .a16 p0).form = ⟨.rep, .stos, .b8, .a16⟩ ∧ encodable sWrap.launch.mode .b8 .a16 = true
      ∧ countReg .a16 sWrap ≠ 0#64 ∧ quietFor (countReg .a16 sWrap).toNat sWrap = true
      ∧ (∀ k, (offs .a16 false .b8 0xFFFF k).toNat = offsetAfter .a16 sWrap.df .b8 k (dstIdx .a16 sWrap).toNat)
      ∧ (∀ k, k < (countReg .a16 sWrap).toNat → accessOk sWrap.launch .write .es .b8 .a16 (offs .a16 false .b8 0xFFFF k)
        ∧ hitsCode .b8 2 (lin sWrap.launch .es (offs .a16 false .b8 0xFFFF k)) sWrap = false) := by
  refine ⟨rfl, by decide, by decide, by decide, fun k => offs_toNat _ _ _ _ k, ?_⟩
  unfold accessOk
  decide

theorem witness_RepMovsCopiesBytes :
    (Instr.repMovsM8A64 p0).form = ⟨.rep, .movs, .b8, .a64⟩ ∧ encodable sMem.launch.mode .b8 .a64 = true
      ∧ countReg .a64 { sMem with rcx := 1 } ≠ 0#64 ∧ quietFor (countReg .a64 { sMem with rcx := 1 }).toNat sMem = true
      ∧ (∀ k, (offs .a64 false .b8 0x1000 k).toNat = offsetAfter .a64 sMem.df .b8 k (srcIdx .a64 sMem).toNat)
      ∧ (∀ k, (offs .a64 false .b8 0x2000 k).toNat = offsetAfter .a64 sMem.df .b8 k (dstIdx .a64 sMem).toNat)
      ∧ (∀ k, k < (countReg .a64 { sMem with rcx := 1 }).toNat →
        accessOk sMem.launch .read .ds .b8 .a64 (offs .a64 false .b8 0x1000 k)
          ∧ accessOk sMem.launch .write .es .b8 .a64 (offs .a64 false .b8 0x2000 k)
          ∧ hitsCode .b8 2 (lin sMem.launch .es (offs .a64 false .b8 0x2000 k)) sMem = false
          ∧ readByte sMem.mem (lin sMem.launch .ds (offs .a64 false .b8 0x1000 k)).toNat = some ((fun _ => 7) k))
      ∧ ∀ j k, j < (countReg .a64 { sMem with rcx := 1 }).toNat → k < (countReg .a64 { sMem with rcx := 1 }).toNat →
        lin sMem.launch .ds (offs .a64 false .b8 0x1000 j) ≠ lin sMem.launch .es (offs .a64 false .b8 0x2000 k) := by
  refine ⟨rfl, by decide, by decide, by decide, fun k => offs_toNat _ _ _ _ k, fun k => offs_toNat _ _ _ _ k, ?_, ?_⟩
  · unfold accessOk; decide
  · intro j k hj hk
    have hj' : j = 0 := Nat.lt_one_iff.mp hj
    have hk' : k = 0 := Nat.lt_one_iff.mp hk
    subst hj' hk'
    decide

/-- A scan whose second byte differs from AL, downward. -/
def sScan : State := { s64 with rcx := 3, rdi := 0x2001, rax := 7, df := true, mem := [(0x2000, 8), (0x2001, 7)] }

/-- The bytes the scan meets. -/
def scanned : Nat → Word
  | 0 => 7
  | _ => 8

theorem witness_ScasStopsAtFirst :
    ((Instr.repeScasM8A64 p0).form = ⟨.repe, .scas, .b8, .a64⟩ ∧ encodable sScan.launch.mode .b8 .a64 = true)
      ∧ 1 < (countReg .a64 sScan).toNat ∧ quietFor 2 sScan = true
      ∧ (∀ k, (offs .a64 true .b8 0x2001 k).toNat = offsetAfter .a64 sScan.df .b8 k (dstIdx .a64 sScan).toNat)
      ∧ (∀ k, k ≤ 1 → accessOk sScan.launch .read .es .b8 .a64 (offs .a64 true .b8 0x2001 k)
        ∧ readElem .b8 (lin sScan.launch .es (offs .a64 true .b8 0x2001 k)) sScan = .ok (scanned k))
      ∧ (∀ k, k < 1 → (RepKind.repe = .repe → scanned k = acc .b8 sScan) ∧ (RepKind.repe = .repne → scanned k ≠ acc .b8 sScan))
      ∧ (RepKind.repe = .repe → scanned 1 ≠ acc .b8 sScan) ∧ (RepKind.repe = .repne → scanned 1 = acc .b8 sScan) := by
  refine ⟨⟨rfl, by decide⟩, by decide, by decide, fun k => offs_toNat _ _ _ _ k, ?_, by decide, by decide, by decide⟩
  intro k hk
  unfold accessOk
  match k, hk with
  | 0, _ => exact ⟨by decide, rfl⟩
  | 1, _ => exact ⟨by decide, rfl⟩

/-- REPNE SCAS that finds its byte on the first element of two. -/
theorem witness_ScasStopsAtFirst_repne :
    ((Instr.repneScasM8A64 p0).form = ⟨.repne, .scas, .b8, .a64⟩ ∧ encodable sMem.launch.mode .b8 .a64 = true)
      ∧ 0 < (countReg .a64 sMem).toNat ∧ quietFor 1 sMem = true
      ∧ (∀ k, (offs .a64 false .b8 0x2000 k).toNat = offsetAfter .a64 sMem.df .b8 k (dstIdx .a64 sMem).toNat)
      ∧ (∀ k, k ≤ 0 → accessOk sMem.launch .read .es .b8 .a64 (offs .a64 false .b8 0x2000 k)
        ∧ readElem .b8 (lin sMem.launch .es (offs .a64 false .b8 0x2000 k)) sMem = .ok 7)
      ∧ (RepKind.repne = .repne → (7 : Word) = acc .b8 sMem) := by
  refine ⟨⟨rfl, by decide⟩, by decide, by decide, fun k => offs_toNat _ _ _ _ k, ?_, by decide⟩
  intro k hk
  unfold accessOk
  match k, hk with
  | 0, _ => exact ⟨by decide, rfl⟩

/-! Faults. -/

/-- The launch of `s64` with one page not present. -/
def pfAt (first last : Nat) (kind : AccessKind) : Launch :=
  { s64.launch with memRules := [⟨kind, .range first last, .exn (.pf 0)⟩] }

/-- Both operands of a string instruction at 1000H and 2000H, the page at 2000H not readable. -/
def sPf : State := { sMem with launch := pfAt 0x2000 0x2FFF .read }

theorem witness_FaultStateKept :
    (∃ f, exec (.repeCmpsM8A64 p0) sPf = .fault f)
      ∧ (∃ f, exec (.repInsM8A64 p0) { sIns with launch := pfAt 0x1000 0x1FFF .write } = .fault f)
      ∧ ∃ f, exec (.repLodsAlA64 p0) { sMem with launch := pfAt 0x1000 0x1FFF .read } = .fault f :=
  ⟨⟨_, rfl⟩, ⟨_, rfl⟩, _, rfl⟩

theorem witness_PortNotPermitted :
    ((Instr.repInsM8A64 p0).form.op = .ins ∨ (Instr.repInsM8A64 p0).form.op = .outs)
      ∧ entered .b8 .a64 { sIns with launch := { s64.launch with ioDenied := [(0x60, 1)] } }
      ∧ ioPermitted .b8 { sIns with launch := { s64.launch with ioDenied := [(0x60, 1)] } } = false := by
  unfold entered; decide

/-- Both operands at the first byte that is not canonical. -/
def sNon : State := { s64 with rcx := 1, rsi := 0x800000000000, rdi := 0x800000000000 }

/-- The last byte that is canonical: a byte there is accessible, a word is not canonical. -/
def sEdge : State := { s64 with rcx := 1, rsi := 0x7FFFFFFFFFFF, rdi := 0x1000 }

theorem witness_NonCanonicalOperand :
    (entered .b16 .a64 sEdge ∧ straddles .b16 .a64 (srcIdx .a64 sEdge) = false
      ∧ allCanonical sEdge.launch (srcAddr .a64 .ds sEdge) 2 = false
      ∧ accessOk sEdge.launch .write .es .b16 .a64 (dstIdx .a64 sEdge))
      ∧ (entered .b8 .a64 sNon ∧ straddles .b8 .a64 (dstIdx .a64 sNon) = false
      ∧ allCanonical sNon.launch (dstAddr .a64 sNon) 1 = false ∧ usesSource (Instr.repStosM8A64 p0).form.op = false) := by
  unfold entered accessOk; decide

theorem witness_RejectedAccess :
    (entered .b8 .a64 { sMem with launch := pfAt 0x1000 0x1000 .read }
      ∧ allCanonical (pfAt 0x1000 0x1000 .read) (srcAddr .a64 .ds sMem) 1 = true
      ∧ memFault (pfAt 0x1000 0x1000 .read) .read (srcAddr .a64 .ds sMem) 1 = some (.exn (.pf 0))
      ∧ accessOk (pfAt 0x1000 0x1000 .read) .write .es .b8 .a64 (dstIdx .a64 sMem))
      ∧ entered .b8 .a64 sPf ∧ allCanonical sPf.launch (dstAddr .a64 sPf) 1 = true
      ∧ memFault sPf.launch .read (dstAddr .a64 sPf) 1 = some (.exn (.pf 0))
      ∧ accessOk sPf.launch .read .ds .b8 .a64 (srcIdx .a64 sPf)
      ∧ memFault { s64.launch with memRules := [⟨.read, .element 0x2000 1, .vmExit⟩] } .read 0x2000 1 = some .vmExit := by
  unfold entered accessOk
  exact ⟨⟨by decide, by decide, rfl, by decide⟩, by decide, by decide, rfl, by decide, rfl⟩

theorem witness_InsRejectedWrite :
    (Instr.repInsM8A64 p0).form = ⟨.rep, .ins, .b8, .a64⟩
      ∧ entered .b8 .a64 { sIns with launch := pfAt 0x1000 0x1FFF .write }
      ∧ ioPermitted .b8 { sIns with launch := pfAt 0x1000 0x1FFF .write } = true
      ∧ straddles .b8 .a64 (dstIdx .a64 sIns) = false
      ∧ allCanonical (pfAt 0x1000 0x1FFF .write) (dstAddr .a64 { sIns with launch := pfAt 0x1000 0x1FFF .write }) 1 = true
      ∧ memFault (pfAt 0x1000 0x1FFF .write) .write (dstAddr .a64 { sIns with launch := pfAt 0x1000 0x1FFF .write }) 1
          = some (.exn (.pf 0))
      ∧ quiet sIns = true ∧ hitsCode .b8 2 (dstAddr .a64 sIns) sIns = false
      ∧ memFault (resume [] sIns).launch .write (dstAddr .a64 sIns) 1 = none := by
  unfold entered; exact ⟨rfl, by decide, by decide, by decide, by decide, rfl, rfl, by decide, rfl⟩

theorem witness_FaultOrderDecides :
    ((Instr.repMovsM8A64 p0).form.op = .movs ∨ (Instr.repMovsM8A64 p0).form.op = .cmps) ∧ entered .b8 .a64 sNon
      ∧ operand sNon.launch .read .ds .b8 .a64 (srcIdx .a64 sNon) = .raises (.exn .gp0) ⟨0x800000000000, .read⟩
      ∧ operand sNon.launch .write .es .b8 .a64 (dstIdx .a64 sNon) = .raises (.exn .gp0) ⟨0x800000000000, .write⟩ := by
  unfold entered; decide

/-- REPE SCAS over an equal byte, the next byte not readable. -/
def sTwo : State := { sMem with rcx := 2, rdi := 0x1FFF, mem := [(0x1FFF, 7)], launch := pfAt 0x2000 0x2FFF .read }

theorem witness_FaultFlagsImages :
    wellFormed .mode64 (.repeScasM8A64 p0) = true
      ∧ ((Instr.repeScasM8A64 p0).form.op = .cmps ∨ (Instr.repeScasM8A64 p0).form.op = .scas)
      ∧ sTwo.entryFlags = none ∧ quietFor 1 sTwo = true ∧ 1 < (countReg .a64 sTwo).toNat
      ∧ ∃ t f, runsOn 1 (.repeScasM8A64 p0) sTwo t ∧ exec (.repeScasM8A64 p0) t = .fault f :=
  ⟨by decide, by decide, rfl, by decide, by decide, _, _, ⟨_, rfl, rfl, rfl⟩, rfl⟩

theorem witness_ResumptionIsFreshExecution :
    ((Instr.repLodsAlA64 p0).form.op = .movs ∨ (Instr.repLodsAlA64 p0).form.op = .outs
        ∨ (Instr.repLodsAlA64 p0).form.op = .lods ∨ (Instr.repLodsAlA64 p0).form.op = .stos)
      ∧ ∃ f, exec (.repLodsAlA64 p0) { sMem with launch := pfAt 0x1000 0x1FFF .read } = .fault f :=
  ⟨by decide, _, rfl⟩

theorem witness_ResumedComparisonIgnoresImage :
    ((Instr.repeCmpsM8A64 p0).form.op = .cmps ∨ (Instr.repeCmpsM8A64 p0).form.op = .scas)
      ∧ (∃ f, exec (.repeCmpsM8A64 p0) sPf = .fault f ∧ quiet f.state = true)
      ∧ ∃ t, exec (.repeCmpsM8A64 p0)
        (resume [] { sPf with windows := sPf.windows.tail, entryFlags := none, draws := sPf.draws + 1 }) = .next t :=
  ⟨by decide, ⟨_, rfl, rfl⟩, _, rfl⟩

/-! The machine. -/

/-- REP STOS m8 at RIP, with a destination. -/
def sCode : State := withBytes { sMem with mem := [] } 0x400000 [0xF3, 0xAA]

theorem witness_NoHiddenState : ∃ t, step sCode = .next t := ⟨_, rfl⟩

theorem witness_StraddlingElementRefused :
    (entered .b16 .a16 { s16 with rcx := 1, rsi := 0xFFFF }
      ∧ usesSource (Instr.repLodsAx .a16 p0).form.op = true
      ∧ straddles .b16 .a16 (srcIdx .a16 { s16 with rcx := 1, rsi := 0xFFFF }) = true)
      ∧ entered .b16 .a16 { s16 with rcx := 1, rdi := 0xFFFF }
      ∧ usesDest (Instr.repInsM16 .a16 p0).form.op = true ∧ ioPermitted .b16 { s16 with rcx := 1, rdi := 0xFFFF } = true
      ∧ straddles .b16 .a16 (dstIdx .a16 { s16 with rcx := 1, rdi := 0xFFFF }) = true := by
  unfold entered; decide

/-- A store aimed at the opcode byte of a two-byte instruction at 400000H. -/
def sHit : State := { sMem with rdi := 0x400001 }

theorem witness_StoreIntoInstructionRefused :
    entered .b8 .a64 sHit ∧ accessOk sHit.launch .write .es .b8 .a64 (dstIdx .a64 sHit)
      ∧ accessOk sHit.launch .read .ds .b8 .a64 (srcIdx .a64 sHit) ∧ ioPermitted .b8 sHit = true
      ∧ (∃ v, readElem .b8 (srcAddr .a64 .ds sHit) sHit = .ok v)
      ∧ ∃ x, x ∈ byteAddrs sHit.launch (dstAddr .a64 sHit) 1 ∧ x ∈ byteAddrs sHit.launch (codeAddr sHit) 2 := by
  unfold entered accessOk
  exact ⟨by decide, by decide, by decide, by decide, ⟨_, rfl⟩, 0x400001, by decide, by decide⟩

theorem witness_StepRunsDecoded :
    atExit sCode = false ∧ decode sCode.launch.mode sCode.launch.admitUnlisted (fetch sCode) = .ok (.repStosM8A64 p0) ∧ codeFits 2 sCode = true :=
  ⟨rfl, rfl, by decide⟩

theorem witness_StepRunsEncodedBytes :
    atExit sCode = false ∧ wellFormed sCode.launch.mode (.repStosM8A64 p0) = true
      ∧ (sCode.launch.admitUnlisted || (Instr.repStosM8A64 p0).listed) = true
      ∧ programHas (.repStosM8A64 p0) sCode ∧ codeFits (Instr.repStosM8A64 p0).ilen sCode = true := by
  unfold programHas; decide

/-- The instruction's second byte is the first that is not canonical. -/
def sLast : State := withBytes { s64 with rip := 0x7FFFFFFFFFFF } 0x7FFFFFFFFFFF [0xF3, 0xAA]

theorem witness_StepStops :
    (sRun.launch.exitAddress = some 0x400002
      ∧ (ipView .mode64).get { sRun with rip := 0x400002 }.rip = (ipView .mode64).get 0x400002)
      ∧ (atExit sLast = false ∧ decode sLast.launch.mode sLast.launch.admitUnlisted (fetch sLast) = .ok (.repStosM8A64 p0)
        ∧ codeFits 2 sLast = false)
      ∧ (decode s64.launch.mode s64.launch.admitUnlisted (fetch (withBytes s64 0x400000 [0x90])) = .error .notInScope)
      ∧ readByte s64.launch.program (codeAddr s64).toNat = none :=
  ⟨⟨rfl, rfl⟩, ⟨rfl, rfl, by decide⟩, rfl, rfl⟩

theorem witness_StoresLeaveTheProgram : ∃ t, step sCode = .next t := ⟨_, rfl⟩

theorem witness_RunEndsAsObserved : ∃ o, run 2 sRun = some o := ⟨_, rfl⟩

theorem witness_RepeatRunsToCompletion :
    wellFormed sRun.launch.mode (.repStosM8A64 p0) = true
      ∧ (sRun.launch.admitUnlisted || (Instr.repStosM8A64 p0).listed) = true ∧ programHas (.repStosM8A64 p0) sRun
      ∧ codeFits 2 sRun = true ∧ sRun.launch.exitAddress = some (nextRip sRun.launch.mode sRun.rip 2)
      ∧ quietFor (countReg .a64 sRun).toNat sRun = true ∧ ∃ t, whileLoop (.repStosM8A64 p0) sRun = .next t := by
  unfold programHas; exact ⟨by decide, by decide, by decide, by decide, by decide, by decide, _, rfl⟩

theorem witness_WholeMachineKeeps : (∃ t, step sCode = .next t) ∧ quiet sCode = true := ⟨⟨_, rfl⟩, by decide⟩

theorem witness_InvariantKept : StateInv sCode ∧ ∃ t, step sCode = .next t := ⟨by unfold StateInv; decide, _, rfl⟩

end Sys2Proof.Tests
end

section
/-! PROOFS. The family 00_scope.md: canonical addresses (R7), which rows a mode can encode (R4 to R6, R64), port
permission (R8, R153), and what no step changes (R4, R16, R23, R25). -/

namespace Sys2Proof

/-! Decoding. -/

/-- What a decoded instruction says of its bytes, read back along the loop of R68. -/
theorem decode_ok_inv {m : Mode} {allow : Bool} {bs : List Byte} {i : Instr} (h : decode m allow bs = .ok i) :
    ∃ (r : RepByte) (rest tl : List Byte) (opc : Byte) (isByte : Bool),
      scanPrefixes bs ⟨none, [], []⟩ = .ok (⟨some r, i.pre.before, i.pre.after⟩, rest)
        ∧ takeRex m rest = (i.pre.rex, opc :: tl)
        ∧ stringOf opc = some (i.form.op, isByte)
        ∧ kindOf i.form.op r = some i.form.kind
        ∧ opSizeOf m i.form.op isByte i.pre.rexW i.pre.has66 = some i.form.w
        ∧ addrSizeOf m i.pre.has67 = i.form.a
        ∧ (allow || i.listed) = true := by
  unfold decode at h
  split at h
  · cases h
  next sc rest hscan =>
  split at h
  · cases h
  next opc tl hrex =>
  split at h
  · cases h
  next op isByte hop =>
  split at h
  · cases h
  next r hrep =>
  split at h
  · cases h
  next kind hkind =>
  dsimp only at h
  split at h
  · cases h
  next w hw =>
  split at h
  · cases h
  next j hrow =>
  split at h
  next hlisted =>
    cases h
    obtain ⟨hform, hpre⟩ := rowOf_inv _ _ _ hrow
    rw [hform, hpre]
    obtain ⟨rep, before, after⟩ := sc
    obtain rfl : rep = some r := hrep
    exact ⟨r, rest, tl, opc, isByte, hscan, Prod.ext rfl hrex, hop, hkind, hw, rfl, hlisted⟩
  · cases h

/-- No REX byte is taken outside 64-bit mode (R54). -/
theorem rexAllowed_of_takeRex {m : Mode} {bs rest : List Byte} {p : Prefixes} (h : takeRex m bs = (p.rex, rest)) :
    p.rexAllowed m = true := by
  cases m with
  | mode64 => rfl
  | modeCL d o => simp [Prefixes.rexAllowed, (takeRex_inv _ _ _ _ h).2 d o rfl]

/-- The sizes of a decoded instruction are those its bytes give in the mode (R5, R6). -/
theorem sizesFit_of_decode {m : Mode} {allow : Bool} {bs : List Byte} {i : Instr} (h : decode m allow bs = .ok i) :
    addrSizeFits m i.form.a i.pre = true ∧ opSizeFits m i.form.op i.form.w i.pre = true := by
  obtain ⟨_, _, _, _, isByte, -, hrex, -, -, hw, ha, -⟩ := decode_ok_inv h
  have hfits := fits_of_opSizeOf m i.form.op isByte i.form.w i.pre (rexAllowed_of_takeRex hrex) hw
  exact ⟨ha ▸ fits_of_addrSizeOf m i.pre, hfits.1⟩

namespace Machine

/-- The sizes that the bytes of an instruction can give in a mode are encodable in it (R4, R64). -/
theorem encodable_of_sizesFit {m : Mode} {op : StringOp} {w : OpSize} {a : AddrSize} {p : Prefixes}
    (ha : addrSizeFits m a p = true) (hw : opSizeFits m op w p = true) : encodable m w a = true := by
  cases m with
  | mode64 =>
    have : a ≠ .a16 := by rintro rfl; simp [addrSizeFits] at ha
    simpa [encodable] using this
  | modeCL d o =>
    have ha64 : a ≠ .a64 := by rintro rfl; simp [addrSizeFits] at ha
    have hw64 : w ≠ .b64 := by rintro rfl; simp [opSizeFits] at hw
    simpa [encodable] using ⟨ha64, hw64⟩

theorem encodable_of_decode {m : Mode} {allow : Bool} {bs : List Byte} {i : Instr} (h : decode m allow bs = .ok i) :
    encodable m i.form.w i.form.a = true :=
  have ⟨ha, hw⟩ := sizesFit_of_decode h
  encodable_of_sizesFit ha hw

/-! Which refusals the shared operations can answer. -/

theorem andThen_refused_inv {x : Result} {f : State → Result} {r : Refusal} (h : andThen x f = .refused r) :
    x = .refused r ∨ ∃ s, x = .next s ∧ f s = .refused r := by
  cases x with
  | next s => exact .inr ⟨s, rfl, h⟩
  | fault e => cases h
  | refused e => exact .inl h

theorem withElem_refused_inv {x : Except Nat Word} {f : Word → Result} {r : Refusal}
    (h : withElem x f = .refused r) : (∃ a, r = .unwrittenByte a) ∨ ∃ v, x = .ok v ∧ f v = .refused r := by
  cases x with
  | ok v => exact .inr ⟨v, rfl, h⟩
  | error a => cases h; exact .inl ⟨a, rfl⟩

theorem takeException_ne_refused (c : Bool) (e : MemEvent) (x : Option Access) (s : State) (r : Refusal) :
    takeException c e x s ≠ .refused r := by
  obtain ⟨f, hf, -⟩ := takeException_state c e x s
  simp [hf]

theorem storeElem_refused_inv {w : OpSize} {ilen : Nat} {a v : Word} {s : State} {r : Refusal}
    (h : storeElem w ilen a v s = .refused r) : r = .storeIntoInstruction := by
  unfold storeElem at h
  split at h <;> cases h
  rfl

theorem address_refused_inv {l : Launch} {kind : AccessKind} {seg : SegReg} {w : OpSize} {a : AddrSize} {off : Word}
    {r : Refusal} (h : address l kind seg w a off = .refused r) : r = .elementStraddle := by
  unfold address at h
  split at h
  · cases h; rfl
  · split at h <;> cases h

theorem operand_refused_inv {l : Launch} {kind : AccessKind} {seg : SegReg} {w : OpSize} {a : AddrSize} {off : Word}
    {r : Refusal} (h : operand l kind seg w a off = .refused r) : r = .elementStraddle := by
  unfold operand at h
  split at h
  · split at h <;> cases h
  · exact address_refused_inv h

theorem withOperand_refused_inv {c : Bool} {o : Operand} {s : State} {f : Word → Result} {r : Refusal}
    (h : withOperand c o s f = .refused r) : o = .refused r ∨ ∃ a, f a = .refused r := by
  cases o with
  | at' a => exact .inr ⟨a, h⟩
  | raises e x => exact absurd h (takeException_ne_refused c e (some x) s r)
  | refused e => cases h; exact .inl rfl

theorem withOperands_refused_inv {c : Bool} {o o' : Operand} {s : State} {f : Word → Word → Result} {r : Refusal}
    (h : withOperands c o o' s f = .refused r) : o = .refused r ∨ o' = .refused r ∨ ∃ a b, f a b = .refused r := by
  unfold withOperands at h
  split at h
  · cases h; exact .inl rfl
  · cases h; exact .inr (.inl rfl)
  · exact .inr (.inr ⟨_, _, h⟩)
  · exact absurd h (takeException_ne_refused _ _ _ _ _)
  · exact absurd h (takeException_ne_refused _ _ _ _ _)
  · split at h <;> exact absurd h (takeException_ne_refused _ _ _ _ _)

/-- The three stops of an element operation that have no meaning: R39, R45, and a byte that holds no value (log
entry 4). -/
def elementRefusal : Refusal → Prop
  | .elementStraddle => True
  | .storeIntoInstruction => True
  | .unwrittenByte _ => True
  | _ => False

section
variable {r : Refusal}

theorem elementRefusal_of_operand {l : Launch} {kind : AccessKind} {seg : SegReg} {w : OpSize} {a : AddrSize}
    {off : Word} (h : operand l kind seg w a off = .refused r) : elementRefusal r := by
  rw [operand_refused_inv h]; trivial

/-- A store of one element followed by updates that always go through. -/
theorem elementRefusal_of_store {w : OpSize} {ilen : Nat} {a v : Word} {s : State} {g : State → State}
    (h : (andThen (storeElem w ilen a v s) fun t => .next (g t)) = .refused r) : elementRefusal r := by
  obtain hst | ⟨_, -, hnext⟩ := andThen_refused_inv h
  · rw [storeElem_refused_inv hst]; trivial
  · cases hnext

/-- An element read, followed by what refuses only as an element operation does. -/
theorem elementRefusal_of_withElem {x : Except Nat Word} {f : Word → Result} (h : withElem x f = .refused r)
    (hf : ∀ v, f v = .refused r → elementRefusal r) : elementRefusal r := by
  obtain ⟨a, rfl⟩ | ⟨v, -, hv⟩ := withElem_refused_inv h
  · trivial
  · exact hf v hv

/-- One memory operand, followed by what refuses only as an element operation does. -/
theorem elementRefusal_of_withOperand {c : Bool} {l : Launch} {kind : AccessKind} {seg : SegReg} {w : OpSize}
    {a : AddrSize} {off : Word} {s : State} {f : Word → Result}
    (h : withOperand c (operand l kind seg w a off) s f = .refused r)
    (hf : ∀ x, f x = .refused r → elementRefusal r) : elementRefusal r := by
  obtain ho | ⟨x, hx⟩ := withOperand_refused_inv h
  · exact elementRefusal_of_operand ho
  · exact hf x hx

/-- Two memory operands, followed by what refuses only as an element operation does. -/
theorem elementRefusal_of_withOperands {c : Bool} {l l' : Launch} {kind kind' : AccessKind} {seg seg' : SegReg}
    {w w' : OpSize} {a a' : AddrSize} {off off' : Word} {s : State} {f : Word → Word → Result}
    (h : withOperands c (operand l kind seg w a off) (operand l' kind' seg' w' a' off') s f = .refused r)
    (hf : ∀ x y, f x y = .refused r → elementRefusal r) : elementRefusal r := by
  obtain ho | ho | ⟨x, y, hxy⟩ := withOperands_refused_inv h
  · exact elementRefusal_of_operand ho
  · exact elementRefusal_of_operand ho
  · exact hf x y hxy

theorem elementIns_refused {w : OpSize} {a : AddrSize} {ilen : Nat} {s : State}
    (h : elementIns w a ilen s = .refused r) : elementRefusal r := by
  unfold elementIns at h
  split at h
  · obtain ho | ⟨d, hd⟩ := withOperand_refused_inv h
    · rw [address_refused_inv ho]; trivial
    · split at hd
      · exact absurd hd (takeException_ne_refused _ _ _ _ _)
      · exact elementRefusal_of_store hd
  · exact absurd h (takeException_ne_refused _ _ _ _ _)

theorem elementOuts_refused {w : OpSize} {a : AddrSize} {seg : SegReg} {s : State}
    (h : elementOuts w a seg s = .refused r) : elementRefusal r := by
  unfold elementOuts at h
  split at h
  · exact elementRefusal_of_withOperand h fun _ hx => elementRefusal_of_withElem hx fun _ hv => nomatch hv
  · exact absurd h (takeException_ne_refused _ _ _ _ _)

/-- An element operation has no meaning in these three cases only (R39, R45; log entry 4). -/
theorem elementOf_refused {i : Instr} {s : State} (h : elementOf i s = .refused r) : elementRefusal r := by
  unfold elementOf at h
  cases hop : i.form.op <;> simp only [hop] at h
  case ins => exact elementIns_refused h
  case movs =>
    exact elementRefusal_of_withOperands h fun _ _ hx =>
      elementRefusal_of_withElem hx fun _ hv => elementRefusal_of_store hv
  case outs => exact elementOuts_refused h
  case lods => exact elementRefusal_of_withOperand h fun _ hx => elementRefusal_of_withElem hx fun _ hv => nomatch hv
  case stos => exact elementRefusal_of_withOperand h fun _ hx => elementRefusal_of_store hx
  case cmps =>
    exact elementRefusal_of_withOperands h fun _ _ hx =>
      elementRefusal_of_withElem hx fun _ hv => elementRefusal_of_withElem hv fun _ hy => nomatch hy
  case scas => exact elementRefusal_of_withOperand h fun _ hx => elementRefusal_of_withElem hx fun _ hv => nomatch hv

end

/-- The repeat step refuses a row its mode cannot encode, and otherwise only what its element operation refuses. -/
theorem repStep_refused_inv {kind : RepKind} {w : OpSize} {a : AddrSize} {ilen : Nat} {el : State → Result} {s : State}
    {r : Refusal} (h : repStep kind w a ilen el s = .refused r) :
    (encodable s.launch.mode w a = false ∧ r = .notEncodable)
      ∨ (encodable s.launch.mode w a = true ∧ el (enter s) = .refused r) := by
  unfold repStep at h
  split at h
  · next he =>
    split at h
    · cases h
    · split at h
      · cases h
      · obtain hel | ⟨_, -, hnext⟩ := andThen_refused_inv h
        · exact .inr ⟨he, hel⟩
        · cases hnext
  · next he => cases h; exact .inl ⟨by simpa using he, rfl⟩

/-- An encodable row is never refused as not encodable (log entry 23). -/
theorem exec_ne_notEncodable {i : Instr} {s : State} (he : encodable s.launch.mode i.form.w i.form.a = true) :
    exec i s ≠ .refused .notEncodable := by
  intro h
  rw [exec_eq] at h
  obtain ⟨hne, -⟩ | ⟨-, hel⟩ := repStep_refused_inv h
  · rw [he] at hne; cases hne
  · exact elementOf_refused hel

/-- A refusal of a step: nothing decodes, the instruction does not fit, or its execution is refused (R172 d). -/
theorem step_refused_inv {s : State} {r : Refusal} (h : step s = .refused r) :
    r = .outsideProgram ∨ (∃ e, r = .undecodable e) ∨ r = .codeStraddle
      ∨ ∃ i, fetchDecode s = .ok i ∧ exec i s = .refused r := by
  unfold step at h
  split at h
  · cases h
  · split at h
    · next i hi =>
      split at h
      · exact .inr (.inr (.inr ⟨i, hi, h⟩))
      · cases h; exact .inr (.inr (.inl rfl))
    · cases h; exact .inl rfl
    · next e _ _ => cases h; exact .inr (.inl ⟨e, rfl⟩)

/-- Settles O5: the bytes of an instruction give its sizes (R5, R6), REX is taken in 64-bit mode only, and no element
operation answers the repeat step's own refusal. -/
theorem decodedRowsAreEncodable : Obligations.DecodedRowsAreEncodable := by
  refine ⟨fun m allow bs i h => encodable_of_decode h, fun s h => ?_⟩
  obtain h' | ⟨_, h'⟩ | h' | ⟨i, hi, hex⟩ := step_refused_inv h
  · cases h'
  · cases h'
  · cases h'
  · exact exec_ne_notEncodable (encodable_of_decode hi) hex

/-! Canonical addresses. -/

/-- `Canonical(a)` (R7) on the signed number `a`: it fits in `VA_BITS` bits. -/
theorem canonical_iff_toInt (v : VaBits) (a : Word) :
    canonical v a = true ↔ -2 ^ (v.bits - 1) ≤ a.toInt ∧ a.toInt < 2 ^ (v.bits - 1) := by
  have htop : canonical v a = true ↔ a.toInt / 2 ^ (v.bits - 1) = 0 ∨ a.toInt / 2 ^ (v.bits - 1) = -1 := by
    simp [canonical, ← BitVec.toInt_inj, BitVec.toInt_sshiftRight, Int.shiftRight_eq_div_pow]
  rw [htop]
  cases v <;> simp only [VaBits.bits] <;> omega

/-- The two ends of the address space as numbers (R7, D9). -/
theorem canonical_iff_toNat (v : VaBits) (a : Word) :
    canonical v a = true ↔ a.toNat < 2 ^ (v.bits - 1) ∨ 2 ^ 64 - 2 ^ (v.bits - 1) ≤ a.toNat := by
  have hlt := a.isLt
  rw [canonical_iff_toInt, BitVec.toInt_eq_toNat_cond]
  cases v <;> simp only [VaBits.bits] <;> split <;> omega

/-- Settles O13, from the ranges of `Canonical` at 48 and at 57 bits. -/
theorem canonicalRanges : Obligations.CanonicalRanges :=
  fun a => ⟨canonical_iff_toNat .va48 a, canonical_iff_toNat .va57 a⟩

/-! Port permission. -/

theorem elementIns_notPermitted {w : OpSize} {a : AddrSize} {ilen : Nat} {s : State} (h : ioPermitted w s = false) :
    elementIns w a ilen s = .fault (.exception .gp0 none (faultState false s)) := by
  unfold elementIns
  rw [if_neg (by simp [h])]
  rfl

theorem elementOuts_notPermitted {w : OpSize} {a : AddrSize} {seg : SegReg} {s : State}
    (h : ioPermitted w s = false) :
    elementOuts w a seg s = .fault (.exception .gp0 none (faultState false s)) := by
  unfold elementOuts
  rw [if_neg (by simp [h])]
  rfl

/-- Both port instructions check the permission first (R149, R153). -/
theorem elementOf_notPermitted {i : Instr} {s : State} (hop : i.form.op = .ins ∨ i.form.op = .outs)
    (h : ioPermitted i.form.w s = false) :
    elementOf i s = .fault (.exception .gp0 none (faultState false s)) := by
  obtain hop | hop := hop
  · simp only [elementOf, hop, elementIns_notPermitted h]
  · simp only [elementOf, hop, elementOuts_notPermitted h]

@[simp] theorem ioPermitted_enter (w : OpSize) (s : State) : ioPermitted w (enter s) = ioPermitted w s := rfl

/-- The fault state of an iteration that has not begun is the state before it (R161). -/
theorem keptAtFault_enter (c : Bool) (s : State) : keptAtFault s (faultState c (enter s)) := by
  simp [keptAtFault]

/-- Settles O37: the permission check stands before every other check of the iteration. -/
theorem portNotPermitted : Obligations.PortNotPermitted := by
  intro i s hop hent hperm
  refine ⟨faultState false (enter s), ?_, keptAtFault_enter false s, rfl, rfl, rfl⟩
  rw [exec_iteration i s hent, elementOf_notPermitted hop (by simpa using hperm)]
  rfl

/-! What no step changes. -/

/-- The I/O trace has at most one event more. -/
def addsAtMostOneEvent (s t : State) : Prop := t.ioTrace = s.ioTrace ∨ ∃ e, t.ioTrace = s.ioTrace ++ [e]

/-- One element operation is at most one port access (R25, R87, R89). -/
theorem elementOf_addsAtMostOneEvent {i : Instr} {s u : State} (h : elementOf i s = .next u) :
    addsAtMostOneEvent s u := by
  unfold elementOf at h
  cases hop : i.form.op <;> simp only [hop] at h
  case ins => obtain ⟨-, -, -, rfl⟩ := elementIns_next_inv h; exact .inr ⟨_, rfl⟩
  case movs => obtain ⟨-, -, -, _, -, rfl⟩ := elementMovs_next_inv h; exact .inl rfl
  case outs => obtain ⟨-, -, _, -, rfl⟩ := elementOuts_next_inv h; exact .inr ⟨_, rfl⟩
  case lods => obtain ⟨-, _, -, rfl⟩ := elementLods_next_inv h; exact .inl rfl
  case stos => obtain ⟨-, -, rfl⟩ := elementStos_next_inv h; exact .inl rfl
  case cmps => obtain ⟨-, -, _, _, -, -, rfl⟩ := elementCmps_next_inv h; exact .inl rfl
  case scas => obtain ⟨-, _, -, rfl⟩ := elementScas_next_inv h; exact .inl rfl

/-- An interrupt handler only appends to the I/O trace (R25, R159). -/
theorem serviced_ioTrace_append (h : HandlerEffect) (s : State) : ∃ es, (serviced h s).ioTrace = s.ioTrace ++ es := by
  cases h with
  | identity => exact ⟨[], (List.append_nil _).symm⟩
  | leaves _ _ _ _ _ _ _ _ io => exact ⟨io, rfl⟩

/-- What an execution without an interrupt keeps (R16, R23, R25). -/
def keptWithoutInterrupt (s t : State) : Prop :=
  t.launch = s.launch ∧ t.df = s.df ∧ t.rdx = s.rdx ∧ addsAtMostOneEvent s t

theorem keptWithoutInterrupt_complete (a : AddrSize) (ilen : Nat) (s : State) :
    keptWithoutInterrupt s (complete ilen (zeroCount a s)) := by
  simp [keptWithoutInterrupt, addsAtMostOneEvent]

theorem keptWithoutInterrupt_iteration {i : Instr} {s u : State} (h : elementOf i (enter s) = .next u) :
    keptWithoutInterrupt s (endIteration i.form.kind i.form.a i.ilen u) := by
  obtain ⟨-, -, hrdx, hdf, hlaunch, -⟩ := elementOf_next i _ _ h
  have hio := elementOf_addsAtMostOneEvent h
  simpa [keptWithoutInterrupt, addsAtMostOneEvent] using ⟨hlaunch, hdf, hrdx, hio⟩

/-- A next state of a meaning: an execution without an interrupt, or an interrupt taken in the window (R77, R80). -/
theorem exec_next_kept {i : Instr} {s t : State} (h : exec i s = .next t) :
    keptWithoutInterrupt s t ∨ (quiet s = false ∧ ∃ x, t = serviced x s) := by
  rw [exec_eq] at h
  obtain ⟨-, ⟨-, rfl⟩ | ⟨-, x, rest, hw, rfl⟩ | ⟨-, u, hu, rfl⟩⟩ := repStep_next_inv h
  · exact .inl (keptWithoutInterrupt_complete _ _ _)
  · exact .inr ⟨by simp [quiet, hw], x, rfl⟩
  · exact .inl (keptWithoutInterrupt_iteration hu)

/-- Settles O50, from what one execution keeps and what an interrupt keeps. -/
theorem wholeMachineKeeps : Obligations.WholeMachineKeeps := by
  intro s t h
  obtain ⟨-, i, -, -, hex⟩ := step_next_inv h
  obtain ⟨hlaunch, hdf, hrdx, hio⟩ | ⟨hq, x, rfl⟩ := exec_next_kept hex
  · refine ⟨hlaunch, fun _ => ⟨hdf, hrdx⟩, fun _ => hio, ?_⟩
    obtain hio | ⟨e, hio⟩ := hio
    · exact ⟨[], by simpa using hio⟩
    · exact ⟨[e], hio⟩
  · exact ⟨serviced_launch s x, fun hq' => absurd hq' (by simp [hq]), fun hq' => absurd hq' (by simp [hq]),
      serviced_ioTrace_append x s⟩

end Machine

end Sys2Proof
end

section
/-! PROOFS. The family 10_state.md: register views (R11, R12), the instruction pointer (R19), what an iteration moves
and what it leaves (R20 to R25), no hidden state (R28), where a step stops (R172), the invariant and the state after
reset (R29). -/

namespace Sys2Proof.Machine

/-! Register views. -/

/-- Settles O10: each view is a truncation, AH that of the register shifted down. -/
theorem viewReads : Obligations.ViewReads := by
  intro r
  have hlow {n : Nat} (hn : n ≤ 64) : ((r.setWidth n).setWidth 64).toNat = r.toNat % 2 ^ n := by
    rw [BitVec.toNat_setWidth_of_le hn, BitVec.toNat_setWidth]
  have hhigh : (View.high8.get r).toNat = r.toNat / 2 ^ 8 % 2 ^ 8 := by
    rw [View.get, BitVec.toNat_setWidth_of_le (by decide), BitVec.extractLsb'_toNat, Nat.shiftRight_eq_div_pow]
  exact ⟨hlow (by decide), hhigh, hlow (by decide), hlow (by decide), rfl⟩

/-- A write into the low `n` bits: the new bits below `n`, the bits `hi` above (R12). -/
theorem getLsbD_append_setWidth {k n : Nat} (hi : BitVec k) (v : Word) (b : Nat) :
    (hi ++ v.setWidth n).getLsbD b = if b < n then v.getLsbD b else hi.getLsbD (b - n) := by
  rw [BitVec.getLsbD_append, BitVec.getLsbD_setWidth]
  split
  · next hb => simp [hb]
  · rfl

/-- The bits from `n` up, read at their place in the register (R11). -/
theorem getLsbD_extractLsb'_sub (old : Word) {k n b : Nat} (hn : n ≤ b) (hb : b < n + k) :
    (old.extractLsb' n k).getLsbD (b - n) = old.getLsbD b := by
  have hbk : b - n < k := by omega
  rw [BitVec.getLsbD_extractLsb', Nat.add_sub_cancel' hn]
  simp [hbk]

/-- A write into the low `n` bits that keeps the bits above them (R12). -/
theorem getLsbD_keep_upper (old v : Word) {k n b : Nat} (hb : b < n + k) :
    (old.extractLsb' n k ++ v.setWidth n).getLsbD b = if b < n then v.getLsbD b else old.getLsbD b := by
  rw [getLsbD_append_setWidth]
  split
  · rfl
  · next hn => exact getLsbD_extractLsb'_sub old (by omega) hb

theorem getLsbD_put_high8 (m : Mode) (old v : Word) {b : Nat} (hb : b < 64) :
    (View.high8.put m old v).getLsbD b = if 8 ≤ b ∧ b < 16 then v.getLsbD (b - 8) else old.getLsbD b := by
  show (old.extractLsb' 16 48 ++ v.setWidth 8 ++ old.setWidth 8).getLsbD b = _
  rw [getLsbD_append_setWidth, getLsbD_append_setWidth]
  by_cases hlow : b < 8
  · rw [if_pos hlow, if_neg (by omega)]
  rw [if_neg hlow]
  by_cases hmid : b < 16
  · rw [if_pos (by omega), if_pos (by omega)]
  rw [if_neg (by omega), if_neg (by omega), Nat.sub_sub]
  exact getLsbD_extractLsb'_sub old (by omega) (by omega)

theorem getLsbD_put_low32 (m : Mode) (old v : Word) {b : Nat} (hb : b < 64) :
    (View.low32.put m old v).getLsbD b =
      if b < 32 then v.getLsbD b else if m = .mode64 then false else old.getLsbD b := by
  cases m with
  | mode64 => exact (getLsbD_append_setWidth 0#32 v b).trans (by simp)
  | modeCL d o => exact (getLsbD_keep_upper old v hb).trans (by simp)

/-- Settles O11, view by view: the views at bit 0 keep or clear the bits above them, AH keeps those on both sides. -/
theorem viewWrites : Obligations.ViewWrites := fun m old v _ hb =>
  ⟨getLsbD_keep_upper old v hb, getLsbD_put_high8 m old v hb, getLsbD_keep_upper old v hb,
    getLsbD_put_low32 m old v hb, rfl⟩

/-! The instruction pointer. -/

/-- The number the instruction pointer of a mode holds (R18, R19). -/
theorem ipView_get_toNat (m : Mode) (r : Word) : ((ipView m).get r).toNat = r.toNat % 2 ^ ipBits m := by
  obtain ⟨-, -, h16, h32, -⟩ := viewReads r
  match m with
  | .mode64 => exact (Nat.mod_eq_of_lt r.isLt).symm
  | .modeCL _ .d32 => exact h32
  | .modeCL _ .d16 => exact h16

theorem ipBits_le (m : Mode) : ipBits m ≤ 64 := by
  match m with
  | .mode64 => exact le_refl 64
  | .modeCL _ .d32 => exact Nat.le_of_ble_eq_true rfl
  | .modeCL _ .d16 => exact Nat.le_of_ble_eq_true rfl

theorem nextRip_toNat (m : Mode) (rip : Word) (n : Nat) : (nextRip m rip n).toNat = (rip.toNat + n) % 2 ^ ipBits m := by
  rw [nextRip, ipView_get_toNat, BitVec.toNat_add, BitVec.toNat_ofNat, Nat.add_mod_mod,
    Nat.mod_mod_of_dvd _ (pow_dvd_pow 2 (ipBits_le m))]

/-- Settles O17: `RIP + ilen` in the three widths of the instruction pointer. -/
theorem instructionPointerAdvance : Obligations.InstructionPointerAdvance := fun rip n =>
  ⟨nextRip_toNat .mode64 rip n, fun d => ⟨nextRip_toNat (.modeCL d .d32) rip n, nextRip_toNat (.modeCL d .d16) rip n⟩⟩

/-- What the instruction pointer of a mode holds has no bit above it (R18). -/
theorem ipView_get_get (m : Mode) (r : Word) : (ipView m).get ((ipView m).get r) = (ipView m).get r :=
  BitVec.eq_of_toNat_eq (by simp only [ipView_get_toNat, Nat.mod_mod])

theorem ipView_get_nextRip (m : Mode) (rip : Word) (n : Nat) : (ipView m).get (nextRip m rip n) = nextRip m rip n :=
  ipView_get_get m _

/-! What an iteration moves and what it leaves unchanged. -/

/-- An execution that enters an iteration and goes on is its element operation and the end of the iteration (R77). -/
theorem exec_entered_inv {i : Instr} {s t : State} (hent : entered i.form.w i.form.a s) (h : exec i s = .next t) :
    ∃ u, elementOf i (enter s) = .next u ∧ t = endIteration i.form.kind i.form.a i.ilen u := by
  rw [exec_iteration i s hent] at h
  obtain ⟨u, hu, ht⟩ := andThen_next_inv h
  cases ht
  exact ⟨u, hu, rfl⟩

/-- No execution without an interrupt writes DF or RDX (R16, R23). -/
theorem exec_keeps_df_rdx {i : Instr} {s t : State} (hq : quiet s = true) (h : exec i s = .next t) :
    t.df = s.df ∧ t.rdx = s.rdx := by
  obtain ⟨-, hdf, hrdx, -⟩ | ⟨hq', -⟩ := exec_next_kept h
  · exact ⟨hdf, hrdx⟩
  · rw [hq] at hq'; cases hq'

/-- Settles O21: the element operation moves the indexes, the end of the iteration the count and RIP. -/
theorem everyIterationAdvances : Obligations.EveryIterationAdvances := by
  intro i s t hq h
  refine ⟨(exec_keeps_df_rdx hq h).1, fun hent => ?_⟩
  obtain ⟨u, hu, rfl⟩ := exec_entered_inv hent h
  obtain ⟨hrcx, hrip, hrdx, hdf, hlaunch, hwin, -, hsrc, hsrc', hdst, hdst'⟩ := elementOf_next i _ u hu
  refine ⟨afterIteration_endIteration _ _ _ _ s u hent hrcx hrip hrdx hdf hlaunch hwin, ?_⟩
  simpa [sourceMoved, destMoved, srcIdx, dstIdx] using ⟨hsrc, hsrc', hdst, hdst'⟩

/-- The fields that each family of element operations leaves unchanged (R20, R34, R97), and the one event of a port
instruction (R25). -/
def elementFrame (op : StringOp) (w : OpSize) (s u : State) : Prop :=
  (op ≠ .cmps → op ≠ .scas → u.status = s.status)
    ∧ (op ≠ .lods → u.rax = s.rax)
    ∧ (destKind op = .read → u.mem = s.mem)
    ∧ (op ≠ .ins → u.ioInput = s.ioInput)
    ∧ (op ≠ .ins → op ≠ .outs → u.ioTrace = s.ioTrace)
    ∧ (op = .ins → ∃ v, u.ioTrace = s.ioTrace ++ [.input (portReg s) w.bytes v])
    ∧ (op = .outs → ∃ v, u.ioTrace = s.ioTrace ++ [.output (portReg s) w.bytes v])

theorem elementOf_frame {i : Instr} {s u : State} (h : elementOf i s = .next u) :
    elementFrame i.form.op i.form.w s u := by
  unfold elementOf at h
  cases hop : i.form.op <;> simp only [hop] at h
  case ins => obtain ⟨-, -, -, rfl⟩ := elementIns_next_inv h; simp [elementFrame, destKind]
  case movs => obtain ⟨-, -, -, _, -, rfl⟩ := elementMovs_next_inv h; simp [elementFrame, destKind]
  case outs => obtain ⟨-, -, _, -, rfl⟩ := elementOuts_next_inv h; simp [elementFrame]
  case lods => obtain ⟨-, _, -, rfl⟩ := elementLods_next_inv h; simp [elementFrame]
  case stos => obtain ⟨-, -, rfl⟩ := elementStos_next_inv h; simp [elementFrame, destKind]
  case cmps => obtain ⟨-, -, _, _, -, -, rfl⟩ := elementCmps_next_inv h; simp [elementFrame]
  case scas => obtain ⟨-, _, -, rfl⟩ := elementScas_next_inv h; simp [elementFrame]

/-- Settles O22: the frame of the element operation, which the end of the iteration keeps. -/
theorem iterationFrames : Obligations.IterationFrames := by
  intro i s t hent h
  have ⟨_, _, hq⟩ := hent
  obtain ⟨hdf, hrdx⟩ := exec_keeps_df_rdx hq h
  refine ⟨hdf, hrdx, ?_⟩
  obtain ⟨u, hu, rfl⟩ := exec_entered_inv hent h
  simpa [elementFrame, portReg] using elementOf_frame hu

/-! No hidden state. -/

/-- The state with another record of the flags at the start of the execution: the model's own field of R83. -/
def withEntryFlags (e : Option StatusFlags) (s : State) : State := { s with entryFlags := e }

/-- The states differ at most in the record of the flags at the start of the execution. -/
def sameButEntryFlags (s t : State) : Prop := withEntryFlags s.entryFlags t = s

@[simp] theorem withEntryFlags_launch (e : Option StatusFlags) (s : State) :
    (withEntryFlags e s).launch = s.launch := rfl
@[simp] theorem withEntryFlags_status (e : Option StatusFlags) (s : State) :
    (withEntryFlags e s).status = s.status := rfl
@[simp] theorem countReg_withEntryFlags (a : AddrSize) (e : Option StatusFlags) (s : State) :
    countReg a (withEntryFlags e s) = countReg a s := rfl

theorem enter_withEntryFlags (e : Option StatusFlags) (s : State) :
    enter (withEntryFlags e s) = withEntryFlags (some (e.getD s.status)) (enter s) := rfl

theorem serviced_withEntryFlags (h : HandlerEffect) (e : Option StatusFlags) (s : State) :
    serviced h (withEntryFlags e s) = serviced h s := by cases h <;> rfl

/-- The two cases of an execution of zero iterations (R73, R86). -/
theorem zeroCount_eq (a : AddrSize) (s : State) :
    zeroCount a s =
      if a = .a32 ∧ s.launch.mode = .mode64 ∧ s.launch.a32Upper = .any then setCount a (countReg a s) s else s := by
  unfold zeroCount
  split
  · next hm hu => rw [if_pos ⟨rfl, hm, hu⟩]
  · next hne => rw [if_neg fun ⟨ha, hm, hu⟩ => hne ha hm hu]

theorem complete_zeroCount_withEntryFlags (a : AddrSize) (ilen : Nat) (e : Option StatusFlags) (s : State) :
    complete ilen (zeroCount a (withEntryFlags e s)) = complete ilen (zeroCount a s) := by
  rw [zeroCount_eq, zeroCount_eq, withEntryFlags_launch]
  split <;> rfl

theorem endIteration_withEntryFlags (kind : RepKind) (a : AddrSize) (ilen : Nat) (e : Option StatusFlags) (u : State) :
    sameButEntryFlags (endIteration kind a ilen u) (endIteration kind a ilen (withEntryFlags e u)) := by
  have hset (v : Word) : setCount a v (withEntryFlags e u) = withEntryFlags e (setCount a v u) := rfl
  simp only [endIteration_eq, hset, countReg_withEntryFlags, withEntryFlags_status]
  split <;> rfl

/-- No element operation that goes through reads or writes the record (R83 speaks of a fault alone). -/
theorem elementOf_withEntryFlags {i : Instr} {s u : State} (e : Option StatusFlags) (h : elementOf i s = .next u) :
    elementOf i (withEntryFlags e s) = .next (withEntryFlags e u) := by
  unfold elementOf at h ⊢
  cases hop : i.form.op <;> simp only [hop] at h ⊢
  case ins =>
    obtain ⟨hp, hd, hc, rfl⟩ := elementIns_next_inv h
    exact elementIns_of_ok (s := withEntryFlags e s) hp hd hc
  case movs =>
    obtain ⟨hs, hd, hc, v, hv, rfl⟩ := elementMovs_next_inv h
    exact elementMovs_of_ok (s := withEntryFlags e s) hs hd hv hc
  case outs =>
    obtain ⟨hp, hs, v, hv, rfl⟩ := elementOuts_next_inv h
    exact elementOuts_of_ok (s := withEntryFlags e s) hp hs hv
  case lods =>
    obtain ⟨hs, v, hv, rfl⟩ := elementLods_next_inv h
    exact elementLods_of_ok (s := withEntryFlags e s) hs hv
  case stos =>
    obtain ⟨hd, hc, rfl⟩ := elementStos_next_inv h
    exact elementStos_of_ok (s := withEntryFlags e s) hd hc
  case cmps =>
    obtain ⟨hs, hd, x, y, hx, hy, rfl⟩ := elementCmps_next_inv h
    exact elementCmps_of_ok (s := withEntryFlags e s) hs hd hx hy
  case scas =>
    obtain ⟨hd, y, hy, rfl⟩ := elementScas_next_inv h
    exact elementScas_of_ok (s := withEntryFlags e s) hd hy

/-- An execution that goes on does so whatever the record says, and to the same state but for it. -/
theorem exec_withEntryFlags {i : Instr} {s t : State} (e : Option StatusFlags) (h : exec i s = .next t) :
    ∃ t', exec i (withEntryFlags e s) = .next t' ∧ sameButEntryFlags t t' := by
  rw [exec_eq] at h
  rw [exec_eq]
  obtain ⟨he, ⟨h0, rfl⟩ | ⟨h0, x, rest, hw, rfl⟩ | ⟨hent, u, hu, rfl⟩⟩ := repStep_next_inv h
  · refine ⟨_, repStep_zero (s := withEntryFlags e s) he h0, ?_⟩
    rw [complete_zeroCount_withEntryFlags]; rfl
  · refine ⟨_, repStep_interrupt (s := withEntryFlags e s) he h0 hw, ?_⟩
    rw [serviced_withEntryFlags]; rfl
  · refine ⟨_, ?_, endIteration_withEntryFlags _ _ _ (some (e.getD s.status)) u⟩
    rw [repStep_iteration (s := withEntryFlags e s) hent, enter_withEntryFlags, elementOf_withEntryFlags _ hu,
      andThen_next]

/-- A step that runs a decoded instruction: the converse of `step_next_inv`. -/
theorem step_eq_exec {s : State} {i : Instr} (he : atExit s = false) (hi : fetchDecode s = .ok i)
    (hc : codeFits i.ilen s = true) : step s = exec i s := by
  simp [step, he, hi, hc]

/-- Settles O44: fetch and decode do not see the record, and what is executed does not depend on it. -/
theorem noHiddenState : Obligations.NoHiddenState := by
  intro s t e h
  obtain ⟨he, i, hi, hc, hex⟩ := step_next_inv h
  obtain ⟨t', ht', hsame⟩ := exec_withEntryFlags e hex
  exact ⟨t', (step_eq_exec (s := withEntryFlags e s) he hi hc).trans ht', hsame⟩

/-! Where a step stops. -/

theorem linTrunc_linTrunc (m : Mode) (a : Word) : linTrunc m (linTrunc m a) = linTrunc m a :=
  BitVec.eq_of_toNat_eq (by cases m <;> simp only [linTrunc_toNat, Nat.mod_mod])

/-- The first byte of an instruction is at its address (R32). -/
theorem byteAddr_codeAddr_zero (s : State) : byteAddr s.launch (codeAddr s) 0 = codeAddr s := by
  have hzero : codeAddr s + BitVec.ofNat 64 0 = codeAddr s := BitVec.add_zero _
  rw [byteAddr, hzero]
  exact linTrunc_linTrunc _ _

/-- No byte is fetched where the program has none at RIP (R32, R172). -/
theorem fetch_eq_nil {s : State} (h : readByte s.launch.program (codeAddr s).toNat = none) : fetch s = [] := by
  show bytesAt _ ((byteAddr s.launch (codeAddr s) 0).toNat :: _) = []
  rw [byteAddr_codeAddr_zero, bytesAt, h]

theorem decode_nil (m : Mode) (allow : Bool) : decode m allow [] = .error .truncated := by cases m <;> rfl

/-- A step away from the exit address whose bytes decode to no instruction. -/
theorem step_of_decode_error {s : State} {r : DecodeRefusal} (he : atExit s = false) (h : fetchDecode s = .error r) :
    step s = .refused (if r = .truncated then .outsideProgram else .undecodable r) := by
  cases r <;> simp [step, he, h]

/-- Settles O49: the arms of the step, and that nothing decodes where there is no byte. -/
theorem stepStops : Obligations.StepStops := by
  refine fun s => ⟨fun e hexit hrip => step_atExit (by simp [atExit, hexit, hrip]), fun he => ⟨?_, ?_, ?_⟩⟩
  · intro i hi hc
    have hi : fetchDecode s = .ok i := hi
    simp [step, he, hi, hc]
  · intro r hr h
    rw [step_of_decode_error he h, if_neg hr]
  · intro hnone
    have h : fetchDecode s = .error .truncated := by rw [fetchDecode, fetch_eq_nil hnone, decode_nil]
    rw [step_of_decode_error he h, if_pos rfl]

/-! The invariant. -/

/-- No row of INS or OUTS has 64-bit elements: a port access moves 1, 2 or 4 bytes (R25). -/
theorem portInstr_width {i : Instr} (h : i.form.op = .ins ∨ i.form.op = .outs) : i.form.w ≠ .b64 := by
  cases i <;> simp [Instr.form] at h ⊢

theorem portTrunc_lt (w : OpSize) (v : BitVec 32) : (portTrunc w v).toNat < 2 ^ (8 * w.bytes) := by
  cases w <;> simp only [portTrunc, OpSize.bytes, BitVec.toNat_setWidth] <;> omega

theorem portValue_lt (w : OpSize) (s : State) : (portValue w s).toNat < 2 ^ (8 * w.bytes) := portTrunc_lt w _

/-- A port access of 1, 2 or 4 bytes with a value of that width is a well-formed event (R25). -/
theorem wf_event {w : OpSize} {v : BitVec 32} (hw : w ≠ .b64) (p : BitVec 16) (hv : v.toNat < 2 ^ (8 * w.bytes)) :
    IoEvent.wf (.input p w.bytes v) = true ∧ IoEvent.wf (.output p w.bytes v) = true := by
  have hbytes : w.bytes = 1 ∨ w.bytes = 2 ∨ w.bytes = 4 := by
    cases w with
    | b8 => exact .inl rfl
    | b16 => exact .inr (.inl rfl)
    | b32 => exact .inr (.inr rfl)
    | b64 => exact absurd rfl hw
  simpa [IoEvent.wf, hv, or_assoc] using hbytes

/-! What each state operation does to the invariant. -/

section
variable {s : State}

theorem stateInv_writeElem (w : OpSize) (a v : Word) (h : StateInv s) : StateInv (writeElem w a v s) :=
  have ⟨hmem, hrest⟩ := h
  ⟨wf_scatter _ (fun x hx => byteAddrs_lt _ _ _ x hx) _ _ hmem, hrest⟩

theorem stateInv_portInput {w : OpSize} (hw : w ≠ .b64) (h : StateInv s) : StateInv (portInput w s) := by
  obtain ⟨hmem, hprog, hrip, hio, hwin⟩ := h
  refine ⟨hmem, hprog, hrip, ?_, hwin⟩
  simpa [hio] using (wf_event hw (portReg s) (portValue_lt w s)).1

theorem stateInv_portOutput {w : OpSize} (hw : w ≠ .b64) (v : Word) (h : StateInv s) : StateInv (portOutput w v s) := by
  obtain ⟨hmem, hprog, hrip, hio, hwin⟩ := h
  refine ⟨hmem, hprog, hrip, ?_, hwin⟩
  simpa [hio] using (wf_event hw (portReg s) (portTrunc_lt w (v.setWidth 32))).2

theorem stateInv_enter (h : StateInv s) : StateInv (enter s) := by
  obtain ⟨hmem, hprog, hrip, hio, hwin⟩ := h
  refine ⟨hmem, hprog, hrip, hio, ?_⟩
  exact List.all_eq_true.mpr fun x hx => List.all_eq_true.mp hwin x (List.mem_of_mem_tail hx)

theorem stateInv_complete (ilen : Nat) (h : StateInv s) : StateInv (complete ilen s) :=
  have ⟨hmem, hprog, _, hio, hwin⟩ := h
  ⟨hmem, hprog, ipView_get_nextRip _ _ _, hio, hwin⟩

theorem stateInv_zeroCount (a : AddrSize) (h : StateInv s) : StateInv (zeroCount a s) := by
  unfold zeroCount
  split <;> exact h

theorem stateInv_endIteration (kind : RepKind) (a : AddrSize) (ilen : Nat) (h : StateInv s) :
    StateInv (endIteration kind a ilen s) := by
  have hcount : StateInv (setCount a (countReg a s - 1#64) s) := h
  rw [endIteration_eq]
  split
  · exact stateInv_complete ilen hcount
  · exact hcount

/-- A handler whose I/O is well-formed keeps the invariant: its stores are at 64-bit addresses (R26, R159). -/
theorem stateInv_handled {x : HandlerEffect} (hx : handlerWf (some x) = true) (h : StateInv s) :
    StateInv (handled x s) := by
  cases x with
  | identity => exact h
  | leaves rax rcx rdx rsi rdi status df stores io =>
    obtain ⟨hmem, hprog, hrip, hio, hwin⟩ := h
    refine ⟨wf_writeCells stores _ hmem, hprog, hrip, ?_, hwin⟩
    exact List.all_append.trans (by rw [hio]; exact hx)

theorem stateInv_serviced {x : HandlerEffect} {rest : List (Option HandlerEffect)} (hw : s.windows = some x :: rest)
    (h : StateInv s) : StateInv (serviced x s) := by
  have ⟨_, _, _, _, hwindows⟩ := h
  have hx : handlerWf (some x) = true := List.all_eq_true.mp hwindows _ (by simp [hw])
  obtain ⟨-, -, -, -, hrest⟩ := stateInv_enter h
  obtain ⟨hmem, hprog, hrip, hio, -⟩ := stateInv_handled hx h
  exact ⟨hmem, hprog, hrip, hio, hrest⟩

end

/-- An element operation stores at 64-bit addresses and adds well-formed events (R25, R26). -/
theorem stateInv_elementOf {i : Instr} {s u : State} (hs : StateInv s) (h : elementOf i s = .next u) : StateInv u := by
  unfold elementOf at h
  cases hop : i.form.op <;> simp only [hop] at h
  case ins =>
    obtain ⟨-, -, -, rfl⟩ := elementIns_next_inv h
    exact stateInv_writeElem _ _ _ (stateInv_portInput (portInstr_width (.inl hop)) hs)
  case movs => obtain ⟨-, -, -, _, -, rfl⟩ := elementMovs_next_inv h; exact stateInv_writeElem _ _ _ hs
  case outs =>
    obtain ⟨-, -, _, -, rfl⟩ := elementOuts_next_inv h
    exact stateInv_portOutput (portInstr_width (.inr hop)) _ hs
  case lods => obtain ⟨-, _, -, rfl⟩ := elementLods_next_inv h; exact hs
  case stos => obtain ⟨-, -, rfl⟩ := elementStos_next_inv h; exact stateInv_writeElem _ _ _ hs
  case cmps => obtain ⟨-, -, _, _, -, -, rfl⟩ := elementCmps_next_inv h; exact hs
  case scas => obtain ⟨-, _, -, rfl⟩ := elementScas_next_inv h; exact hs

/-- Settles O51: completion, an interrupt and an iteration each keep the invariant. -/
theorem invariantKept : Obligations.InvariantKept := by
  intro s t hs h
  obtain ⟨-, i, -, -, hex⟩ := step_next_inv h
  rw [exec_eq] at hex
  obtain ⟨-, ⟨-, rfl⟩ | ⟨-, x, rest, hw, rfl⟩ | ⟨-, u, hu, rfl⟩⟩ := repStep_next_inv hex
  · exact stateInv_complete _ (stateInv_zeroCount _ hs)
  · exact stateInv_serviced hw hs
  · exact stateInv_endIteration _ _ _ (stateInv_elementOf (stateInv_enter hs) hu)

/-! The state after reset. -/

/-- Settles O52: memory, program, trace and windows are empty, and FFF0H fits in IP. -/
theorem invariantAtReset : Obligations.InvariantAtReset := ⟨rfl, rfl, rfl, rfl, rfl⟩

/-- Settles O53: the fields of `State.reset`; its first step finds no byte, the program being empty. -/
theorem resetState : Obligations.ResetState := by
  obtain ⟨-, hstops⟩ := stepStops State.reset
  obtain ⟨-, -, hoff⟩ := hstops rfl
  have hstep : step State.reset = .refused .outsideProgram := hoff rfl
  exact ⟨rfl, rfl, rfl, rfl, rfl, rfl, rfl, rfl, rfl, rfl, rfl, rfl, rfl, hstep⟩

end Sys2Proof.Machine
end

section
/-! PROOFS. The family 20_memory.md: linear addresses (R7, R38, R56), little-endian memory (R30, R31), operands that
straddle the wrap, are not canonical or are rejected (R39, R40, R42), stores into the executing instruction (R45), and
the program the step fetches (R32, R45, R68). -/

namespace Sys2Proof

/-! The segment of the source operand. -/

theorem overrideOf_eq_none {ls : List Legacy} (h : ∀ r, Legacy.seg r ∉ ls) : overrideOf ls = none := by
  induction ls with
  | nil => rfl
  | cons l ls ih =>
    have htail : ∀ r, Legacy.seg r ∉ ls := fun r hr => h r (List.mem_cons_of_mem l hr)
    cases l with
    | addrSize => exact ih htail
    | opSize => exact ih htail
    | seg r => exact absurd List.mem_cons_self (h r)

/-- Of at most one segment override (R58), the scan for one finds it. -/
theorem overrideOf_eq_some {ls : List Legacy} {r : SegReg} (hone : segCount ls ≤ 1) (h : Legacy.seg r ∈ ls) :
    overrideOf ls = some r := by
  induction ls with
  | nil => cases h
  | cons l ls ih =>
    obtain rfl | htail := List.mem_cons.mp h
    · rfl
    cases l with
    | addrSize => exact ih hone htail
    | opSize => exact ih hone htail
    | seg q =>
      have hpos := segCount_pos_of_mem ls r htail
      have : segCount ls + 1 ≤ 1 := hone
      omega

namespace Machine

/-! Linear addresses. -/

theorem lin_mode64_flat {l : Launch} {seg : SegReg} (hm : l.mode = .mode64) (hfs : seg ≠ .fs) (hgs : seg ≠ .gs)
    (off : Word) : lin l seg off = off := by
  cases seg <;> simp_all [lin, segBase, linTrunc]

theorem lin_mode64_based {l : Launch} (hm : l.mode = .mode64) (off : Word) :
    lin l .fs off = l.bases.fs + off ∧ lin l .gs off = l.bases.gs + off := by
  simp [lin, segBase, linTrunc, hm]

theorem lin_modeCL_toNat {l : Launch} {d o : LegacySize} (hm : l.mode = .modeCL d o) (seg : SegReg) (off : Word) :
    (lin l seg off).toNat = ((l.bases.get seg).toNat + off.toNat) % 2 ^ 32 := by
  have hbase : segBase l seg = l.bases.get seg := by simp [segBase, hm]
  rw [lin, linTrunc_toNat, hbase, hm, BitVec.toNat_add]
  exact Nat.mod_mod_of_dvd _ (pow_dvd_pow 2 (by decide))

/-- Settles O12: address formation by mode, and the one override of well-formed prefixes. -/
theorem linearAddress : Obligations.LinearAddress := by
  refine ⟨fun l seg off => ⟨fun hm hfs hgs => lin_mode64_flat hm hfs hgs off, fun hm => lin_mode64_based hm off,
    fun d o hm => lin_modeCL_toNat hm seg off⟩, fun p hp => ⟨fun r hr => ?_, fun hnone => ?_⟩, rfl⟩
  · simp only [Prefixes.oneEach, Bool.and_eq_true, decide_eq_true_eq] at hp
    obtain ⟨-, hseg⟩ := hp
    rw [Prefixes.sourceSeg, overrideOf_eq_some hseg hr, Option.getD_some]
  · have hnone : overrideOf p.legacy = none := overrideOf_eq_none hnone
    rw [Prefixes.sourceSeg, hnone, Option.getD_none]

/-! Little-endian memory. -/

theorem opSize_bits_eq (w : OpSize) : w.bits = 8 * w.bytes := by cases w <;> rfl

/-- An element read has the bytes of memory at its addresses, the least significant first, and no bit above (R30). -/
theorem readElem_bytes {w : OpSize} {a v : Word} {s : State} (h : readElem w a s = .ok v) :
    v.toNat < 2 ^ w.bits
      ∧ ∀ k, k < w.bytes → readByte s.mem (byteAddr s.launch a k).toNat = some (v.extractLsb' (8 * k) 8) := by
  obtain ⟨hbytes, hlt⟩ := gather_bytes s.mem _ v (by simpa using opSize_bytes_le w) h
  refine ⟨by simpa [opSize_bits_eq] using hlt, fun k hk => ?_⟩
  rw [← byteAddrs_getElem s.launch a w.bytes k (by simpa using hk)]
  exact hbytes k _

theorem stored_writeElem (w : OpSize) (a v : Word) (s : State) : stored w a v s (writeElem w a v s) := by
  have hdistinct : (byteAddrs s.launch a w.bytes).Nodup :=
    byteAddrs_nodup _ _ _ ((opSize_bytes_le w).trans (by decide))
  refine ⟨fun k hk => ?_, fun x hx => readByte_scatter_other _ _ _ _ hx⟩
  rw [← byteAddrs_getElem s.launch a w.bytes k (by simpa using hk)]
  exact readByte_scatter_at _ hdistinct s.mem v k _

/-- Settles O14: the bytes of an element read, and of an element stored. -/
theorem memoryIsLittleEndian : Obligations.MemoryIsLittleEndian := fun w a v s =>
  ⟨readElem_bytes, stored_writeElem w a v s⟩

/-- Two words with the same low `n` bytes have the same low `8n` bits. -/
theorem toNat_mod_of_bytes_eq {u v : Word} {n : Nat}
    (h : ∀ k, k < n → u.extractLsb' (8 * k) 8 = v.extractLsb' (8 * k) 8) :
    u.toNat % 2 ^ (8 * n) = v.toNat % 2 ^ (8 * n) := by
  refine Nat.eq_of_testBit_eq fun b => ?_
  rw [Nat.testBit_mod_two_pow, Nat.testBit_mod_two_pow]
  by_cases hb : b < 8 * n
  · have hbyte := congrArg (·.getLsbD (b % 8)) (h (b / 8) (by omega))
    simp only [BitVec.getLsbD_extractLsb', Nat.div_add_mod, Nat.mod_lt b (show 0 < 8 by decide)] at hbyte
    rw [← BitVec.testBit_toNat, ← BitVec.testBit_toNat] at hbyte
    exact congrArg _ hbyte
  · simp [hb]

/-- Where memory holds the low bytes of `v`, the element there is read, and is the low bits of `v` (R30, R31). -/
theorem readElem_of_bytes {w : OpSize} {a v : Word} {s : State}
    (h : ∀ k, k < w.bytes → readByte s.mem (byteAddr s.launch a k).toNat = some (v.extractLsb' (8 * k) 8)) :
    ∃ u, readElem w a s = .ok u ∧ u.toNat = v.toNat % 2 ^ w.bits := by
  obtain ⟨u, hu⟩ : ∃ u, readElem w a s = .ok u := by
    refine gather_ok _ _ fun x hx => ?_
    obtain ⟨k, hk, rfl⟩ := (mem_byteAddrs _ _ _ _).mp hx
    rw [h k hk]
    exact Option.some_ne_none _
  obtain ⟨hlt, hbytes⟩ := readElem_bytes hu
  refine ⟨u, hu, ?_⟩
  rw [← Nat.mod_eq_of_lt hlt, opSize_bits_eq]
  exact toNat_mod_of_bytes_eq fun k hk => Option.some.inj ((hbytes k hk).symm.trans (h k hk))

/-- An address already formed in the mode is that of its own first byte (R38). -/
theorem byteAddr_byteAddr_zero (l : Launch) (a : Word) (j : Nat) :
    byteAddr l (byteAddr l a j) 0 = byteAddr l a j := by
  have hzero : byteAddr l a j + BitVec.ofNat 64 0 = byteAddr l a j := BitVec.add_zero _
  rw [byteAddr, hzero]
  exact linTrunc_linTrunc _ _

/-- Settles O15: each access reads low bytes of the stored value, which stand in memory one by one (R31). -/
theorem storeThenRead : Obligations.StoreThenRead := by
  intro a v s
  obtain ⟨-, hhigh, hlow, -⟩ := viewReads v
  obtain ⟨hbytes, -⟩ := stored_writeElem .b32 a v s
  refine ⟨fun w => readElem_of_bytes (stored_writeElem w a v s).1, ?_, ?_⟩
  · obtain ⟨u, hu, hval⟩ := readElem_of_bytes (w := .b8) (a := byteAddr s.launch a 1) (v := v >>> 8)
      (s := writeElem .b32 a v s) fun k hk => by
        obtain rfl : k = 0 := Nat.lt_one_iff.mp hk
        rw [writeElem_launch, byteAddr_byteAddr_zero, hbytes 1 (by decide)]
        rfl
    rw [BitVec.toNat_ushiftRight, Nat.shiftRight_eq_div_pow] at hval
    rw [hu, BitVec.eq_of_toNat_eq (hval.trans hhigh.symm)]
    rfl
  · obtain ⟨u, hu, hval⟩ := readElem_of_bytes (w := .b16) (a := a) (v := v) (s := writeElem .b32 a v s)
      fun k hk => hbytes k (hk.trans (by decide))
    rw [hu, BitVec.eq_of_toNat_eq (hval.trans hlow.symm)]
    rfl

/-! Operands that have no address. -/

section
variable {l : Launch} {kind : AccessKind} {seg : SegReg} {w : OpSize} {a : AddrSize} {off : Word}

theorem address_of_straddles (h : straddles w a off = true) :
    address l kind seg w a off = .refused .elementStraddle := by
  rw [address, if_pos h]

theorem operand_of_straddles (h : straddles w a off = true) :
    operand l kind seg w a off = .refused .elementStraddle := by
  rw [operand, address_of_straddles h]

theorem address_of_notCanonical (hs : straddles w a off = false) (hc : allCanonical l (lin l seg off) w.bytes = false) :
    address l kind seg w a off = .raises (.exn .gp0) ⟨lin l seg off, kind⟩ := by
  simp [address, hs, hc]

theorem operand_of_notCanonical (hs : straddles w a off = false) (hc : allCanonical l (lin l seg off) w.bytes = false) :
    operand l kind seg w a off = .raises (.exn .gp0) ⟨lin l seg off, kind⟩ := by
  rw [operand, address_of_notCanonical hs hc]

theorem operand_of_rejected {e : MemEvent} (hs : straddles w a off = false)
    (hc : allCanonical l (lin l seg off) w.bytes = true) (hm : memFault l kind (lin l seg off) w.bytes = some e) :
    operand l kind seg w a off = .raises e ⟨lin l seg off, kind⟩ := by
  simp [operand, address, hs, hc, hm]

end

theorem withOperands_refused_right {c : Bool} {o : Operand} {s : State} {f : Word → Word → Result} {r : Refusal}
    (h : ∀ r', o = .refused r' → r' = r) : withOperands c o (.refused r) s f = .refused r := by
  cases o with
  | at' a => rfl
  | raises e x => rfl
  | refused r' => rw [h r' rfl]; rfl

/-! Elements that straddle the wrap of the offsets (R39). -/

/-- The element of an operand the instruction uses straddles `2^A`. -/
def usedElementStraddles (i : Instr) (s : State) : Prop :=
  (usesSource i.form.op = true ∧ straddles i.form.w i.form.a (srcIdx i.form.a s) = true)
    ∨ (usesDest i.form.op = true ∧ straddles i.form.w i.form.a (dstIdx i.form.a s) = true)

/-- The refusal stands before every exception but that of the port (R39, D7; log entry 15). -/
theorem elementOf_of_straddles {i : Instr} {s : State}
    (hp : i.form.op = .ins ∨ i.form.op = .outs → ioPermitted i.form.w s = true) (h : usedElementStraddles i s) :
    elementOf i s = .refused .elementStraddle := by
  unfold usedElementStraddles at h
  unfold elementOf
  cases hop : i.form.op <;>
    simp only [hop, usesSource, usesDest, true_and, Bool.false_eq_true, false_and, or_false, false_or] at h hp ⊢
  case ins => rw [elementIns, if_pos (hp (.inl trivial)), address_of_straddles h]; rfl
  case outs => rw [elementOuts, if_pos (hp (.inr trivial)), operand_of_straddles h]; rfl
  case lods => rw [elementLods, operand_of_straddles h]; rfl
  case stos => rw [elementStos, operand_of_straddles h]; rfl
  case scas => rw [elementScas, operand_of_straddles h]; rfl
  case movs =>
    obtain h | h := h
    · rw [elementMovs, operand_of_straddles h]; rfl
    · rw [elementMovs, operand_of_straddles h, withOperands_refused_right fun _ => operand_refused_inv]
  case cmps =>
    obtain h | h := h
    · rw [elementCmps, operand_of_straddles h]; rfl
    · rw [elementCmps, operand_of_straddles h, withOperands_refused_right fun _ => operand_refused_inv]

/-- Settles O45: the element operation refuses, and the iteration with it. -/
theorem straddlingElementRefused : Obligations.StraddlingElementRefused := by
  intro i s hent hp h
  rw [exec_iteration i s hent, elementOf_of_straddles (s := enter s) hp h]
  rfl

/-! Operands that raise (R40, R42). -/

theorem andThen_takeException (c : Bool) (e : MemEvent) (x : Option Access) (s : State) (f : State → Result) :
    andThen (takeException c e x s) f = takeException c e x s := by cases e <;> rfl

/-- Where the destination, if there is one, is accessible, what the source raises ends the element operation. -/
theorem elementOf_of_source_raises {i : Instr} {s : State} {e : MemEvent} {x : Access}
    (hp : i.form.op = .outs → ioPermitted i.form.w s = true) (hsrc : usesSource i.form.op = true)
    (hr : operand s.launch .read i.pre.sourceSeg i.form.w i.form.a (srcIdx i.form.a s) = .raises e x)
    (hd : usesDest i.form.op = true →
      accessOk s.launch (destKind i.form.op) .es i.form.w i.form.a (dstIdx i.form.a s)) :
    elementOf i s = takeException i.form.op.compares e (some x) s := by
  unfold elementOf
  cases hop : i.form.op <;> simp only [hop] at hsrc hp hd ⊢
  case movs => rw [elementMovs, hr, operand_of_ok (kind := .write) (hd rfl)]; rfl
  case outs => rw [elementOuts, if_pos (hp trivial), hr]; rfl
  case lods => rw [elementLods, hr]; rfl
  case cmps => rw [elementCmps, hr, operand_of_ok (kind := .read) (hd rfl)]; rfl
  case ins | stos | scas => cases hsrc

/-- Where the source, if there is one, is accessible, what the destination raises ends the element operation; INS apart,
which has the port read between the two checks of its destination (R84, R87). -/
theorem elementOf_of_dest_raises {i : Instr} {s : State} {e : MemEvent} {x : Access} (hne : i.form.op ≠ .ins)
    (hdst : usesDest i.form.op = true)
    (hr : operand s.launch (destKind i.form.op) .es i.form.w i.form.a (dstIdx i.form.a s) = .raises e x)
    (hs : usesSource i.form.op = true →
      accessOk s.launch .read i.pre.sourceSeg i.form.w i.form.a (srcIdx i.form.a s)) :
    elementOf i s = takeException i.form.op.compares e (some x) s := by
  unfold elementOf
  cases hop : i.form.op <;> simp only [hop, destKind] at hdst hr hs ⊢
  case ins => exact absurd hop hne
  case movs => rw [elementMovs, hr, operand_of_ok (hs rfl)]; rfl
  case stos => rw [elementStos, hr]; rfl
  case cmps => rw [elementCmps, hr, operand_of_ok (hs rfl)]; rfl
  case scas => rw [elementScas, hr]; rfl
  case outs | lods => cases hdst

/-- The address of INS is checked before the port is read (R87). -/
theorem elementIns_of_address_raises {w : OpSize} {a : AddrSize} {ilen : Nat} {s : State} {e : MemEvent} {x : Access}
    (hp : ioPermitted w s = true) (hr : address s.launch .write .es w a (dstIdx a s) = .raises e x) :
    elementIns w a ilen s = takeException false e (some x) s := by
  rw [elementIns, if_pos hp, hr]
  rfl

/-- An element operation that ends with an exception ends the execution with it. -/
theorem exec_of_element_raises {i : Instr} {s : State} {e : MemEvent} {x : Access} {c : Bool}
    (hent : entered i.form.w i.form.a s) (h : elementOf i (enter s) = takeException c e (some x) (enter s)) :
    exec i s = takeException c e (some x) (enter s) := by
  rw [exec_iteration i s hent, h, andThen_takeException]

theorem elementOf_of_dest_notCanonical {i : Instr} {s : State}
    (hp : i.form.op = .ins → ioPermitted i.form.w s = true) (hdst : usesDest i.form.op = true)
    (hst : straddles i.form.w i.form.a (dstIdx i.form.a s) = false)
    (hc : allCanonical s.launch (dstAddr i.form.a s) i.form.w.bytes = false)
    (hs : usesSource i.form.op = true →
      accessOk s.launch .read i.pre.sourceSeg i.form.w i.form.a (srcIdx i.form.a s)) :
    elementOf i s =
      takeException i.form.op.compares (.exn .gp0) (some ⟨dstAddr i.form.a s, destKind i.form.op⟩) s := by
  by_cases hop : i.form.op = .ins
  · simp only [elementOf, hop]
    exact elementIns_of_address_raises (hp hop) (address_of_notCanonical hst hc)
  · exact elementOf_of_dest_raises hop hdst (operand_of_notCanonical hst hc) hs

/-- Settles O38: the operand raises, the state reported is that before the iteration. -/
theorem nonCanonicalOperand : Obligations.NonCanonicalOperand := by
  rintro i _ _ s rfl rfl hent hp
  refine ⟨fun hsrc hst hc hd => ?_, fun hdst hst hc hs => ?_⟩
  · have hel := elementOf_of_source_raises (s := enter s) (fun ho => hp (.inr ho)) hsrc
      (operand_of_notCanonical hst hc) hd
    exact ⟨_, exec_of_element_raises hent hel, keptAtFault_enter _ s⟩
  · have hel := elementOf_of_dest_notCanonical (s := enter s) (fun ho => hp (.inl ho)) hdst hst hc hs
    exact ⟨_, exec_of_element_raises hent hel, keptAtFault_enter _ s⟩

/-- Settles O39: the operand raises what `MemFault` says, and the state reported is that before the iteration. -/
theorem rejectedAccess : Obligations.RejectedAccess := by
  rintro i _ _ s e rfl rfl hent hne hp
  refine ⟨fun hsrc hst hc hm hd => ?_, fun hdst hst hc hm hs => ?_⟩
  · have hexec := exec_of_element_raises hent (elementOf_of_source_raises (s := enter s) hp hsrc
      (operand_of_rejected hst hc hm) hd)
    refine ⟨_, keptAtFault_enter i.form.op.compares s, ?_⟩
    cases e <;> exact hexec
  · have hexec := exec_of_element_raises hent (elementOf_of_dest_raises (s := enter s) hne hdst
      (operand_of_rejected hst hc hm) hs)
    refine ⟨_, keptAtFault_enter i.form.op.compares s, ?_⟩
    cases e <;> exact hexec

/-! Stores into the executing instruction (R45). -/

theorem hitsCode_iff {w : OpSize} {ilen : Nat} {a : Word} {s : State} :
    hitsCode w ilen a s = true ↔
      ∃ x, x ∈ byteAddrs s.launch a w.bytes ∧ x ∈ byteAddrs s.launch (codeAddr s) ilen := by
  simp [hitsCode, codeAddrs]

theorem storeElem_of_hits {w : OpSize} {ilen : Nat} {a v : Word} {s : State} (h : hitsCode w ilen a s = true) :
    storeElem w ilen a v s = .refused .storeIntoInstruction := if_pos h

section
variable {w : OpSize} {a : AddrSize} {ilen : Nat} {s : State}

theorem elementStos_of_hits (hd : accessOk s.launch .write .es w a (dstIdx a s))
    (hc : hitsCode w ilen (dstAddr a s) s = true) : elementStos w a ilen s = .refused .storeIntoInstruction := by
  rw [elementStos, operand_of_ok hd]
  show andThen (storeElem w ilen (dstAddr a s) (acc w s) s) _ = _
  rw [storeElem_of_hits hc]
  rfl

theorem elementIns_of_hits (hp : ioPermitted w s = true) (hd : accessOk s.launch .write .es w a (dstIdx a s))
    (hc : hitsCode w ilen (dstAddr a s) s = true) : elementIns w a ilen s = .refused .storeIntoInstruction := by
  have ⟨_, _, hm⟩ := hd
  rw [elementIns, if_pos hp, address_of_ok hd]
  simp only [withOperand, hm]
  have hc : hitsCode w ilen (lin s.launch .es (dstIdx a s)) (portInput w s) = true := hc
  rw [storeElem_of_hits hc]
  rfl

theorem elementMovs_of_hits {seg : SegReg} {v : Word} (hs : accessOk s.launch .read seg w a (srcIdx a s))
    (hd : accessOk s.launch .write .es w a (dstIdx a s)) (hv : readElem w (srcAddr a seg s) s = .ok v)
    (hc : hitsCode w ilen (dstAddr a s) s = true) :
    elementMovs w a seg ilen s = .refused .storeIntoInstruction := by
  rw [elementMovs, operand_of_ok hs, operand_of_ok hd]
  show withElem (readElem w (srcAddr a seg s) s) _ = _
  rw [hv]
  show andThen (storeElem w ilen (dstAddr a s) v s) _ = _
  rw [storeElem_of_hits hc]
  rfl

end

/-- Settles O46: in each of the three instructions that store, everything before the store goes through. -/
theorem storeIntoInstructionRefused : Obligations.StoreIntoInstructionRefused := by
  intro i s hent hop hd hhit
  have hc : hitsCode i.form.w i.ilen (dstAddr i.form.a s) s = true := hitsCode_iff.mpr hhit
  have hel : elementOf i (enter s) = .refused .storeIntoInstruction := by
    obtain hop | ⟨hop, hp⟩ | ⟨hop, hs, v, hv⟩ := hop <;> simp only [elementOf, hop]
    · exact elementStos_of_hits (s := enter s) hd hc
    · exact elementIns_of_hits (s := enter s) hp hd hc
    · exact elementMovs_of_hits (s := enter s) hs hd hv hc
  rw [exec_iteration i s hent, hel]
  rfl

end Machine

/-! The bytes the step fetches. -/

/-- The legacy prefixes fall into three groups (R58). -/
theorem legacy_length (ls : List Legacy) : ls.length = ls.count .addrSize + ls.count .opSize + segCount ls := by
  induction ls with
  | nil => rfl
  | cons l ls ih => cases l <;> simp [segCount] <;> omega

/-- The longest instruction: legacy prefixes of three groups, the repeat byte, REX and the opcode (R58). -/
theorem ilen_le_six {i : Instr} (h : i.pre.oneEach = true) : i.ilen ≤ 6 := by
  have hlen := legacy_length i.pre.legacy
  simp only [Prefixes.oneEach, Bool.and_eq_true, decide_eq_true_eq] at h
  obtain ⟨⟨haddr, hop⟩, hseg⟩ := h
  simp only [Prefixes.legacy, List.length_append] at hlen haddr hop hseg
  simp only [Instr.ilen, Prefixes.ilen]
  split <;> omega

/-- The bytes of an instruction after its legacy prefixes and its repeat byte (R50). -/
def encodeTail (i : Instr) : List Byte := i.pre.rex.toList.map rexByte ++ [opcodeByte i.form.op i.form.w]

theorem encode_eq (i : Instr) :
    encode i = i.pre.before.map legacyByte
      ++ ([repeatByte i.form.kind] ++ (i.pre.after.map legacyByte ++ encodeTail i)) := by
  unfold encode encodeTail
  cases i.pre.rex <;> simp

/-- The scan of the prefixes ends at REX, and at the opcode where there is none (R59). -/
theorem classify_encodeTail {i : Instr} {rest : List Byte} (b : Byte) (bs : List Byte)
    (h : encodeTail i ++ rest = b :: bs) : classify b = .other := by
  unfold encodeTail at h
  cases hrex : i.pre.rex with
  | none =>
    simp only [hrex, Option.toList_none, List.map_nil, List.nil_append, List.singleton_append] at h
    obtain ⟨rfl, -⟩ := List.cons.inj h
    exact classify_opcodeByte _ _
  | some r =>
    simp only [hrex, Option.toList_some, List.map_cons, List.map_nil, List.cons_append] at h
    obtain ⟨rfl, -⟩ := List.cons.inj h
    exact classify_rexByte r

/-- Where the mode has the REX byte, if there is one, it is taken off before the opcode (R54). -/
theorem takeRex_encodeTail {m : Mode} {i : Instr} (hr : i.pre.rexAllowed m = true) (rest : List Byte) :
    takeRex m (encodeTail i ++ rest) = (i.pre.rex, opcodeByte i.form.op i.form.w :: rest) := by
  unfold encodeTail
  cases hrex : i.pre.rex with
  | none => exact takeRex_opcodeByte m _ _ rest
  | some r =>
    cases m with
    | mode64 => exact takeRex_rexByte r _
    | modeCL d o => simp [Prefixes.rexAllowed, hrex] at hr

theorem wellFormed_iff {m : Mode} {i : Instr} :
    wellFormed m i = true ↔ i.pre.oneEach = true ∧ i.pre.rexAllowed m = true
      ∧ addrSizeFits m i.form.a i.pre = true ∧ opSizeFits m i.form.op i.form.w i.pre = true := by
  simp only [wellFormed, Bool.and_eq_true, and_assoc]

/-- Decoding the bytes of a well-formed instruction, whatever follows them, gives it back (R50 to R58, R68). -/
theorem decode_encode_append {m : Mode} {allow : Bool} {i : Instr} (hwf : wellFormed m i = true)
    (hlisted : (allow || i.listed) = true) (rest : List Byte) : decode m allow (encode i ++ rest) = .ok i := by
  obtain ⟨hone, hrex, haddr, hop⟩ := wellFormed_iff.mp hwf
  have hscan : scanPrefixes (encode i ++ rest) ⟨none, [], []⟩
      = .ok (⟨some (repByteOf i.form.kind), i.pre.before, i.pre.after⟩, encodeTail i ++ rest) := by
    simpa only [encode_eq, List.append_assoc] using scan_encode i (encodeTail i ++ rest) hone classify_encodeTail
  have hpre : (⟨i.pre.before, i.pre.after, i.pre.rex⟩ : Prefixes) = i.pre := rfl
  have hrow : rowOf ⟨i.form.kind, i.form.op, i.form.w, i.form.a⟩ i.pre = some i := rowOf_form i
  simp only [decode, hscan, takeRex_encodeTail hrex, stringOf_opcodeByte, kindOf_form, hpre,
    opSizeOf_of_fits m _ _ _ hop hrex, addrSizeOf_of_fits m _ _ haddr, hrow, hlisted, if_true]

namespace Machine

/-- Bytes that stand at the first addresses of a list are the first that are read there. -/
theorem bytesAt_eq_append {m : Memory} {bs : List Byte} {as : List Nat} (hlen : bs.length ≤ as.length)
    (h : ∀ (k : Nat) (hk : k < as.length), k < bs.length → readByte m as[k] = bs[k]?) :
    ∃ rest, bytesAt m as = bs ++ rest := by
  induction bs generalizing as with
  | nil => exact ⟨_, rfl⟩
  | cons b bs ih =>
    cases as with
    | nil => simp at hlen
    | cons a as =>
      have hfirst : readByte m a = some b := h 0 (Nat.succ_pos _) (Nat.succ_pos _)
      obtain ⟨rest, hrest⟩ := ih (Nat.le_of_succ_le_succ hlen) fun k hk hk' =>
        h (k + 1) (Nat.succ_lt_succ hk) (Nat.succ_lt_succ hk')
      exact ⟨rest, by rw [bytesAt, hfirst, hrest, List.cons_append]⟩

/-- The fetch begins with the bytes of the instruction the program has at RIP (R32). -/
theorem fetch_of_programHas {i : Instr} {s : State} (hlen : i.ilen ≤ maxInstrBytes) (h : programHas i s) :
    ∃ rest, fetch s = encode i ++ rest := by
  refine bytesAt_eq_append (by simpa [codeAddrs, encode_length_eq] using hlen) fun k hk hk' => ?_
  rw [encode_length_eq] at hk'
  have haddr : (codeAddrs maxInstrBytes s)[k] = (byteAddr s.launch (codeAddr s) k).toNat := byteAddrs_getElem _ _ _ _ _
  rw [haddr]
  exact h k hk'

/-- Settles O48: the fetched bytes begin with the encoding, and decode to the instruction whatever follows. -/
theorem stepRunsEncodedBytes : Obligations.StepRunsEncodedBytes := by
  intro s i he hwf hlisted hprog hfits
  obtain ⟨hone, -⟩ := wellFormed_iff.mp hwf
  obtain ⟨rest, hfetch⟩ := fetch_of_programHas (ilen_le_six hone) hprog
  refine step_eq_exec he ?_ hfits
  rw [fetchDecode, hfetch, decode_encode_append hwf hlisted]

/-- Settles O55: the fetch reads the launch and RIP alone, and every step keeps the launch. -/
theorem storesLeaveTheProgram : Obligations.StoresLeaveTheProgram := by
  intro s t h r
  obtain ⟨hlaunch, -⟩ := wholeMachineKeeps s t h
  exact fetch_congr (s := { s with rip := r }) (t := { t with rip := r }) hlaunch rfl

end Machine

end Sys2Proof
end

section
/-! PROOFS. The family 30_encoding.md: the decoder and the encoder are inverse of each other (R50 to R58, R68), the
length of an instruction (R58), and what the repeat prefixes and LOCK refuse (R62, R63). -/

namespace Sys2Proof

/-! The round trip. -/

/-- Settles O1: the seven words of R51 to R56, and the REX byte that legacy modes do not have (R64), evaluated. -/
theorem specWordsDecode : Obligations.SpecWordsDecode := ⟨rfl, rfl, rfl, rfl, rfl, rfl, rfl, rfl⟩

/-- Settles O2: the scan reads the prefixes back, and REX, opcode and sizes are read as they were written. -/
theorem decodeOfEncode : Obligations.DecodeOfEncode := fun _ _ _ rest hwf hlisted =>
  decode_encode_append hwf hlisted rest

/-- The repeat byte that gives a kind is the byte of that kind (R52). -/
theorem repByteOf_of_kindOf {op : StringOp} {r : RepByte} {k : RepKind} (h : kindOf op r = some k) :
    repByteOf k = r := by
  unfold kindOf at h
  split at h <;> cases r <;> cases h <;> rfl

/-- What the whole scan has read where it has met a repeat byte: the legacy prefixes around it, one of each group. -/
theorem scan_eq_ok_inv {bs rest : List Byte} {r : RepByte} {before after : List Legacy} {k : RepKind}
    (h : scanPrefixes bs ⟨none, [], []⟩ = .ok (⟨some r, before, after⟩, rest)) (hk : repByteOf k = r) :
    bs = before.map legacyByte ++ ([repeatByte k] ++ (after.map legacyByte ++ rest))
      ∧ noDup (before ++ after) = true := by
  obtain ⟨l1, b, l2, hb, hbs, hsc, hone⟩ := scan_inv1 bs _ _ rest r rfl rfl rfl h rfl
  obtain ⟨-, hbefore, hafter⟩ := Scan.mk.inj hsc
  rw [List.nil_append] at hbefore
  subst hbefore hafter
  rw [← classify_rep_inv b r hb k hk]
  exact ⟨hbs, hone⟩

/-- What is taken off before the opcode is the REX byte that was read, or nothing (R54). -/
theorem eq_rex_append_of_takeRex {m : Mode} {bs rest : List Byte} {x : Option Rex} (h : takeRex m bs = (x, rest)) :
    bs = x.toList.map rexByte ++ rest := by
  obtain ⟨hbs, -⟩ := takeRex_inv m bs rest x h
  cases x <;> exact hbs

/-- The bytes a decoded instruction was read from begin with its encoding, and their prefixes are one of each group. -/
theorem encode_of_decode {m : Mode} {allow : Bool} {bs : List Byte} {i : Instr} (h : decode m allow bs = .ok i) :
    (∃ rest, bs = encode i ++ rest) ∧ i.pre.oneEach = true ∧ i.pre.rexAllowed m = true := by
  obtain ⟨r, rest, tl, opc, isByte, hscan, htake, hstring, hkind, hsize, -, -⟩ := decode_ok_inv h
  obtain ⟨hbs, hone⟩ := scan_eq_ok_inv hscan (repByteOf_of_kindOf hkind)
  have hrex := rexAllowed_of_takeRex htake
  obtain ⟨-, hbyte⟩ := fits_of_opSizeOf m _ isByte _ i.pre hrex hsize
  have hopc : opcodeByte i.form.op i.form.w = opc := stringOf_inv opc _ isByte hstring _ hbyte
  have htail : rest = encodeTail i ++ tl := by
    rw [eq_rex_append_of_takeRex htake, encodeTail, hopc, List.append_assoc, List.singleton_append]
  refine ⟨⟨tl, ?_⟩, hone, hrex⟩
  rw [hbs, htail, encode_eq]
  simp only [List.append_assoc]

/-- Settles O3: each stage of the decoder names the bytes it took, and they are those of the encoder. -/
theorem encodeOfDecode : Obligations.EncodeOfDecode := by
  intro m allow bs i h
  obtain ⟨hbytes, hone, hrex⟩ := encode_of_decode h
  obtain ⟨-, -, -, -, -, -, -, -, -, -, -, hlisted⟩ := decode_ok_inv h
  exact ⟨hbytes, wellFormed_iff.mpr ⟨hone, hrex, sizesFit_of_decode h⟩, hlisted⟩

/-- The shortest instruction: the repeat byte and the opcode (R58). -/
theorem two_le_ilen (i : Instr) : 2 ≤ i.ilen := by
  unfold Instr.ilen Prefixes.ilen
  omega

/-- Settles O4: at least the repeat byte and the opcode, at most one byte of each group with them. -/
theorem instructionLength : Obligations.InstructionLength := by
  intro m i hwf
  obtain ⟨hone, -⟩ := wellFormed_iff.mp hwf
  exact ⟨encode_length_eq i, two_le_ilen i, ilen_le_six hone⟩

/-! The scan over the prefixes an instruction can have. -/

theorem decode_of_scan_error {m : Mode} {bs : List Byte} {e : DecodeRefusal}
    (h : scanPrefixes bs ⟨none, [], []⟩ = .error e) (allow : Bool) : decode m allow bs = .error e := by
  rw [decode, h]

/-- The scan is refused at LOCK, whatever it has read (R63). -/
theorem scan_lock (rest : List Byte) (sc : Scan) : scanPrefixes (0xF0 :: rest) sc = .error .lockPrefix := rfl

/-- The scan is refused at a second repeat byte of either kind (R63). -/
theorem scan_second_repeat (k : RepKind) (rest : List Byte) (r : RepByte) (before after : List Legacy) :
    scanPrefixes (repeatByte k :: rest) ⟨some r, before, after⟩ = .error .twoRepeatPrefixes := by
  rw [scanPrefixes, classify_repeatByte]
  rfl

section
variable {p : Prefixes} (hone : p.oneEach = true)
include hone

/-- The scan reads the prefixes before the repeat byte. -/
theorem scan_to_repeat (bs : List Byte) :
    scanPrefixes (p.before.map legacyByte ++ bs) ⟨none, [], []⟩ = scanPrefixes bs ⟨none, p.before, []⟩ :=
  scan_before p.before bs [] (noDup_left p.before p.after hone)

/-- The scan reads the legacy prefixes and the repeat byte between them. -/
theorem scan_past_repeat (k : RepKind) (bs : List Byte) :
    scanPrefixes (p.before.map legacyByte ++ [repeatByte k] ++ p.after.map legacyByte ++ bs) ⟨none, [], []⟩
      = scanPrefixes bs ⟨some (repByteOf k), p.before, p.after⟩ := by
  have hnodup : noDup (p.before ++ [] ++ p.after) = true := by rwa [List.append_nil]
  have hrepeat (tail : List Byte) : scanPrefixes (repeatByte k :: tail) ⟨none, p.before, []⟩
      = scanPrefixes tail ⟨some (repByteOf k), p.before, []⟩ := by
    rw [scanPrefixes, classify_repeatByte]
    rfl
  simp only [List.append_assoc]
  rw [scan_to_repeat hone, List.singleton_append, hrepeat, scan_after _ _ _ _ [] hnodup, List.nil_append]

end

/-- Settles O8: the scan reaches the byte and is refused there. -/
theorem lockAndTwoRepeatsRefused : Obligations.LockAndTwoRepeatsRefused := by
  intro m allow i rest hwf
  obtain ⟨hone, -⟩ := wellFormed_iff.mp hwf
  refine ⟨decode_of_scan_error ?_ allow, decode_of_scan_error ?_ allow, fun k => decode_of_scan_error ?_ allow⟩
  · rw [scan_to_repeat hone, scan_lock]
  · rw [scan_past_repeat hone, scan_lock]
  · rw [scan_past_repeat hone, scan_second_repeat]

/-! The REPNE byte before each opcode. -/

/-- REX, if there is one, and the opcode end the scan (R59). -/
theorem scan_rex_opcode (x : Option Rex) (op : StringOp) (w : OpSize) (rest : List Byte) (sc : Scan) :
    scanPrefixes (x.toList.map rexByte ++ opcodeByte op w :: rest) sc
      = .ok (sc, x.toList.map rexByte ++ opcodeByte op w :: rest) := by
  cases x with
  | none => simp [scanPrefixes, classify_opcodeByte]
  | some r => simp [scanPrefixes, classify_rexByte]

/-- REX, where the mode has it, is taken off before any opcode (R54). -/
theorem takeRex_rex_opcode {m : Mode} {p : Prefixes} (hrex : p.rexAllowed m = true) (op : StringOp) (w : OpSize)
    (rest : List Byte) :
    takeRex m (p.rex.toList.map rexByte ++ opcodeByte op w :: rest) = (p.rex, opcodeByte op w :: rest) := by
  cases hx : p.rex with
  | none => exact takeRex_opcodeByte m op w rest
  | some r =>
    cases m with
    | mode64 => exact takeRex_rexByte r _
    | modeCL d o => simp [Prefixes.rexAllowed, hx] at hrex

/-- The bytes of an instruction by its parts: its legacy prefixes around the repeat byte, REX, and the opcode (R50). -/
def partBytes (p : Prefixes) (k : RepKind) (op : StringOp) (w : OpSize) : List Byte :=
  p.before.map legacyByte ++ [repeatByte k] ++ p.after.map legacyByte ++ p.rex.toList.map rexByte ++ [opcodeByte op w]

theorem encode_eq_partBytes (i : Instr) : encode i = partBytes i.pre i.form.kind i.form.op i.form.w := by
  simp only [encode_eq, encodeTail, partBytes, List.append_assoc]

theorem scan_partBytes {p : Prefixes} (hone : p.oneEach = true) (k : RepKind) (op : StringOp) (w : OpSize)
    (rest : List Byte) :
    scanPrefixes (partBytes p k op w ++ rest) ⟨none, [], []⟩
      = .ok (⟨some (repByteOf k), p.before, p.after⟩, p.rex.toList.map rexByte ++ opcodeByte op w :: rest) := by
  rw [← scan_rex_opcode, ← scan_past_repeat hone]
  simp only [partBytes, List.append_assoc, List.singleton_append]

/-- A repeat byte that has no meaning before the opcode is refused (R62). -/
theorem decode_partBytes_of_kindOf_none {m : Mode} {p : Prefixes} {k : RepKind} {op : StringOp}
    (hone : p.oneEach = true) (hrex : p.rexAllowed m = true) (hk : kindOf op (repByteOf k) = none) (allow : Bool)
    (w : OpSize) (rest : List Byte) : decode m allow (partBytes p k op w ++ rest) = .error .f2OnNonCompare := by
  simp only [decode, scan_partBytes hone, takeRex_rex_opcode hrex, stringOf_opcodeByte, hk]

/-- The kind of what is decoded is the one the repeat byte gives. -/
theorem kind_of_decode_partBytes {m : Mode} {allow : Bool} {p : Prefixes} {k : RepKind} {op : StringOp} {w : OpSize}
    {rest : List Byte} {i : Instr} (hone : p.oneEach = true)
    (h : decode m allow (partBytes p k op w ++ rest) = .ok i) : repByteOf i.form.kind = repByteOf k := by
  obtain ⟨r, _, _, _, _, hscan, -, -, hkind, -⟩ := decode_ok_inv h
  rw [scan_partBytes hone] at hscan
  simp only [Except.ok.injEq, Prod.mk.injEq, Scan.mk.injEq, Option.some.injEq] at hscan
  obtain ⟨⟨hr, -, -⟩, -⟩ := hscan
  rw [repByteOf_of_kindOf hkind, hr]

/-- Each comparison has a REPNE row of every element and address size but a quadword at 16-bit addresses (R69, R145). -/
theorem exists_rowOf_repne {op : StringOp} {w : OpSize} {a : AddrSize} (hop : op.compares = true)
    (hsizes : ¬ (w = .b64 ∧ a = .a16)) (p : Prefixes) : ∃ i, rowOf ⟨.repne, op, w, a⟩ p = some i := by
  cases op with
  | cmps | scas => cases w <;> cases a <;> simp_all [rowOf]
  | _ => cases hop

/-- The bytes of a comparison give an element size in every mode: only 6DH and 6FH can have none (R55). -/
theorem exists_opSizeOf_of_compares {op : StringOp} (hop : op.compares = true) (m : Mode) (isByte w o66 : Bool) :
    ∃ v, opSizeOf m op isByte w o66 = some v := by
  have hio : op.isIo = false := by cases op <;> simp_all [StringOp.compares, StringOp.isIo]
  cases isByte <;> cases w <;> cases m <;> simp [opSizeOf, hio]

/-- F2H, any prefixes an instruction can have and the opcode of a comparison are the bytes of a well-formed instruction,
of the sizes that the mode gives. -/
theorem exists_repne_of_compares {m : Mode} {p : Prefixes} {op : StringOp} (hone : p.oneEach = true)
    (hrex : p.rexAllowed m = true) (hop : op.compares = true) (w : OpSize) :
    ∃ i, wellFormed m i = true ∧ encode i = partBytes p .repne op w := by
  obtain ⟨v, hv⟩ := exists_opSizeOf_of_compares hop m (decide (w = .b8)) p.rexW p.has66
  obtain ⟨hfit, hbyte⟩ := fits_of_opSizeOf m op _ v p hrex hv
  have hafit := fits_of_addrSizeOf m p
  have hsizes : ¬ (v = .b64 ∧ addrSizeOf m p.has67 = .a16) := by
    rintro ⟨hv64, ha16⟩
    have henc := Machine.encodable_of_sizesFit hafit hfit
    rw [hv64, ha16] at henc
    cases m <;> cases henc
  obtain ⟨i, hi⟩ := exists_rowOf_repne hop hsizes p
  obtain ⟨hform, hpre⟩ := rowOf_inv _ _ _ hi
  have hopc : opcodeByte op v = opcodeByte op w := stringOf_inv _ op _ (stringOf_opcodeByte op w) v hbyte
  refine ⟨i, wellFormed_iff.mpr ?_, ?_⟩
  · rw [hform, hpre]
    exact ⟨hone, hrex, hafit, hfit⟩
  · rw [encode_eq_partBytes, hform, hpre, partBytes, hopc, partBytes]

/-- An opcode byte by its instruction and a width of its form (R51). -/
theorem exists_opcodeByte_of_stringOf {opc : Byte} {c : Bool} (h : (stringOf opc).map (·.1.compares) = some c) :
    ∃ op w, op.compares = c ∧ opc = opcodeByte op w := by
  obtain ⟨⟨op, isByte⟩, hx, hc⟩ := Option.map_eq_some_iff.mp h
  cases isByte with
  | true => exact ⟨op, .b8, hc, (stringOf_inv opc op _ hx .b8 rfl).symm⟩
  | false => exact ⟨op, .b16, hc, (stringOf_inv opc op _ hx .b16 rfl).symm⟩

/-- The ten opcodes that do not compare (R51, R62). -/
theorem stringOf_notComparing : ∀ opc ∈ ([0x6C, 0x6D, 0x6E, 0x6F, 0xA4, 0xA5, 0xAA, 0xAB, 0xAC, 0xAD] : List Byte),
    (stringOf opc).map (·.1.compares) = some false := by decide

/-- The four opcodes that compare (R51, R62). -/
theorem stringOf_comparing : ∀ opc ∈ ([0xA6, 0xA7, 0xAE, 0xAF] : List Byte),
    (stringOf opc).map (·.1.compares) = some true := by decide

theorem kindOf_f2_of_notComparing {op : StringOp} (hop : op.compares = false) : kindOf op .f2 = none := by
  simp [kindOf, hop]

theorem repByteOf_eq_f2_iff (k : RepKind) : repByteOf k = .f2 ↔ k = .repne := by cases k <;> decide

/-- Settles O7: F2H has no kind before the ten; before the four the bytes are those of a well-formed REPNE instruction. -/
theorem repneNeedsComparison : Obligations.RepneNeedsComparison := by
  intro m allow p opc rest hone hrex bs
  have hf2 : (0xF2 : Byte) = repeatByte .repne := rfl
  have hbs {op : StringOp} {w : OpSize} (hopc : opc = opcodeByte op w) : bs = partBytes p .repne op w ++ rest := by
    simp only [bs, hf2, hopc, partBytes, List.append_assoc, List.singleton_append]
  refine ⟨fun hmem => ?_, fun hmem => ?_⟩
  · obtain ⟨op, w, hop, hopc⟩ := exists_opcodeByte_of_stringOf (stringOf_notComparing opc hmem)
    rw [hbs hopc, decode_partBytes_of_kindOf_none hone hrex (kindOf_f2_of_notComparing hop)]
  · obtain ⟨op, w, hop, hopc⟩ := exists_opcodeByte_of_stringOf (stringOf_comparing opc hmem)
    rw [hbs hopc]
    refine ⟨?_, fun i hi => ?_⟩
    · obtain ⟨i, hwf, henc⟩ := exists_repne_of_compares hone hrex hop w
      exact ⟨i, henc ▸ decode_encode_append hwf rfl rest⟩
    · exact (repByteOf_eq_f2_iff _).mp (kind_of_decode_partBytes hone hi)

end Sys2Proof
end

section
/-! PROOFS. The family 40_rep_prefix.md: REX and the address size (R98), the flags of a comparison (R94 to R96), where
each iteration completes and what it leaves (R73, R80, R87 to R93), faults and resumption (R79, R82 to R84, R161), and
the repeat as a loop, its registers and its run (R72 to R78, R81, R172). -/

namespace Sys2Proof

/-! Decoding: what the REX byte and the admission of unlisted forms change. -/

/-- The scan reads its way through bytes of prefixes to a tail at which it ends (R59). -/
theorem scan_append {bs tail : List Byte} (htail : ∀ sc, scanPrefixes tail sc = .ok (sc, tail))
    (hbs : ∀ b ∈ bs, classify b ≠ .other) (sc : Scan) :
    scanPrefixes (bs ++ tail) sc = (scanPrefixes bs sc).map fun r => (r.1, tail) := by
  induction bs generalizing sc with
  | nil => exact htail sc
  | cons b bs ih =>
    obtain ⟨hb, hbs⟩ := List.forall_mem_cons.mp hbs
    rw [List.cons_append, scanPrefixes, scanPrefixes]
    cases hclass : classify b with
    | other => exact absurd hclass hb
    | lock => rfl
    | rep r =>
      dsimp only
      split
      · rfl
      · exact ih hbs _
    | legacy l =>
      dsimp only
      split
      · rfl
      · exact ih hbs _

/-- The bytes of an instruction up to its repeat byte and the legacy prefixes after it (R50). -/
def prefixBytes (before after : List Legacy) (k : RepKind) : List Byte :=
  before.map legacyByte ++ [repeatByte k] ++ after.map legacyByte

theorem classify_prefixBytes {before after : List Legacy} {k : RepKind} :
    ∀ b ∈ prefixBytes before after k, classify b ≠ .other := by
  intro b hb
  simp only [prefixBytes, List.mem_append, List.mem_map, List.mem_singleton] at hb
  obtain (⟨l, -, rfl⟩ | rfl) | ⟨l, -, rfl⟩ := hb
  · simp [classify_legacyByte]
  · simp [classify_repeatByte]
  · simp [classify_legacyByte]

/-- In 64-bit mode the kind and the address size of what is decoded come from the bytes before REX and the string
instruction of the opcode, whatever REX byte stands between them (R54, R98). -/
theorem decode_rex_opcode_inv {allow : Bool} {before after : List Legacy} {x : Option Rex} {k : RepKind} {op : StringOp}
    {w : OpSize} {rest : List Byte} {i : Instr}
    (h : decode .mode64 allow
      (prefixBytes before after k ++ (x.toList.map rexByte ++ opcodeByte op w :: rest)) = .ok i) :
    ∃ r tail, scanPrefixes (prefixBytes before after k) ⟨none, [], []⟩ = .ok (⟨some r, i.pre.before, i.pre.after⟩, tail)
      ∧ i.form.op = op ∧ kindOf op r = some i.form.kind ∧ addrSizeOf .mode64 i.pre.has67 = i.form.a := by
  obtain ⟨r, left, tl, opc, isByte, hscan, htake, hstring, hkind, -, haddr, -⟩ := decode_ok_inv h
  rw [scan_append (scan_rex_opcode x op w rest) classify_prefixBytes] at hscan
  cases hbefore : scanPrefixes (prefixBytes before after k) ⟨none, [], []⟩ with
  | error e => rw [hbefore] at hscan; cases hscan
  | ok q =>
    obtain ⟨sc, tail⟩ := q
    rw [hbefore] at hscan
    obtain ⟨rfl, rfl⟩ := Prod.mk.inj (Except.ok.inj hscan)
    have hrex := takeRex_rex_opcode (m := .mode64) (p := ⟨before, after, x⟩) rfl op w rest
    obtain ⟨-, hopc⟩ := Prod.mk.inj (htake.symm.trans hrex)
    obtain ⟨rfl, -⟩ := List.cons.inj hopc
    rw [stringOf_opcodeByte] at hstring
    obtain ⟨rfl, -⟩ := Prod.mk.inj (Option.some.inj hstring)
    exact ⟨r, tail, rfl, rfl, hkind, haddr⟩

/-- Settles O9: the bytes before REX are scanned to the same prefixes; the three examples are evaluated. -/
theorem rexKeepsAddressSize : Obligations.RexKeepsAddressSize := by
  refine ⟨fun allow i j before after x y kind op w w' rest rest' hi hj => ?_, rfl, rfl, rfl⟩
  rw [List.append_assoc _ (x.toList.map rexByte)] at hi
  rw [List.append_assoc _ (y.toList.map rexByte)] at hj
  obtain ⟨r, _, hscan, hop, hkind, haddr⟩ := decode_rex_opcode_inv hi
  obtain ⟨r', _, hscan', hop', hkind', haddr'⟩ := decode_rex_opcode_inv hj
  rw [hscan] at hscan'
  obtain ⟨hsc, -⟩ := Prod.mk.inj (Except.ok.inj hscan')
  obtain ⟨hr, hbefore, hafter⟩ := Scan.mk.inj hsc
  have h67 : i.pre.has67 = j.pre.has67 := by simp only [Prefixes.has67, Prefixes.legacy, hbefore, hafter]
  refine ⟨by rw [← haddr, ← haddr', h67], Option.some.inj ?_, hop.trans hop'.symm⟩
  rw [← hkind, ← hkind', Option.some.inj hr]

/-- The admission of unlisted forms is looked at last (R68, R145). -/
theorem decode_of_decode_admitted {m : Mode} {bs : List Byte} {i : Instr} (h : decode m true bs = .ok i)
    (allow : Bool) : decode m allow bs = if allow || i.listed then .ok i else .error .formNotListed := by
  obtain ⟨r, rest, tl, opc, isByte, hscan, htake, hstring, hkind, hsize, haddr, -⟩ := decode_ok_inv h
  have hpre : (⟨i.pre.before, i.pre.after, i.pre.rex⟩ : Prefixes) = i.pre := rfl
  have hrow : rowOf ⟨i.form.kind, i.form.op, i.form.w, i.form.a⟩ i.pre = some i := rowOf_form i
  simp only [decode, hscan, htake, hstring, hkind, hpre, hsize, haddr, hrow]

/-- Settles O6: every stage before the admission is the same. -/
theorem unlistedFormsNeedAdmission : Obligations.UnlistedFormsNeedAdmission := fun _ _ _ h =>
  decode_of_decode_admitted h false

namespace Machine

/-- Settles O47: the converse of the inversion of the step. -/
theorem stepRunsDecoded : Obligations.StepRunsDecoded := fun _ _ he hi hc => step_eq_exec he hi hc

/-! The flags of a comparison (R94, R95). -/

/-- The parity of the number of elements that satisfy `f`, as an exclusive or. -/
theorem filter_length_even_iff {α : Type} (f : α → Bool) (l : List α) :
    (l.filter f).length % 2 = 0 ↔ l.foldr (fun x b => f x ^^ b) false = false := by
  induction l with
  | nil => simp
  | cons x l ih =>
    rw [List.foldr_cons, List.filter_cons]
    cases hx : f x with
    | false => simpa using ih
    | true =>
      simp only [if_true, List.length_cons, Bool.true_xor, Bool.not_eq_false']
      rw [← Bool.not_eq_false, ← ih]
      omega

theorem evenParity_iff (b : Byte) :
    evenParity b = true ↔ ((List.range 8).filter fun k => b.getLsbD k).length % 2 = 0 := by
  rw [filter_length_even_iff]
  simp [evenParity, List.range_succ]

theorem decide_xor_decide (p q : Prop) [Decidable p] [Decidable q] :
    (decide p ^^ decide q) = decide ¬(p ↔ q) := by
  by_cases hp : p <;> by_cases hq : q <;> simp [hp, hq]

/-- The borrow out of bit 3 is what bit 4 of a difference has besides the bits of its operands (R94). -/
theorem testBit_four_sub {n X Y : Nat} (hn : 5 ≤ n) (hY : Y < 2 ^ n) :
    (X ^^^ Y ^^^ (X + (2 ^ n - Y)) % 2 ^ n).testBit 4 = decide (X % 16 < Y % 16) := by
  obtain ⟨c, hc⟩ : 32 ∣ 2 ^ n := pow_dvd_pow 2 hn
  have hR : (X + (2 ^ n - Y)) % 2 ^ n % 32 = (X % 32 + (32 - Y % 32)) % 32 := by
    rw [Nat.mod_mod_of_dvd _ ⟨c, hc⟩]
    omega
  generalize (X + (2 ^ n - Y)) % 2 ^ n = R at hR
  rw [Nat.testBit_xor, Nat.testBit_xor]
  simp only [Nat.testBit_eq_decide_div_mod_eq, decide_xor_decide, decide_eq_decide]
  omega

section
variable {W : Nat} (x y : BitVec W)

/-- `(x - y) mod 2^W` (R94). -/
theorem toNat_sub_eq : (x - y).toNat = (x.toNat + (2 ^ W - y.toNat)) % 2 ^ W := by
  rw [BitVec.toNat_sub, Nat.add_comm]

theorem msb_eq_testBit {W : Nat} (x : BitVec W) : x.msb = x.toNat.testBit (W - 1) := by
  rw [BitVec.msb_eq_getLsbD_last, BitVec.testBit_toNat]

/-- What the six flags of `SubFlags` say of two `n`-bit numbers (R94, R95). -/
def flagsOfNumbers (n X Y : Nat) (f : StatusFlags) : Prop :=
  let R := (X + (2 ^ n - Y)) % 2 ^ n
  (f.zf = true ↔ X = Y) ∧ (f.cf = true ↔ X < Y) ∧ f.sf = R.testBit (n - 1)
    ∧ (f.of = true ↔ X.testBit (n - 1) ≠ Y.testBit (n - 1) ∧ R.testBit (n - 1) ≠ X.testBit (n - 1))
    ∧ (f.af = true ↔ X % 16 < Y % 16) ∧ f.af = (X ^^^ Y ^^^ R).testBit 4
    ∧ (f.pf = true ↔ ((List.range 8).filter fun k => R.testBit k).length % 2 = 0)

theorem subFlagsAt_numbers (hW : 8 ≤ W) : flagsOfNumbers W x.toNat y.toNat (subFlagsAt W x y) := by
  have haf : (subFlagsAt W x y).af = decide (x.toNat % 16 < y.toNat % 16) := by
    simp [subFlagsAt, BitVec.ult]
  refine ⟨?_, ?_, ?_, ?_, ?_, ?_, ?_⟩
  · simp [subFlagsAt, BitVec.toNat_inj, BitVec.sub_eq_iff_eq_add]
  · simp [subFlagsAt, BitVec.ult]
  · rw [← toNat_sub_eq, ← msb_eq_testBit]; rfl
  · simp only [← toNat_sub_eq, ← msb_eq_testBit]; simp [subFlagsAt]
  · simp [haf]
  · rw [haf, testBit_four_sub (by omega) y.isLt]
  · rw [← toNat_sub_eq]
    have hbit : ∀ k ∈ List.range 8, ((x - y).setWidth 8).getLsbD k = (x - y).toNat.testBit k := fun k hk => by
      simp [List.mem_range.mp hk, ← BitVec.testBit_toNat]
    show evenParity ((x - y).setWidth 8) = true ↔ _
    rw [evenParity_iff, List.filter_congr hbit]
end

/-- Settles O16, from one argument for every width of at least a byte. -/
theorem subtractionFlags : Obligations.SubtractionFlags := by
  intro w x y
  have hlow {n : Nat} (hn : 8 ≤ n) := subFlagsAt_numbers (x.setWidth n) (y.setWidth n) hn
  simp only [BitVec.toNat_setWidth] at hlow
  cases w with
  | b8 => exact hlow (by decide)
  | b16 => exact hlow (by decide)
  | b32 => exact hlow (by decide)
  | b64 =>
    have h64 := hlow (n := 64) (by decide)
    rwa [BitVec.setWidth_eq, BitVec.setWidth_eq] at h64

/-! Executions of zero iterations, and interrupts in the window. -/

theorem countReg_zeroCount (a : AddrSize) (s : State) : countReg a (zeroCount a s) = countReg a s := by
  rw [zeroCount_eq]
  split
  · rw [countReg_setCount]
    exact addrView_get_of_lt a _ (by rw [countReg_toNat]; exact Nat.mod_lt _ (by positivity))
  · rfl

/-- Settles O19: the repeat step completes at once, and `zeroCount` writes RCX alone. -/
theorem zeroCountCompletes : Obligations.ZeroCountCompletes := by
  intro i s he h0
  refine ⟨_, (exec_eq i s).trans (repStep_zero he h0), by simp, (countReg_zeroCount _ s).trans h0, ?_, by simp⟩
  rw [complete_rcx, zeroCount_eq]
  split
  · next hany => exact .inr hany
  · exact .inl rfl

/-- Settles O20: the repeat step answers the serviced state before it looks at the element. -/
theorem interruptWindow : Obligations.InterruptWindow := by
  intro i s h rest he h0 hw
  refine ⟨_, (exec_eq i s).trans (repStep_interrupt he h0 hw), by simp, by simp, by simp, by simp [hw], ?_⟩
  cases h with
  | identity => exact ⟨rfl, rfl, rfl, rfl, rfl, rfl, rfl, rfl, rfl⟩
  | leaves => exact ⟨rfl, rfl, rfl, rfl, rfl, rfl, rfl, rfl, rfl⟩

/-! Status flags before an execution (R96). -/

/-- An instruction that does not compare has the repeat kind REP, which looks at no flag (R52, R74). -/
theorem stopsOn_of_notComparing {i : Instr} (h : i.form.op.compares = false) (zf : Bool) :
    stopsOn i.form.kind zf = false := by
  have hk := kindOf_form i
  cases hkind : i.form.kind with
  | rep => rfl
  | repe | repne => simp [kindOf, h, hkind, repByteOf] at hk

/-- No element operation that goes through reads a status flag, and CMPS and SCAS write all six: it leaves the same
state but for flags `g`, which are the same too where it compares (R96). -/
theorem elementOf_setStatus {i : Instr} {s u : State} (f : StatusFlags) (h : elementOf i s = .next u) :
    ∃ g, elementOf i (setStatus f s) = .next (setStatus g u) ∧ (i.form.op.compares = true → g = u.status) := by
  unfold elementOf at h ⊢
  cases hop : i.form.op <;> simp only [hop] at h ⊢
  case ins =>
    obtain ⟨hp, hd, hc, rfl⟩ := elementIns_next_inv h
    exact ⟨f, elementIns_of_ok (s := setStatus f s) hp hd hc, nofun⟩
  case movs =>
    obtain ⟨hs, hd, hc, v, hv, rfl⟩ := elementMovs_next_inv h
    exact ⟨f, elementMovs_of_ok (s := setStatus f s) hs hd hv hc, nofun⟩
  case outs =>
    obtain ⟨hp, hs, v, hv, rfl⟩ := elementOuts_next_inv h
    exact ⟨f, elementOuts_of_ok (s := setStatus f s) hp hs hv, nofun⟩
  case lods =>
    obtain ⟨hs, v, hv, rfl⟩ := elementLods_next_inv h
    exact ⟨f, elementLods_of_ok (s := setStatus f s) hs hv, nofun⟩
  case stos =>
    obtain ⟨hd, hc, rfl⟩ := elementStos_next_inv h
    exact ⟨f, elementStos_of_ok (s := setStatus f s) hd hc, nofun⟩
  case cmps =>
    obtain ⟨hs, hd, x, y, hx, hy, rfl⟩ := elementCmps_next_inv h
    exact ⟨_, elementCmps_of_ok (s := setStatus f s) hs hd hx hy, fun _ => rfl⟩
  case scas =>
    obtain ⟨hd, y, hy, rfl⟩ := elementScas_next_inv h
    exact ⟨_, elementScas_of_ok (s := setStatus f s) hd hy, fun _ => rfl⟩

@[simp] theorem countReg_setStatus (a : AddrSize) (f : StatusFlags) (s : State) :
    countReg a (setStatus f s) = countReg a s := rfl

theorem enter_setStatus (f : StatusFlags) (s : State) :
    enter (setStatus f s) = withEntryFlags (some (s.entryFlags.getD f)) (setStatus f (enter s)) := rfl

theorem complete_zeroCount_setStatus (a : AddrSize) (ilen : Nat) (f : StatusFlags) (s : State) :
    complete ilen (zeroCount a (setStatus f s)) = setStatus f (complete ilen (zeroCount a s)) := by
  rw [zeroCount_eq, zeroCount_eq, setStatus_launch]
  split <;> rfl

/-- A handler leaves its own flags, or those that were there (R159). -/
theorem serviced_setStatus (h : HandlerEffect) (f : StatusFlags) (s : State) :
    ∃ g, serviced h (setStatus f s) = setStatus g (serviced h s) := by
  cases h with
  | identity => exact ⟨f, rfl⟩
  | leaves _ _ _ _ _ status => exact ⟨status, rfl⟩

theorem endIteration_setStatus {kind : RepKind} {g : StatusFlags} {u : State}
    (h : stopsOn kind g.zf = stopsOn kind u.status.zf) (a : AddrSize) (ilen : Nat) :
    endIteration kind a ilen (setStatus g u) = setStatus g (endIteration kind a ilen u) := by
  have hset (v : Word) : setCount a v (setStatus g u) = setStatus g (setCount a v u) := rfl
  simp only [endIteration_eq, setStatus_status, h, hset, countReg_setStatus]
  split <;> rfl

/-- The same execution from other status flags ends in the same state but for the record and its flags `g`: those of the
comparison where there is one, and those it began with where nothing is compared (R96). -/
theorem exec_setStatus {i : Instr} {s t : State} (f : StatusFlags) (h : exec i s = .next t) :
    ∃ t' g, exec i (setStatus f s) = .next t' ∧ sameButEntryFlags (setStatus g t) t'
      ∧ (i.form.op.compares = true → entered i.form.w i.form.a s → g = t.status)
      ∧ (countReg i.form.a s = 0#64 → g = f) := by
  rw [exec_eq] at h
  rw [exec_eq]
  obtain ⟨he, ⟨h0, rfl⟩ | ⟨h0, x, rest, hw, rfl⟩ | ⟨hent, u, hu, rfl⟩⟩ := repStep_next_inv h
  · refine ⟨_, f, repStep_zero (s := setStatus f s) he h0, ?_, fun _ ⟨_, hne, _⟩ => absurd h0 hne, fun _ => rfl⟩
    rw [complete_zeroCount_setStatus]; rfl
  · obtain ⟨g, hg⟩ := serviced_setStatus x f s
    refine ⟨_, g, repStep_interrupt (s := setStatus f s) he h0 hw, ?_, fun _ ⟨_, _, hq⟩ => ?_, fun h => absurd h h0⟩
    · rw [hg]; rfl
    · simp [quiet, hw] at hq
  · have ⟨_, h0, _⟩ := hent
    obtain ⟨g, hg, hcmp⟩ := elementOf_setStatus f hu
    have hstop : stopsOn i.form.kind g.zf = stopsOn i.form.kind u.status.zf := by
      cases hc : i.form.op.compares with
      | true => rw [hcmp hc]
      | false => rw [stopsOn_of_notComparing hc, stopsOn_of_notComparing hc]
    refine ⟨endIteration i.form.kind i.form.a i.ilen (withEntryFlags (some (s.entryFlags.getD f)) (setStatus g u)), g,
      ?_, ?_, fun hc _ => by rw [hcmp hc, endIteration_status], fun h => absurd h h0⟩
    · rw [repStep_iteration (s := setStatus f s) hent, enter_setStatus, elementOf_withEntryFlags _ hg, andThen_next]
    · rw [← endIteration_setStatus hstop]
      exact endIteration_withEntryFlags _ _ _ _ _

/-- Settles O23: what is left is the state of the other execution but for its flags and the record. -/
theorem flagsNeedNoInitialisation : Obligations.FlagsNeedNoInitialisation := by
  intro i s t f h
  obtain ⟨t', g, ht', hsame, hcmp, hzero⟩ := exec_setStatus f h
  have hstatus : t'.status = g := congrArg State.status hsame
  refine ⟨t', ht', congrArg (setStatus t.status) hsame, fun hop hent => ?_, fun h0 => hstatus.trans (hzero h0)⟩
  exact hstatus.trans (hcmp (by rcases hop with hop | hop <;> rw [hop] <;> rfl) hent)

/-! Where an iteration completes, and what it leaves. -/

section
variable {i : Instr} {k : RepKind} {op : StringOp} {w : OpSize} {a : AddrSize}

theorem elementOf_ins (h : i.form = ⟨k, .ins, w, a⟩) : elementOf i = elementIns w a i.ilen := by
  simp only [elementOf, h]

theorem elementOf_movs (h : i.form = ⟨k, .movs, w, a⟩) : elementOf i = elementMovs w a i.pre.sourceSeg i.ilen := by
  simp only [elementOf, h]

theorem elementOf_outs (h : i.form = ⟨k, .outs, w, a⟩) : elementOf i = elementOuts w a i.pre.sourceSeg := by
  simp only [elementOf, h]

theorem elementOf_lods (h : i.form = ⟨k, .lods, w, a⟩) : elementOf i = elementLods w a i.pre.sourceSeg := by
  simp only [elementOf, h]

theorem elementOf_stos (h : i.form = ⟨k, .stos, w, a⟩) : elementOf i = elementStos w a i.ilen := by
  simp only [elementOf, h]

theorem elementOf_cmps (h : i.form = ⟨k, .cmps, w, a⟩) : elementOf i = elementCmps w a i.pre.sourceSeg := by
  simp only [elementOf, h]

theorem elementOf_scas (h : i.form = ⟨k, .scas, w, a⟩) : elementOf i = elementScas w a := by
  simp only [elementOf, h]

/-- An iteration whose element operation goes through, for an instruction of known form. -/
theorem exec_of_element {el : State → Result} {s u : State} (hform : i.form = ⟨k, op, w, a⟩) (hel : elementOf i = el)
    (hent : entered w a s) (hu : el (enter s) = .next u) : exec i s = .next (endIteration k a i.ilen u) := by
  have hent' : entered i.form.w i.form.a s := by rwa [hform]
  rw [exec_iteration i s hent', hel, hu, andThen_next, hform]

/-- What every iteration moves (R75, R76, R85). -/
theorem exec_advances {s t : State} (hent : entered i.form.w i.form.a s) (h : exec i s = .next t) :
    afterIteration i.form.kind i.form.a i.ilen s t
      ∧ (usesSource i.form.op = true → sourceMoved i.form.a i.form.w s t)
      ∧ (usesSource i.form.op = false → t.rsi = s.rsi)
      ∧ (usesDest i.form.op = true → destMoved i.form.a i.form.w s t)
      ∧ (usesDest i.form.op = false → t.rdi = s.rdi) := by
  have ⟨_, _, hq⟩ := hent
  obtain ⟨-, hmoves⟩ := everyIterationAdvances i s t hq h
  exact hmoves hent

/-- The same for an instruction of known form. -/
theorem exec_moves {s t : State} (hform : i.form = ⟨k, op, w, a⟩) (hent : entered w a s) (h : exec i s = .next t) :
    afterIteration k a i.ilen s t ∧ (usesSource op = true → sourceMoved a w s t)
      ∧ (usesSource op = false → t.rsi = s.rsi) ∧ (usesDest op = true → destMoved a w s t)
      ∧ (usesDest op = false → t.rdi = s.rdi) := by
  have hmoves := exec_advances (i := i) (by rwa [hform]) h
  rwa [hform] at hmoves

end

@[simp] theorem portReg_enter (s : State) : portReg (enter s) = portReg s := rfl
@[simp] theorem portValue_enter (w : OpSize) (s : State) : portValue w (enter s) = portValue w s := rfl
@[simp] theorem acc_enter (w : OpSize) (s : State) : acc w (enter s) = acc w s := rfl
@[simp] theorem srcAddr_enter (a : AddrSize) (seg : SegReg) (s : State) : srcAddr a seg (enter s) = srcAddr a seg s :=
  rfl
@[simp] theorem dstAddr_enter (a : AddrSize) (s : State) : dstAddr a (enter s) = dstAddr a s := rfl

/-- What a store leaves is told by memory alone. -/
theorem stored_of_mem {w : OpSize} {a v : Word} {s t : State}
    (h : t.mem = scatter s.mem (byteAddrs s.launch a w.bytes) v) : stored w a v s t := by
  have hstored := stored_writeElem w a v s
  rwa [stored, writeElem_mem, ← h] at hstored

/-- A port access moves the low `W` bits (R25). -/
theorem portTrunc_toNat (w : OpSize) (v : BitVec 32) : (portTrunc w v).toNat = v.toNat % 2 ^ w.bits := by
  cases w <;> simp only [portTrunc, OpSize.bits, BitVec.toNat_setWidth] <;> omega

/-- What a port read answers: `W` bits, those of the launch's next answer where there is one (R8, R25). -/
theorem portValue_spec (w : OpSize) (s : State) :
    (portValue w s).toNat < 2 ^ w.bits
      ∧ ∀ x xs, s.ioInput = x :: xs → (portValue w s).toNat = x.toNat % 2 ^ w.bits := by
  refine ⟨?_, fun x xs h => ?_⟩
  · rw [portValue, portTrunc_toNat]
    exact Nat.mod_lt _ (by positivity)
  · rw [portValue, portTrunc_toNat, h]

/-- An element of `W` bits goes to the port whole (R25, R89). -/
theorem portTrunc_of_lt {w : OpSize} {v : Word} (h : v.toNat < 2 ^ w.bits) :
    portTrunc w (v.setWidth 32) = v.setWidth 32 := by
  refine BitVec.eq_of_toNat_eq ?_
  rw [portTrunc_toNat, BitVec.toNat_setWidth, Nat.mod_eq_of_lt ((Nat.mod_le _ _).trans_lt h)]

/-- Settles O24: the element operation of INS under exactly the conditions of R87. -/
theorem insIteration : Obligations.InsIteration := by
  intro i w a s hform hent hp hd hc
  have hexec := exec_of_element hform (elementOf_ins hform) hent (elementIns_of_ok (s := enter s) hp hd hc)
  obtain ⟨hafter, -, hrsi, hrdi, -⟩ := exec_moves hform hent hexec
  obtain ⟨hlt, hval⟩ := portValue_spec w s
  exact ⟨_, portValue w s, hexec, hlt, hval, by simp, by simp, stored_of_mem (by simp), hrdi rfl, hafter,
    by simp, hrsi rfl, by simp⟩

/-- Settles O25: the element operation of MOVS under exactly the conditions of R88. -/
theorem movsIteration : Obligations.MovsIteration := by
  intro i w a s v hform hent hs hd hv hc
  have hexec := exec_of_element hform (elementOf_movs hform) hent (elementMovs_of_ok (s := enter s) hs hd hv hc)
  obtain ⟨hafter, hrsi, -, hrdi, -⟩ := exec_moves hform hent hexec
  exact ⟨_, hexec, stored_of_mem (by simp), hrsi rfl, hrdi rfl, hafter, by simp, by simp, by simp, by simp⟩

/-- Settles O26: the element operation of OUTS under exactly the conditions of R89. -/
theorem outsIteration : Obligations.OutsIteration := by
  intro i w a s v hform hent hp hs hv
  have hexec := exec_of_element hform (elementOf_outs hform) hent (elementOuts_of_ok (s := enter s) hp hs hv)
  obtain ⟨hafter, hrsi, -, -, hrdi⟩ := exec_moves hform hent hexec
  obtain ⟨hlt, -⟩ := readElem_bytes hv
  refine ⟨_, hexec, ?_, hrsi rfl, hafter, by simp, hrdi rfl, by simp, by simp, by simp⟩
  simp [portTrunc_of_lt hlt]

/-! The accumulator (R12, R15). -/

theorem accView_get_toNat (w : OpSize) (r : Word) : ((accView w).get r).toNat = r.toNat % 2 ^ w.bits := by
  obtain ⟨h8, -, h16, h32, -⟩ := viewReads r
  cases w with
  | b8 => exact h8
  | b16 => exact h16
  | b32 => exact h32
  | b64 => exact (Nat.mod_eq_of_lt r.isLt).symm

theorem acc_lt (w : OpSize) (s : State) : (acc w s).toNat < 2 ^ w.bits := by
  rw [acc, accView_get_toNat]
  exact Nat.mod_lt _ (by positivity)

theorem append_setWidth_mod {k n : Nat} (hi : BitVec k) (v : Word) :
    (hi ++ v.setWidth n).toNat % 2 ^ n = v.toNat % 2 ^ n := by
  rw [append_toNat_mod, BitVec.toNat_setWidth]

theorem accView_put_mod (m : Mode) (w : OpSize) (old v : Word) :
    ((accView w).put m old v).toNat % 2 ^ w.bits = v.toNat % 2 ^ w.bits := by
  cases w with
  | b8 => exact append_setWidth_mod (old.extractLsb' 8 56) v
  | b16 => exact append_setWidth_mod (old.extractLsb' 16 48) v
  | b32 =>
    cases m with
    | mode64 => exact append_setWidth_mod 0#32 v
    | modeCL d o => exact append_setWidth_mod (old.extractLsb' 32 32) v
  | b64 => rfl

/-- The accumulator view holds the element written to it (R90). -/
theorem accView_get_put {w : OpSize} {v : Word} (m : Mode) (old : Word) (h : v.toNat < 2 ^ w.bits) :
    (accView w).get ((accView w).put m old v) = v :=
  BitVec.eq_of_toNat_eq (by rw [accView_get_toNat, accView_put_mod, Nat.mod_eq_of_lt h])

/-- The bits above a write into the low `n` bits that keeps them (R12). -/
theorem extractLsb'_append_div (old : Word) {k n : Nat} (hkn : n + k = 64) (v : BitVec n) :
    (old.extractLsb' n k ++ v).toNat / 2 ^ n = old.toNat / 2 ^ n := by
  rw [append_toNat_div, BitVec.extractLsb'_toNat, Nat.shiftRight_eq_div_pow]
  refine Nat.mod_eq_of_lt (Nat.div_lt_of_lt_mul ?_)
  rw [← pow_add, hkn]
  exact old.isLt

/-- The bits of RAX above the accumulator view (R12, R90). -/
theorem accView_put_upper (m : Mode) (w : OpSize) (old v : Word) :
    (w = .b8 ∨ w = .b16 → ((accView w).put m old v).toNat / 2 ^ w.bits = old.toNat / 2 ^ w.bits)
      ∧ (w = .b32 → ((accView w).put m old v).toNat / 2 ^ 32 = if m = .mode64 then 0 else old.toNat / 2 ^ 32) := by
  cases w with
  | b8 => exact ⟨fun _ => extractLsb'_append_div old rfl (v.setWidth 8), nofun⟩
  | b16 => exact ⟨fun _ => extractLsb'_append_div old rfl (v.setWidth 16), nofun⟩
  | b32 =>
    cases m with
    | mode64 => exact ⟨nofun, fun _ => append_toNat_div 0#32 (v.setWidth 32)⟩
    | modeCL d o => exact ⟨nofun, fun _ => extractLsb'_append_div old rfl (v.setWidth 32)⟩
  | b64 => exact ⟨nofun, nofun⟩

/-- Settles O27: the element operation of LODS, and the views of RAX. -/
theorem lodsIteration : Obligations.LodsIteration := by
  intro i w a s v hform hent hs hv
  have hexec := exec_of_element hform (elementOf_lods hform) hent (elementLods_of_ok (s := enter s) hs hv)
  obtain ⟨hafter, hrsi, -, -, hrdi⟩ := exec_moves hform hent hexec
  obtain ⟨hlt, -⟩ := readElem_bytes hv
  obtain ⟨hnarrow, hdouble⟩ := accView_put_upper s.launch.mode w s.rax v
  refine ⟨_, hexec, ?_, ?_, ?_, hrsi rfl, hafter, hrdi rfl, by simp, by simp, by simp, by simp⟩
  · simpa [acc] using accView_get_put s.launch.mode s.rax hlt
  · simpa using hnarrow
  · simpa using hdouble

/-- Two words with the same low `8n` bits have the same low `n` bytes. -/
theorem extractLsb'_eq_of_toNat_mod {u v : Word} {n k : Nat} (h : u.toNat % 2 ^ (8 * n) = v.toNat % 2 ^ (8 * n))
    (hk : k < n) : u.extractLsb' (8 * k) 8 = v.extractLsb' (8 * k) 8 := by
  refine BitVec.eq_of_getLsbD_eq fun b hb => ?_
  have hbit := congrArg (Nat.testBit · (8 * k + b)) h
  have hlt : 8 * k + b < 8 * n := by omega
  simpa [Nat.testBit_mod_two_pow, BitVec.testBit_toNat, hlt, hb] using hbit

/-- Storing the accumulator view stores the low bytes of RAX (R15, R91). -/
theorem stored_acc {w : OpSize} {addr : Word} {s t : State} (h : stored w addr (acc w s) s t) :
    stored w addr s.rax s t := by
  obtain ⟨hbytes, hother⟩ := h
  refine ⟨fun k hk => ?_, hother⟩
  have hmod : (acc w s).toNat % 2 ^ (8 * w.bytes) = s.rax.toNat % 2 ^ (8 * w.bytes) := by
    rw [acc, accView_get_toNat, opSize_bits_eq, Nat.mod_mod]
  rw [hbytes k hk, extractLsb'_eq_of_toNat_mod hmod hk]

/-- Settles O28: the element operation of STOS under exactly the conditions of R91. -/
theorem stosIteration : Obligations.StosIteration := by
  intro i w a s hform hent hd hc
  have hexec := exec_of_element hform (elementOf_stos hform) hent (elementStos_of_ok (s := enter s) hd hc)
  obtain ⟨hafter, -, hrsi, hrdi, -⟩ := exec_moves hform hent hexec
  exact ⟨_, hexec, stored_acc (stored_of_mem (by simp)), hrdi rfl, hafter, by simp, hrsi rfl, by simp, by simp, by simp⟩

/-! The comparisons (R92, R93). -/

/-- ZF tells the equality of two elements (R94). -/
theorem subFlags_zf_iff {w : OpSize} {x y : Word} (hx : x.toNat < 2 ^ w.bits) (hy : y.toNat < 2 ^ w.bits) :
    (subFlags w x y).zf = true ↔ x = y := by
  obtain ⟨hzf, -⟩ := subtractionFlags w x y
  rw [hzf, Nat.mod_eq_of_lt hx, Nat.mod_eq_of_lt hy, BitVec.toNat_inj]

/-- Termination condition 2 for a comparison of `x` with `y` (R74). -/
theorem stopsOn_iff {x y : Word} {zf : Bool} (h : zf = true ↔ x = y) (k : RepKind) :
    stopsOn k zf = true ↔ (k = .repe ∧ x ≠ y) ∨ (k = .repne ∧ x = y) := by
  cases k <;> simp [stopsOn, ← h]

/-- Where a comparison completes the instruction (R74, R78). -/
theorem afterIteration_rip_of_comparison {k : RepKind} {a : AddrSize} {ilen : Nat} {s t : State} {x y : Word}
    (h : afterIteration k a ilen s t) (hzf : t.status.zf = true ↔ x = y) :
    t.rip = if (countReg a s).toNat = 1 ∨ (k = .repe ∧ x ≠ y) ∨ (k = .repne ∧ x = y)
      then nextRip s.launch.mode s.rip ilen else s.rip := by
  obtain ⟨-, -, hrip, -⟩ := h
  simpa only [stopsOn_iff hzf] using hrip

/-- Settles O29: the element operation of CMPS, and what ZF tells. -/
theorem cmpsIteration : Obligations.CmpsIteration := by
  intro i k w a s x y hform hent hs hd hx hy
  have hexec := exec_of_element hform (elementOf_cmps hform) hent (elementCmps_of_ok (s := enter s) hs hd hx hy)
  obtain ⟨hafter, hrsi, -, hrdi, -⟩ := exec_moves hform hent hexec
  obtain ⟨hxlt, -⟩ := readElem_bytes hx
  obtain ⟨hylt, -⟩ := readElem_bytes hy
  have hzf := subFlags_zf_iff hxlt hylt
  refine ⟨_, hexec, by simp, by simpa using hzf, hrsi rfl, hrdi rfl, hafter,
    afterIteration_rip_of_comparison hafter (by simpa using hzf), by simp, by simp, by simp, by simp⟩

/-- Settles O30: the element operation of SCAS, and what ZF tells. -/
theorem scasIteration : Obligations.ScasIteration := by
  intro i k w a s y hform hent hd hy
  have hexec := exec_of_element hform (elementOf_scas hform) hent (elementScas_of_ok (s := enter s) hd hy)
  obtain ⟨hafter, -, hrsi, hrdi, -⟩ := exec_moves hform hent hexec
  obtain ⟨hylt, -⟩ := readElem_bytes hy
  have hzf : (subFlags w (acc w s) y).zf = true ↔ acc w s = y := subFlags_zf_iff (acc_lt w s) hylt
  refine ⟨_, hexec, by simp, by simpa using hzf, hrdi rfl, hafter,
    afterIteration_rip_of_comparison hafter (by simpa using hzf), by simp, hrsi rfl, by simp, by simp, by simp⟩

/-! What a fault reports (R79, R161, R162). -/

theorem takeException_fault_inv {c : Bool} {e : MemEvent} {x : Option Access} {s : State} {f : Fault}
    (h : takeException c e x s = .fault f) : f.state = faultState c s := by
  obtain ⟨g, hg, hstate⟩ := takeException_state c e x s
  cases hg.symm.trans h
  exact hstate

theorem withElem_fault_inv {r : Except Nat Word} {f : Word → Result} {e : Fault} (h : withElem r f = .fault e) :
    ∃ v, f v = .fault e := by
  cases r with
  | ok v => exact ⟨v, h⟩
  | error a => cases h

theorem storeElem_ne_fault (w : OpSize) (ilen : Nat) (a v : Word) (s : State) (e : Fault) :
    storeElem w ilen a v s ≠ .fault e := by
  unfold storeElem
  split <;> nofun

/-- A store of one element followed by updates that always go through raises nothing. -/
theorem storeElem_andThen_ne_fault (w : OpSize) (ilen : Nat) (a v : Word) (s : State) (g : State → State) (e : Fault) :
    (andThen (storeElem w ilen a v s) fun t => .next (g t)) ≠ .fault e := by
  intro h
  obtain hst | ⟨_, -, hnext⟩ := andThen_fault_inv h
  · exact storeElem_ne_fault _ _ _ _ _ _ hst
  · cases hnext

theorem withOperand_fault_inv {c : Bool} {o : Operand} {s : State} {f : Word → Result} {e : Fault}
    (h : withOperand c o s f = .fault e) : e.state = faultState c s ∨ ∃ a, f a = .fault e := by
  cases o with
  | at' a => exact .inr ⟨a, h⟩
  | raises x acc => exact .inl (takeException_fault_inv h)
  | refused r => cases h

theorem withOperands_fault_inv {c : Bool} {o o' : Operand} {s : State} {f : Word → Word → Result} {e : Fault}
    (h : withOperands c o o' s f = .fault e) : e.state = faultState c s ∨ ∃ a b, f a b = .fault e := by
  unfold withOperands at h
  split at h
  · cases h
  · cases h
  · exact .inr ⟨_, _, h⟩
  · exact .inl (takeException_fault_inv h)
  · exact .inl (takeException_fault_inv h)
  · split at h <;> exact .inl (takeException_fault_inv h)

/-- The state in which an element operation raises: the one it began in, or for INS one in which the port has been
read (R84). -/
def raisedIn (i : Instr) (s v : State) : Prop := v = s ∨ (i.form.op = .ins ∧ v = insFaultState i.form.w s)

theorem elementIns_fault_inv {w : OpSize} {a : AddrSize} {ilen : Nat} {s : State} {f : Fault}
    (h : elementIns w a ilen s = .fault f) :
    f.state = faultState false s ∨ f.state = faultState false (insFaultState w s) := by
  unfold elementIns at h
  split at h
  · obtain h | ⟨d, h⟩ := withOperand_fault_inv h
    · exact .inl h
    · split at h
      · exact .inr (takeException_fault_inv h)
      · exact absurd h (storeElem_andThen_ne_fault _ _ _ _ _ _ _)
  · exact .inl (takeException_fault_inv h)

/-- Everything a fault of an element operation can report (R79, R83, R161). -/
theorem elementOf_fault_inv {i : Instr} {s : State} {f : Fault} (h : elementOf i s = .fault f) :
    ∃ v, raisedIn i s v ∧ f.state = faultState i.form.op.compares v := by
  have hself : f.state = faultState i.form.op.compares s →
      ∃ v, raisedIn i s v ∧ f.state = faultState i.form.op.compares v := fun h => ⟨s, .inl rfl, h⟩
  unfold elementOf at h
  cases hop : i.form.op <;> simp only [hop] at h hself
  case ins =>
    obtain h | h := elementIns_fault_inv h
    · exact hself h
    · exact ⟨_, .inr ⟨hop, rfl⟩, h⟩
  case movs =>
    obtain h | ⟨_, _, h⟩ := withOperands_fault_inv h
    · exact hself h
    · obtain ⟨v, h⟩ := withElem_fault_inv h
      exact absurd h (storeElem_andThen_ne_fault _ _ _ _ _ _ _)
  case outs =>
    unfold elementOuts at h
    split at h
    · obtain h | ⟨_, h⟩ := withOperand_fault_inv h
      · exact hself h
      · obtain ⟨v, h⟩ := withElem_fault_inv h
        cases h
    · exact hself (takeException_fault_inv h)
  case lods =>
    obtain h | ⟨_, h⟩ := withOperand_fault_inv h
    · exact hself h
    · obtain ⟨v, h⟩ := withElem_fault_inv h
      cases h
  case stos =>
    obtain h | ⟨_, h⟩ := withOperand_fault_inv h
    · exact hself h
    · exact absurd h (storeElem_andThen_ne_fault _ _ _ _ _ _ _)
  case cmps =>
    obtain h | ⟨_, _, h⟩ := withOperands_fault_inv h
    · exact hself h
    · obtain ⟨x, h⟩ := withElem_fault_inv h
      obtain ⟨y, h⟩ := withElem_fault_inv h
      cases h
  case scas =>
    obtain h | ⟨_, h⟩ := withOperand_fault_inv h
    · exact hself h
    · obtain ⟨y, h⟩ := withElem_fault_inv h
      cases h

theorem quiet_of_no_handler {s : State} (h : ∀ x rest, s.windows ≠ some x :: rest) : quiet s = true := by
  unfold quiet
  split
  · next x rest hw => exact absurd hw (h x rest)
  · rfl

/-- Only an iteration that is entered ends with a fault, that of its element operation (R77, R79). -/
theorem repStep_fault_inv {kind : RepKind} {w : OpSize} {a : AddrSize} {ilen : Nat} {el : State → Result} {s : State}
    {f : Fault} (h : repStep kind w a ilen el s = .fault f) : entered w a s ∧ el (enter s) = .fault f := by
  unfold repStep at h
  split at h
  · next he =>
    split at h
    · cases h
    · next h0 =>
      split at h
      · cases h
      · next hw =>
        obtain hel | ⟨_, -, hnext⟩ := andThen_fault_inv h
        · exact ⟨⟨he, h0, quiet_of_no_handler hw⟩, hel⟩
        · cases hnext
  · cases h

theorem exec_fault_inv {i : Instr} {s : State} {f : Fault} (h : exec i s = .fault f) :
    entered i.form.w i.form.a s ∧ ∃ v, raisedIn i (enter s) v ∧ f.state = faultState i.form.op.compares v := by
  rw [exec_eq] at h
  obtain ⟨hent, hel⟩ := repStep_fault_inv h
  exact ⟨hent, elementOf_fault_inv hel⟩

/-- The port may have been read, its answer used up and lost (R84). -/
def mayHaveReadPort (w : OpSize) (s v : State) : Prop :=
  (v.ioTrace = s.ioTrace ∧ v.ioInput = s.ioInput)
    ∨ (v.ioInput = s.ioInput.tail
      ∧ ∃ x, v.ioTrace = s.ioTrace ++ [.input (portReg s) w.bytes x] ∧ x.toNat < 2 ^ w.bits
        ∧ ∀ y ys, s.ioInput = y :: ys → x.toNat = y.toNat % 2 ^ w.bits)

theorem insFaultState_kept (w : OpSize) (s : State) :
    keptAtFault s (insFaultState w s) ∧ (insFaultState w s).status = s.status
      ∧ (insFaultState w s).entryFlags = s.entryFlags ∧ (insFaultState w s).windows = s.windows := by
  unfold insFaultState keptAtFault
  split <;> simp

theorem insFaultState_io (w : OpSize) (s : State) : mayHaveReadPort w s (insFaultState w s) := by
  unfold insFaultState
  split
  · obtain ⟨hlt, hval⟩ := portValue_spec w { s with draws := s.draws + 1 }
    exact .inr ⟨rfl, _, rfl, hlt, hval⟩
  · exact .inl ⟨rfl, rfl⟩

theorem compares_iff (op : StringOp) : op.compares = true ↔ op = .cmps ∨ op = .scas := by cases op <;> decide

theorem keptAtFault_faultState {s v : State} (c : Bool) (h : keptAtFault s v) : keptAtFault s (faultState c v) := by
  simpa [keptAtFault] using h

/-- What an iteration that raises has changed before it does (R79, R84). -/
theorem raisedIn_enter {i : Instr} {s v : State} (h : raisedIn i (enter s) v) :
    keptAtFault s v ∧ v.status = s.status ∧ v.entryFlags = some (s.entryFlags.getD s.status)
      ∧ ((v.ioTrace = s.ioTrace ∧ v.ioInput = s.ioInput) ∨ (i.form.op = .ins ∧ mayHaveReadPort i.form.w s v)) := by
  obtain rfl | ⟨hop, rfl⟩ := h
  · exact ⟨by simp [keptAtFault], rfl, rfl, .inl ⟨rfl, rfl⟩⟩
  · obtain ⟨hkept, hstatus, hentry, -⟩ := insFaultState_kept i.form.w (enter s)
    exact ⟨hkept, hstatus, hentry, .inr ⟨hop, insFaultState_io i.form.w (enter s)⟩⟩

/-- The status flags a fault of any instruction shows: those before it, or for CMPS and SCAS the recorded ones (R83). -/
theorem exec_fault_status {i : Instr} {s : State} {f : Fault} (h : exec i s = .fault f) :
    f.state.status = s.status
      ∨ ((i.form.op = .cmps ∨ i.form.op = .scas) ∧ f.state.status = s.entryFlags.getD s.status) := by
  obtain ⟨-, v, hv, hf⟩ := exec_fault_inv h
  obtain ⟨-, hstatus, hentry, -⟩ := raisedIn_enter hv
  rw [hf]
  obtain hsame | ⟨hc, himage⟩ := faultState_status i.form.op.compares v
  · exact .inl (hsame.trans hstatus)
  · exact .inr ⟨(compares_iff _).mp hc, by rw [himage, hentry, Option.getD_some]⟩

/-- Settles O36: the element operation raises in the state the iteration began in, but for the port read of INS. -/
theorem faultStateKept : Obligations.FaultStateKept := by
  intro i s f h
  obtain ⟨-, v, hv, hf⟩ := exec_fault_inv h
  obtain ⟨hkept, -, -, hio⟩ := raisedIn_enter hv
  refine ⟨hf ▸ keptAtFault_faultState _ hkept, exec_fault_status h, ?_⟩
  rw [hf, faultState_ioTrace, faultState_ioInput]
  obtain hio | ⟨hop, hio | ⟨hinput, x, htrace, -⟩⟩ := hio
  · exact .inl hio
  · exact .inl hio
  · exact .inr ⟨hop, hinput, x, htrace⟩

/-! Resumption (R82, R164). -/

/-- Where no port is read, a fault reports the state before the iteration, its window used. -/
theorem exec_fault_state {i : Instr} {s : State} {f : Fault} (hop : i.form.op ≠ .ins) (h : exec i s = .fault f) :
    f.state = faultState i.form.op.compares (enter s) := by
  obtain ⟨-, v, rfl | ⟨hins, -⟩, hf⟩ := exec_fault_inv h
  · exact hf
  · exact absurd hins hop

/-- Settles O43: the fault state is that state itself, the record cleared. -/
theorem resumptionIsFreshExecution : Obligations.ResumptionIsFreshExecution := by
  intro i s f rules hop h
  have hf : f.state = faultState false (enter s) := by
    obtain hop | hop | hop | hop := hop <;> simpa [hop, StringOp.compares] using exec_fault_state (by simp [hop]) h
  rw [hf]
  rfl

/-- Settles O54: the fault state of a comparison is that state with the flags image, which no execution looks at. -/
theorem resumedComparisonIgnoresImage : Obligations.ResumedComparisonIgnoresImage := by
  intro i s t f rules hop h hnext
  have hf : f.state = faultState true (enter s) := by
    obtain hop | hop := hop <;> simpa [hop, StringOp.compares] using exec_fault_state (by simp [hop]) h
  obtain ⟨⟨he, h0, -⟩, -⟩ := exec_fault_inv h
  obtain ⟨t', ht', hsame, hflags, -⟩ := flagsNeedNoInitialisation i _ t f.state.status hnext
  refine ⟨t', ?_, hsame, fun hq => hflags hop ⟨he, h0, ?_⟩⟩
  · rw [hf] at ht' ⊢
    exact ht'
  · rw [hf] at hq
    exact hq

/-! REP INS whose write is rejected (R84). -/

/-- What `MemFault` rejects of INS, after the port may have been read. -/
theorem elementIns_of_rejected {w : OpSize} {a : AddrSize} {ilen : Nat} {s : State} {e : MemEvent}
    (hp : ioPermitted w s = true) (hs : straddles w a (dstIdx a s) = false)
    (hc : allCanonical s.launch (dstAddr a s) w.bytes = true)
    (hm : memFault s.launch .write (dstAddr a s) w.bytes = some e) :
    elementIns w a ilen s = takeException false e (some ⟨dstAddr a s, .write⟩) (insFaultState w s) := by
  have haddr : address s.launch .write .es w a (dstIdx a s) = .at' (dstAddr a s) := by
    rw [address, hs, if_neg Bool.false_ne_true]
    exact if_pos hc
  rw [elementIns, if_pos hp, haddr]
  simp only [withOperand, hm]

/-- INS goes on from a state with the registers, memory and launch of one it could have gone on from, but for the memory
rules, where these allow its write (R82, R84). -/
theorem exec_ins_resumed {i : Instr} {w : OpSize} {a : AddrSize} {s v : State} {rules : List MemRule}
    (hform : i.form = ⟨.rep, .ins, w, a⟩) (hent : entered w a s) (hp : ioPermitted w s = true)
    (hs : straddles w a (dstIdx a s) = false) (hc : allCanonical s.launch (dstAddr a s) w.bytes = true)
    (hkept : keptAtFault s v) (hq : quiet v = true) (hmiss : hitsCode w i.ilen (dstAddr a s) s = false)
    (hallow : memFault (resume rules v).launch .write (dstAddr a s) w.bytes = none) :
    ∃ t x, exec i (resume rules v) = .next t ∧ t.ioTrace = v.ioTrace ++ [.input (portReg s) w.bytes x] := by
  have hins := insIteration i w a (resume rules v) hform
  obtain ⟨he, h0, -⟩ := hent
  obtain ⟨⟩ := v
  obtain ⟨rfl, rfl, rfl, rfl, rfl, rfl, rfl, rfl, rfl⟩ := hkept
  obtain ⟨t, x, hexec, -, -, htrace, -⟩ := hins ⟨he, h0, hq⟩ hp ⟨hs, hc, hallow⟩ hmiss
  exact ⟨t, x, hexec, htrace⟩

/-- Settles O40: the write raises after the port has been read or before; under rules that allow it, O24. -/
theorem insRejectedWrite : Obligations.InsRejectedWrite := by
  intro i w a s e hform hent hp hs hc hm
  have hins : raisedIn i (enter s) (insFaultState w (enter s)) := .inr (by simp [hform])
  obtain ⟨hkept, hstatus, -, -⟩ := raisedIn_enter hins
  have hexec : exec i s
      = takeException false e (some ⟨dstAddr a s, .write⟩) (insFaultState w (enter s)) := by
    have hent' : entered i.form.w i.form.a s := by rwa [hform]
    rw [exec_iteration i s hent', elementOf_ins hform, elementIns_of_rejected (s := enter s) hp hs hc hm,
      andThen_takeException, dstAddr_enter]
  have hfault := keptAtFault_faultState false hkept
  refine ⟨faultState false (insFaultState w (enter s)), hfault, hstatus,
    insFaultState_io w (enter s), ?_, fun rules hq hmiss hallow => ?_⟩
  · cases e <;> exact hexec
  · exact exec_ins_resumed hform hent hp hs hc hfault hq hmiss hallow

/-! RIP tells whether an execution completes the instruction (R19, R78). -/

/-- A short advance moves the instruction pointer, at every width (R19). -/
theorem ipView_get_ne_nextRip {m : Mode} {rip : Word} {n : Nat} (hpos : 0 < n) (hlt : n < 2 ^ 16) :
    (ipView m).get rip ≠ nextRip m rip n := by
  intro h
  have h := congrArg BitVec.toNat h
  rw [ipView_get_toNat, nextRip_toNat] at h
  match m with
  | .mode64 | .modeCL _ .d32 | .modeCL _ .d16 => simp only [ipBits] at h; omega

theorem nextRip_ne {m m' : Mode} {i : Instr} (hwf : wellFormed m i = true) (rip : Word) :
    (ipView m').get rip ≠ nextRip m' rip i.ilen := by
  obtain ⟨-, hmin, hmax⟩ := instructionLength m i hwf
  exact ipView_get_ne_nextRip (by omega) (by omega)

/-- An instruction is long enough to move the instruction pointer, and short enough not to come around to it. -/
theorem nextRip_ne_rip {m m' : Mode} {i : Instr} (hwf : wellFormed m i = true) (rip : Word) :
    nextRip m' rip i.ilen ≠ rip := by
  intro h
  refine nextRip_ne (m' := m') hwf rip ?_
  conv_lhs => rw [← h]
  exact ipView_get_nextRip m' rip i.ilen

/-- Every execution that goes on leaves RIP at the instruction or past it, and the launch alone (R78, R79, R80). -/
theorem exec_rip_launch {i : Instr} {s t : State} (h : exec i s = .next t) :
    (t.rip = s.rip ∨ t.rip = nextRip s.launch.mode s.rip i.ilen) ∧ t.launch = s.launch := by
  rw [exec_eq] at h
  obtain ⟨-, ⟨-, rfl⟩ | ⟨-, x, rest, -, rfl⟩ | ⟨⟨_, h0, _⟩, u, hu, rfl⟩⟩ := repStep_next_inv h
  · simp
  · simp
  · obtain ⟨hrcx, hrip, -, -, hlaunch, -⟩ := elementOf_next i _ u hu
    rw [enter_rip] at hrip
    rw [enter_launch] at hlaunch
    have hcount : countReg i.form.a u ≠ 0#64 := by rwa [countReg, hrcx]
    rw [endIteration_rip _ _ _ _ hcount, endIteration_launch, hrip, hlaunch]
    exact ⟨(ite_eq_or_eq _ _ _).symm, rfl⟩

/-! Iterations that no interrupt divides (R77, R80, R81). -/

theorem quietFor_succ {n : Nat} {s : State} (h : quietFor (n + 1) s = true) :
    quiet s = true ∧ ∀ t : State, t.windows = s.windows.tail → quietFor n t = true := by
  cases hw : s.windows with
  | nil => exact ⟨by simp [quiet, hw], fun t ht => by simp [quietFor, ht]⟩
  | cons x rest =>
    simp only [quietFor, hw, List.take_succ_cons, List.all_cons, Bool.and_eq_true, Option.isNone_iff_eq_none] at h
    obtain ⟨rfl, hrest⟩ := h
    exact ⟨by simp [quiet, hw], fun t ht => by simpa [quietFor, ht] using hrest⟩

/-- The next `n` executions of an instruction are iterations: the count allows them and no interrupt comes between. -/
def canIterate (n : Nat) (i : Instr) (s : State) : Prop :=
  encodable s.launch.mode i.form.w i.form.a = true ∧ n ≤ (countReg i.form.a s).toNat ∧ quietFor n s = true

theorem canIterate_succ {n : Nat} {i : Instr} {s : State} (h : canIterate (n + 1) i s) :
    entered i.form.w i.form.a s := by
  obtain ⟨he, hn, hq⟩ := h
  obtain ⟨hq, -⟩ := quietFor_succ hq
  refine ⟨he, fun h0 => ?_, hq⟩
  rw [h0] at hn
  exact Nat.not_succ_le_zero n hn

/-- An execution that goes on tells that its row is encodable. -/
theorem canIterate_of_exec {n : Nat} {i : Instr} {s t : State} (h : exec i s = .next t)
    (hn : n ≤ (countReg i.form.a s).toNat) (hq : quietFor n s = true) : canIterate n i s := by
  rw [exec_eq] at h
  obtain ⟨he, -⟩ := repStep_next_inv h
  exact ⟨he, hn, hq⟩

/-- What one of several iterations does to the state (R75, R76, R78). -/
theorem exec_afterIteration {n : Nat} {i : Instr} {s t : State} (hcan : canIterate (n + 1) i s)
    (h : exec i s = .next t) : afterIteration i.form.kind i.form.a i.ilen s t :=
  by
  obtain ⟨hafter, -⟩ := exec_advances (canIterate_succ hcan) h
  exact hafter

theorem canIterate_next {n : Nat} {i : Instr} {s t : State} (hcan : canIterate (n + 1) i s)
    (h : exec i s = .next t) : canIterate n i t := by
  obtain ⟨hcount, -, -, hwin, -, -, hlaunch⟩ := exec_afterIteration hcan h
  obtain ⟨he, hn, hq⟩ := hcan
  obtain ⟨-, hq⟩ := quietFor_succ hq
  exact ⟨by rwa [hlaunch], by omega, hq t hwin⟩

/-- The iteration from `s` to `t` is the last: a termination condition of R74, R75 holds after it. -/
def isLast (i : Instr) (s t : State) : Bool :=
  (countReg i.form.a s).toNat == 1 || stopsOn i.form.kind t.status.zf

/-- RIP moves in the last iteration of a well-formed instruction and in no other (R78, R79). -/
theorem isLast_iff_rip {m : Mode} {i : Instr} {s t : State} (hwf : wellFormed m i = true)
    (h : afterIteration i.form.kind i.form.a i.ilen s t) : isLast i s t = true ↔ t.rip ≠ s.rip := by
  obtain ⟨-, -, hrip, -⟩ := h
  have hiff : isLast i s t = true ↔ (countReg i.form.a s).toNat = 1 ∨ stopsOn i.form.kind t.status.zf = true := by
    simp [isLast]
  rw [hiff, hrip]
  split
  · next hlast => simp [hlast, nextRip_ne_rip hwf]
  · next hlast => simp [hlast]

/-! The WHILE loop of R72. -/

theorem countReg_decrement_eq_zero_iff {a : AddrSize} {s : State} (h : countReg a s ≠ 0#64) :
    countReg a (setCount a (countReg a s - 1#64) s) = 0#64 ↔ (countReg a s).toNat = 1 := by
  have hpos : (countReg a s).toNat ≠ 0 := fun h0 => h (BitVec.eq_of_toNat_eq h0)
  rw [← BitVec.toNat_inj, countReg_decrement a s h, BitVec.toNat_ofNat]
  omega

/-- The body of the loop is one execution of the instruction, and the loop goes on where it is not the last. -/
theorem whileBody_succ {i : Instr} {s : State} (hent : entered i.form.w i.form.a s) (n : Nat) :
    whileBody i (n + 1) s = andThen (exec i s) fun t => if isLast i s t then .next t else whileBody i n t := by
  rw [whileBody, exec_iteration i s hent]
  cases hu : elementOf i (enter s) with
  | fault f => rfl
  | refused r => rfl
  | next u =>
    obtain ⟨hrcx, -⟩ := elementOf_next i _ u hu
    have hcount : countReg i.form.a u = countReg i.form.a s := by rw [countReg, hrcx]; rfl
    have ⟨_, h0, _⟩ := hent
    have hlast : isLast i s (endIteration i.form.kind i.form.a i.ilen u) = true
        ↔ countReg i.form.a (setCount i.form.a (countReg i.form.a u - 1#64) u) = 0#64
          ∨ stopsOn i.form.kind u.status.zf = true := by
      rw [countReg_decrement_eq_zero_iff (s := u) (hcount ▸ h0), hcount]
      simp [isLast]
    simp only [andThen_next, hlast]
    simp only [endIteration_eq, setCount_status]
    by_cases hzero : countReg i.form.a (setCount i.form.a (countReg i.form.a u - 1#64) u) = 0#64
    · simp [hzero]
    · by_cases hstop : stopsOn i.form.kind u.status.zf = true <;> simp [hzero, hstop]

/-- The instruction is left at `t`, within `n` executions that begin at `s`: all but the last leave RIP at it. -/
def completesWithin (n : Nat) (i : Instr) (s t : State) : Prop :=
  ∃ k u, k < n ∧ runsOn k i s u ∧ exec i u = .next t ∧ t.rip ≠ s.rip

theorem not_completesWithin_zero (i : Instr) (s t : State) : ¬ completesWithin 0 i s t :=
  fun ⟨_, _, hk, _⟩ => Nat.not_lt_zero _ hk

/-- The first execution leaves the instruction, or stays at it and the others leave it. -/
theorem completesWithin_succ (n : Nat) (i : Instr) (s t : State) :
    completesWithin (n + 1) i s t ↔
      ∃ v, exec i s = .next v ∧ ((v.rip ≠ s.rip ∧ v = t) ∨ (v.rip = s.rip ∧ completesWithin n i v t)) := by
  constructor
  · rintro ⟨k, u, hk, hrun, hexec, hrip⟩
    cases k with
    | zero => obtain rfl : s = u := hrun; exact ⟨t, hexec, .inl ⟨hrip, rfl⟩⟩
    | succ k =>
      obtain ⟨v, hv, hstay, hrun⟩ := hrun
      exact ⟨v, hv, .inr ⟨hstay, k, u, Nat.lt_of_succ_lt_succ hk, hrun, hexec, hstay ▸ hrip⟩⟩
  · rintro ⟨v, hv, ⟨hrip, rfl⟩ | ⟨hstay, k, u, hk, hrun, hexec, hrip⟩⟩
    · exact ⟨0, s, Nat.succ_pos n, rfl, hv, hrip⟩
    · exact ⟨k + 1, u, Nat.succ_lt_succ hk, ⟨v, hv, hstay, hrun⟩, hexec, hstay ▸ hrip⟩

/-- The loop, bounded by the count, ends where the repeated execution leaves the instruction. -/
theorem whileBody_eq_next_iff {m : Mode} {i : Instr} (hwf : wellFormed m i = true) {n : Nat} {s t : State}
    (hpos : n ≠ 0) (hn : (countReg i.form.a s).toNat = n) (hcan : canIterate n i s) :
    whileBody i n s = .next t ↔ completesWithin n i s t := by
  induction n generalizing s with
  | zero => exact absurd rfl hpos
  | succ n ih =>
    rw [whileBody_succ (canIterate_succ hcan), completesWithin_succ]
    cases hv : exec i s with
    | fault f => simp [andThen]
    | refused r => simp [andThen]
    | next v =>
      have hafter := exec_afterIteration hcan hv
      have hrip := isLast_iff_rip hwf hafter
      cases hlast : isLast i s v with
      | true => simp [hlast, hrip.mp hlast]
      | false =>
        have hstay : v.rip = s.rip := by simpa [hlast] using hrip
        have hcount : (countReg i.form.a s).toNat ≠ 1 := fun h1 => by simp [isLast, h1] at hlast
        obtain ⟨hdec, -⟩ := hafter
        simp [hlast, hstay, ih (s := v) (by omega) (by omega) (canIterate_next hcan hv)]

/-- The WHILE loop from a count that is not zero (R72). -/
theorem whileLoop_eq_next_iff {m : Mode} {i : Instr} {s t : State} (hwf : wellFormed m i = true)
    (he : encodable s.launch.mode i.form.w i.form.a = true) (h0 : countReg i.form.a s ≠ 0#64)
    (hq : quietFor (countReg i.form.a s).toNat s = true) :
    whileLoop i s = .next t ↔ completesWithin (countReg i.form.a s).toNat i s t := by
  have hpos : (countReg i.form.a s).toNat ≠ 0 := fun h => h0 (BitVec.eq_of_toNat_eq h)
  rw [whileLoop, if_neg h0, whileBody_eq_next_iff hwf hpos rfl ⟨he, le_refl _, hq⟩]

/-- Settles O31, by induction on the count: one pass of the loop is one execution. -/
theorem loopIsRepeatedStep : Obligations.LoopIsRepeatedStep := fun _ _ _ _ hwf he h0 hq =>
  whileLoop_eq_next_iff hwf he h0 hq

/-! A run of one repeated instruction (R172). -/

/-- The program has one instruction at RIP, and the run is to end past it (R171, R172). -/
def runsAlone (i : Instr) (s : State) : Prop :=
  wellFormed s.launch.mode i = true ∧ (s.launch.admitUnlisted || i.listed) = true ∧ programHas i s
    ∧ codeFits i.ilen s = true ∧ s.launch.exitAddress = some (nextRip s.launch.mode s.rip i.ilen)

section
variable {i : Instr} {s t : State}

theorem runsAlone_congr (h : runsAlone i s) (hrip : t.rip = s.rip) (hlaunch : t.launch = s.launch) :
    runsAlone i t := by
  obtain ⟨⟩ := t
  obtain ⟨rfl, rfl⟩ := And.intro hrip hlaunch
  exact h

theorem step_of_runsAlone (h : runsAlone i s) : step s = exec i s := by
  obtain ⟨hwf, hlisted, hprog, hfits, hexit⟩ := h
  have hne := nextRip_ne (m' := s.launch.mode) hwf s.rip
  exact stepRunsEncodedBytes s i (by simp [atExit, hexit, ipView_get_nextRip, hne]) hwf hlisted hprog hfits

/-- Past the instruction the run is at its exit address. -/
theorem run_past_runsAlone (h : runsAlone i s) (hlaunch : t.launch = s.launch)
    (hrip : t.rip = nextRip s.launch.mode s.rip i.ilen) (n : Nat) : run n t = some ⟨.completed, t⟩ := by
  obtain ⟨-, -, -, -, hexit⟩ := h
  have hstep : step t = .fault (.completed t) := step_atExit (by simp [atExit, hlaunch, hrip, hexit])
  rw [run_end n (by simp [hstep]), hstep]
  rfl

/-- The first execution that leaves the instruction ends the run. -/
theorem run_of_exec_leaves (h : runsAlone i s) (hexec : exec i s = .next t) (hrip : t.rip ≠ s.rip) (n : Nat) :
    run (n + 1) s = some ⟨.completed, t⟩ := by
  obtain ⟨hor, hlaunch⟩ := exec_rip_launch hexec
  rw [run_next n ((step_of_runsAlone h).trans hexec)]
  exact run_past_runsAlone h hlaunch (hor.resolve_left hrip) n

theorem run_of_completesWithin {n : Nat} (h : runsAlone i s) (hc : completesWithin n i s t) :
    run n s = some ⟨.completed, t⟩ := by
  induction n generalizing s with
  | zero => exact absurd hc (not_completesWithin_zero i s t)
  | succ n ih =>
    obtain ⟨v, hexec, ⟨hrip, rfl⟩ | ⟨hstay, hc⟩⟩ := (completesWithin_succ n i s t).mp hc
    · exact run_of_exec_leaves h hexec hrip n
    · obtain ⟨-, hlaunch⟩ := exec_rip_launch hexec
      rw [run_next n ((step_of_runsAlone h).trans hexec)]
      exact ih (runsAlone_congr h hstay hlaunch) hc

end

theorem completesWithin_mono {n n' : Nat} {i : Instr} {s t : State} (hn : n ≤ n') (h : completesWithin n i s t) :
    completesWithin n' i s t :=
  have ⟨k, u, hk, hrest⟩ := h
  ⟨k, u, hk.trans_le hn, hrest⟩

/-- The loop over a zero count is the execution that completes at once (R73). -/
theorem exec_of_whileLoop_zero {i : Instr} {s t : State} (he : encodable s.launch.mode i.form.w i.form.a = true)
    (h0 : countReg i.form.a s = 0#64) (h : whileLoop i s = .next t) : exec i s = .next t := by
  rw [whileLoop, if_pos h0] at h
  rw [exec_eq, repStep_zero he h0, h]

/-- Settles O57: the run takes the executions of the repeat, and the WHILE loop ends where they do (O31). -/
theorem repeatRunsToCompletion : Obligations.RepeatRunsToCompletion := by
  intro i s t hwf hlisted hprog hfits hexit hq hloop
  have halone : runsAlone i s := ⟨hwf, hlisted, hprog, hfits, hexit⟩
  obtain ⟨-, -, haddr, hop⟩ := wellFormed_iff.mp hwf
  have he := encodable_of_sizesFit haddr hop
  by_cases h0 : countReg i.form.a s = 0#64
  · have hexec := exec_of_whileLoop_zero he h0 hloop
    refine run_of_exec_leaves halone hexec ?_ _
    obtain ⟨t', ht', hrip, -⟩ := zeroCountCompletes i s he h0
    cases ht'.symm.trans hexec
    rw [hrip]
    exact nextRip_ne_rip hwf s.rip
  · have hc := (whileLoop_eq_next_iff hwf he h0 hq).mp hloop
    exact run_of_completesWithin halone (completesWithin_mono (Nat.le_succ _) hc)

/-! The registers along a repeat (R81). -/

theorem offsetAfter_zero (a : AddrSize) (df : Bool) (w : OpSize) {off : Nat} (h : off < 2 ^ a.bits) :
    offsetAfter a df w 0 off = off := by
  cases df <;> simp [offsetAfter, Nat.mod_eq_of_lt h]

/-- One element on, and `k` more (R85). -/
theorem offsetAfter_succ (a : AddrSize) (df : Bool) (w : OpSize) (k off : Nat) :
    offsetAfter a df w k (offsetAfter a df w 1 off) = offsetAfter a df w (k + 1) off := by
  unfold offsetAfter
  split <;> rw [Nat.mod_add_mod, one_mul, Nat.succ_mul, Nat.add_assoc, Nat.add_comm (k * _)]

theorem srcIdx_lt (a : AddrSize) (s : State) : (srcIdx a s).toNat < 2 ^ a.bits := by
  rw [srcIdx_toNat]
  exact Nat.mod_lt _ (by positivity)

theorem dstIdx_lt (a : AddrSize) (s : State) : (dstIdx a s).toNat < 2 ^ a.bits := by
  rw [dstIdx_toNat]
  exact Nat.mod_lt _ (by positivity)

/-- Settles O32, by induction on the number of iterations. -/
theorem registersAfterIterations : Obligations.RegistersAfterIterations := by
  intro i k
  induction k with
  | zero =>
    intro s t _ _ h
    obtain rfl : s = t := by cases h; rfl
    exact ⟨rfl, fun _ => (offsetAfter_zero _ _ _ (srcIdx_lt _ s)).symm, fun _ => rfl,
      fun _ => (offsetAfter_zero _ _ _ (dstIdx_lt _ s)).symm, fun _ => rfl, rfl, rfl, rfl,
      fun _ hpos => absurd hpos (Nat.lt_irrefl 0)⟩
  | succ k ih =>
    intro s t hq hk h
    obtain ⟨v, hv, h⟩ := andThen_next_inv h
    have hcan := canIterate_of_exec hv hk hq
    obtain ⟨⟨hcount, -, hrip, -, hrdx, hdf, hlaunch⟩, hsrc, hsrc', hdst, hdst'⟩ :=
      exec_advances (canIterate_succ hcan) hv
    obtain ⟨-, hk', hq'⟩ := canIterate_next hcan hv
    obtain ⟨tcount, tsrc, tsrc', tdst, tdst', trdx, tdf, tlaunch, trip⟩ := ih v t hq' hk' h
    refine ⟨by omega, fun hu => ?_, fun hu => (tsrc' hu).trans (hsrc' hu), fun hu => ?_,
      fun hu => (tdst' hu).trans (hdst' hu), trdx.trans hrdx, tdf.trans hdf, tlaunch.trans hlaunch, fun hrep _ => ?_⟩
    · obtain ⟨hmoved, -⟩ := hsrc hu
      rw [tsrc hu, hdf, hmoved, offsetAfter_succ]
    · obtain ⟨hmoved, -⟩ := hdst hu
      rw [tdst hu, hdf, hmoved, offsetAfter_succ]
    · rw [hrep] at hrip
      have hrip : v.rip = if (countReg i.form.a s).toNat = 1 then nextRip s.launch.mode s.rip i.ilen else s.rip := by
        simpa [stopsOn] using hrip
      cases k with
      | zero =>
        obtain rfl : v = t := by cases h; rfl
        simpa only [Nat.zero_add, eq_comm] using hrip
      | succ k =>
        have hlast : k + 1 = (countReg i.form.a v).toNat ↔ k + 1 + 1 = (countReg i.form.a s).toNat := by omega
        rw [if_neg (by omega)] at hrip
        rw [trip hrep (Nat.succ_pos k), hlaunch, hrip]
        simp only [hlast]

/-! A repeated SCAS (R74, R75, R93). -/

theorem readElem_congr {s t : State} (w : OpSize) (a : Word) (hmem : t.mem = s.mem) (hlaunch : t.launch = s.launch) :
    readElem w a t = readElem w a s := by
  rw [readElem, readElem, hmem, hlaunch]

/-- A comparison is repeated with REPE or REPNE (R52). -/
theorem kind_of_compares {i : Instr} (h : i.form.op.compares = true) : i.form.kind = .repe ∨ i.form.kind = .repne := by
  have hk := kindOf_form i
  cases hkind : i.form.kind with
  | rep => simp [kindOf, h, hkind, repByteOf] at hk
  | repe => exact .inl rfl
  | repne => exact .inr rfl

/-- Of the values `y`, the one at `j` is the first on which a repeat against `x` stops (R74). -/
def stopsFirstAt (kind : RepKind) (x : Word) (y : Nat → Word) (j : Nat) : Prop :=
  (∀ k, k < j → (kind = .repe → y k = x) ∧ (kind = .repne → y k ≠ x))
    ∧ (kind = .repe → y j ≠ x) ∧ (kind = .repne → y j = x)

/-- The elements up to the one at `j`, at the offsets `off` of a state, are accessible and hold the values `y`. -/
def holdsElements (w : OpSize) (a : AddrSize) (s : State) (off y : Nat → Word) (j : Nat) : Prop :=
  (∀ k, (off k).toNat = offsetAfter a s.df w k (dstIdx a s).toNat)
    ∧ ∀ k, k ≤ j → accessOk s.launch .read .es w a (off k) ∧ readElem w (lin s.launch .es (off k)) s = .ok (y k)

section
variable {i : Instr} {kind : RepKind} {w : OpSize} {a : AddrSize} {s : State} {j : Nat} {off y : Nat → Word}

theorem dstIdx_eq_off_zero (h : holdsElements w a s off y j) : dstIdx a s = off 0 := by
  obtain ⟨hoff, -⟩ := h
  exact BitVec.eq_of_toNat_eq (by rw [hoff 0, offsetAfter_zero _ _ _ (dstIdx_lt a s)])

/-- One iteration of SCAS on the first of several elements. -/
theorem scasIteration_first (hform : i.form = ⟨kind, .scas, w, a⟩) (hent : entered w a s)
    (hels : holdsElements w a s off y j) :
    ∃ t, exec i s = .next t ∧ (t.status.zf = true ↔ acc w s = y 0) ∧ destMoved a w s t
      ∧ afterIteration kind a i.ilen s t
      ∧ t.rip = (if (countReg a s).toNat = 1 ∨ (kind = .repe ∧ acc w s ≠ y 0) ∨ (kind = .repne ∧ acc w s = y 0)
          then nextRip s.launch.mode s.rip i.ilen else s.rip)
      ∧ t.rax = s.rax ∧ t.rsi = s.rsi ∧ t.mem = s.mem := by
  have hfirst := dstIdx_eq_off_zero hels
  obtain ⟨-, hels⟩ := hels
  obtain ⟨haccess, hread⟩ := hels 0 (Nat.zero_le j)
  rw [← hfirst] at haccess hread
  obtain ⟨t, hexec, -, hzf, hdst, hafter, hrip, hrax, hrsi, hmem, -⟩ :=
    scasIteration i kind w a s (y 0) hform hent haccess hread
  exact ⟨t, hexec, hzf, hdst, hafter, hrip, hrax, hrsi, hmem⟩

/-- The elements left after the first of them. -/
theorem holdsElements_tail {t : State} (h : holdsElements w a s off y (j + 1)) (hdst : destMoved a w s t)
    (hdf : t.df = s.df) (hlaunch : t.launch = s.launch) (hmem : t.mem = s.mem) :
    holdsElements w a t (fun k => off (k + 1)) (fun k => y (k + 1)) j := by
  obtain ⟨hoff, hels⟩ := h
  obtain ⟨hmoved, -⟩ := hdst
  refine ⟨fun k => ?_, fun k hk => ?_⟩
  · rw [hoff, hdf, hmoved, offsetAfter_succ]
  · rw [readElem_congr w _ hmem hlaunch, hlaunch]
    exact hels (k + 1) (Nat.succ_le_succ hk)

/-- A repeated SCAS runs to the first element on which it stops. -/
theorem scas_runs_to_first (hform : i.form = ⟨kind, .scas, w, a⟩) (hcan : canIterate (j + 1) i s)
    (hels : holdsElements w a s off y j) (hstop : stopsFirstAt kind (acc w s) y j) :
    ∃ u t, runsOn j i s u ∧ exec i u = .next t ∧ t.rip = nextRip s.launch.mode s.rip i.ilen
      ∧ (countReg a t).toNat = (countReg a s).toNat - j - 1 ∧ dstIdx a t = off (j + 1)
      ∧ (t.status.zf = true ↔ kind = .repne) ∧ t.rax = s.rax ∧ t.rsi = s.rsi ∧ t.mem = s.mem := by
  have hkind : kind = .repe ∨ kind = .repne := by simpa [hform] using kind_of_compares (i := i) (by rw [hform]; rfl)
  induction j generalizing s off y with
  | zero =>
    have hent : entered w a s := by simpa [hform] using canIterate_succ hcan
    obtain ⟨t, hexec, hzf, ⟨hmoved, -⟩, ⟨hcount, -⟩, hrip, hrax, hrsi, hmem⟩ := scasIteration_first hform hent hels
    obtain ⟨hoff, -⟩ := hels
    obtain ⟨-, hrepe, hrepne⟩ := hstop
    have hidx : dstIdx a t = off 1 := BitVec.eq_of_toNat_eq (by rw [hmoved, hoff 1])
    have hends : (kind = .repe ∧ acc w s ≠ y 0) ∨ (kind = .repne ∧ acc w s = y 0) :=
      hkind.imp (fun hk => ⟨hk, (hrepe hk).symm⟩) (fun hk => ⟨hk, (hrepne hk).symm⟩)
    refine ⟨s, t, rfl, hexec, by rw [hrip, if_pos (.inr hends)], hcount, hidx, ?_, hrax, hrsi, hmem⟩
    rw [hzf]
    obtain ⟨rfl, hne⟩ | ⟨rfl, heq⟩ := hends
    · simpa using hne
    · simpa using heq
  | succ j ih =>
    have hent : entered w a s := by simpa [hform] using canIterate_succ hcan
    obtain ⟨v, hexec, -, hdst, ⟨hcount, -, -, -, -, hdf, hlaunch⟩, hrip, hrax, hrsi, hmem⟩ :=
      scasIteration_first hform hent hels
    obtain ⟨hbefore, hrepe, hrepne⟩ := hstop
    obtain ⟨hgo, hgo'⟩ := hbefore 0 (Nat.succ_pos j)
    have hmany : j + 2 ≤ (countReg a s).toNat := by
      obtain ⟨-, hn, -⟩ := hcan
      rwa [hform] at hn
    have hstay : v.rip = s.rip := by
      rw [hrip, if_neg]
      rintro (hone | ⟨hk, hne⟩ | ⟨hk, heq⟩)
      · omega
      · exact hne (hgo hk).symm
      · exact hgo' hk heq.symm
    have hacc : acc w v = acc w s := by rw [acc, acc, hrax]
    obtain ⟨u, t, hrun, hlast, trip, tcount, tidx, tzf, trax, trsi, tmem⟩ :=
      ih (canIterate_next hcan hexec) (holdsElements_tail hels hdst hdf hlaunch hmem)
        ⟨fun k hk => hacc ▸ hbefore (k + 1) (Nat.succ_lt_succ hk), hacc ▸ hrepe, hacc ▸ hrepne⟩
    exact ⟨u, t, ⟨v, hexec, hstay, hrun⟩, hlast, by rw [trip, hlaunch, hstay], by omega, tidx, tzf, trax.trans hrax,
      trsi.trans hrsi, tmem.trans hmem⟩

end

/-- Settles O35, by induction on the elements before the one on which it stops. -/
theorem scasStopsAtFirst : Obligations.ScasStopsAtFirst := by
  intro i kind w a s j off y hform he hj hq hoff hels hbefore hrepe hrepne
  have hcan : canIterate (j + 1) i s := by
    rw [canIterate, hform]
    exact ⟨he, hj, hq⟩
  exact scas_runs_to_first hform hcan ⟨hoff, hels⟩ ⟨hbefore, hrepe, hrepne⟩

/-! The flags image along a repeat (R83). -/

/-- The flags from before the execution in progress stay on record until the instruction is left. -/
theorem exec_keeps_entryFlags {m : Mode} {i : Instr} {s t : State} (hwf : wellFormed m i = true)
    (hent : entered i.form.w i.form.a s) (h : exec i s = .next t) (hstay : t.rip = s.rip) :
    t.entryFlags.getD t.status = s.entryFlags.getD s.status := by
  obtain ⟨u, hu, rfl⟩ := exec_entered_inv hent h
  obtain ⟨-, hrip, -, -, -, -, hentry, -⟩ := elementOf_next i _ u hu
  rw [endIteration_eq] at hstay ⊢
  split at hstay
  · rw [complete_rip, setCount_rip, hrip] at hstay
    exact absurd hstay (nextRip_ne_rip hwf s.rip)
  · next hgo =>
    rw [if_neg hgo, setCount_entryFlags, hentry]
    rfl

theorem runsOn_keeps_entryFlags {m : Mode} {i : Instr} (hwf : wellFormed m i = true) {k : Nat} {s t : State}
    (hq : quietFor k s = true) (hk : k ≤ (countReg i.form.a s).toNat) (h : runsOn k i s t) :
    t.entryFlags.getD t.status = s.entryFlags.getD s.status := by
  induction k generalizing s with
  | zero => rw [show s = t from h]
  | succ k ih =>
    obtain ⟨v, hexec, hstay, hrun⟩ := h
    have hcan := canIterate_of_exec hexec hk hq
    obtain ⟨-, hk', hq'⟩ := canIterate_next hcan hexec
    rw [ih hq' hk' hrun, exec_keeps_entryFlags hwf (canIterate_succ hcan) hexec hstay]

/-- Settles O42: the two images of O36, the recorded one being that from before the first iteration. -/
theorem faultFlagsImages : Obligations.FaultFlagsImages := by
  intro i m k s t f hwf _ hnone hq hk hrun hfault
  have hrecord := runsOn_keeps_entryFlags hwf hq hk.le hrun
  rw [hnone, Option.getD_none] at hrecord
  obtain hsame | ⟨-, himage⟩ := exec_fault_status hfault
  · exact .inl hsame
  · exact .inr (himage.trans hrecord)

end Machine

end Sys2Proof
end

section
/-! PROOFS. The family 42_rep_movs.md: the bytes of a string at its linear addresses, and REP MOVS m8 along two strings
that lie apart (R77, R81, R88, R105, R106). -/

namespace Sys2Proof.Machine

/-! Elements of one byte. -/

/-- A linear address formed in the mode is that of its own first byte (R38). -/
theorem byteAddr_lin_zero (l : Launch) (seg : SegReg) (off : Word) : byteAddr l (lin l seg off) 0 = lin l seg off := by
  have hzero : lin l seg off + BitVec.ofNat 64 0 = lin l seg off := BitVec.add_zero _
  rw [byteAddr, hzero]
  exact linTrunc_linTrunc _ _

theorem byteAddrs_lin_b8 (l : Launch) (seg : SegReg) (off : Word) :
    byteAddrs l (lin l seg off) OpSize.b8.bytes = [(lin l seg off).toNat] := by
  show [(byteAddr l (lin l seg off) 0).toNat] = _
  rw [byteAddr_lin_zero]

section
variable {s t : State} {seg : SegReg} {off : Word} {x : Byte}

theorem readElem_b8_of_readByte (h : readByte s.mem (lin s.launch seg off).toNat = some x) :
    readElem .b8 (lin s.launch seg off) s = .ok (x.setWidth 64) := by
  rw [readElem, byteAddrs_lin_b8]
  have hword : x.setWidth 64 = (0#64).extractLsb' 0 56 ++ x := BitVec.setWidth_eq_append (by decide)
  simp only [gather, h, hword]

/-- Memory after a store of one byte (R30). -/
theorem readByte_of_stored_b8 (h : stored .b8 (lin s.launch seg off) (x.setWidth 64) s t) (y : Nat) :
    readByte t.mem y = if y = (lin s.launch seg off).toNat then some x else readByte s.mem y := by
  obtain ⟨hsame, hother⟩ := h
  split
  · next hy =>
    have hbyte := hsame 0 (by decide)
    rw [byteAddr_lin_zero] at hbyte
    rw [hy, hbyte]
    exact congrArg some (BitVec.eq_of_toNat_eq (by simpa using x.isLt))
  · next hy => exact hother y (by rwa [byteAddrs_lin_b8, List.mem_singleton])

end

/-! The bytes of a string have different addresses. -/

/-- Two offsets of the address size have the same linear address in a segment only where they are the same (R38). -/
theorem lin_inj {l : Launch} {seg : SegReg} {w : OpSize} {a : AddrSize} {off off' : Word}
    (he : encodable l.mode w a = true) (hoff : off.toNat < 2 ^ a.bits) (hoff' : off'.toNat < 2 ^ a.bits)
    (h : lin l seg off = lin l seg off') : off = off' := by
  cases hm : l.mode with
  | mode64 =>
    simp only [lin, linTrunc, hm] at h
    exact add_left_cancel h
  | modeCL d o =>
    have hbits : 2 ^ a.bits ≤ 2 ^ 32 := by
      cases a with
      | a16 | a32 => decide
      | a64 => simp [encodable, hm] at he
    have hnum := congrArg BitVec.toNat h
    rw [lin_modeCL_toNat hm, lin_modeCL_toNat hm] at hnum
    exact BitVec.eq_of_toNat_eq (by omega)

/-- The bytes of a string of at most `2^A` bytes are at different offsets (R85). -/
theorem offsetAfter_b8_inj {a : AddrSize} {df : Bool} {off j k : Nat} (hj : j < 2 ^ a.bits) (hk : k < 2 ^ a.bits)
    (h : offsetAfter a df .b8 j off = offsetAfter a df .b8 k off) : j = k := by
  cases df with
  | false =>
    have hmod : off + j ≡ off + k [MOD 2 ^ a.bits] := by
      simpa [offsetAfter, OpSize.bytes, Nat.ModEq] using h
    exact (Nat.ModEq.add_left_cancel' off hmod).eq_of_lt_of_lt hj hk
  | true =>
    have hmod : off + j * (2 ^ a.bits - 1) ≡ off + k * (2 ^ a.bits - 1) [MOD 2 ^ a.bits] := h
    have hcoprime : (2 ^ a.bits).Coprime (2 ^ a.bits - 1) :=
      (Nat.coprime_self_sub_right Nat.one_le_two_pow).mpr (Nat.coprime_one_right _)
    exact ((Nat.ModEq.add_left_cancel' off hmod).cancel_right_of_coprime hcoprime).eq_of_lt_of_lt hj hk

theorem countReg_lt (a : AddrSize) (s : State) : (countReg a s).toNat < 2 ^ a.bits := by
  rw [countReg_toNat]
  exact Nat.mod_lt _ (by positivity)

theorem offsetAfter_lt (a : AddrSize) (df : Bool) (w : OpSize) (k off : Nat) :
    offsetAfter a df w k off < 2 ^ a.bits := by
  unfold offsetAfter
  split <;> exact Nat.mod_lt _ (by positivity)

/-! A repeated MOVS of bytes (R88, R105, R106). -/

/-- A store reaches the executing instruction or not as the launch and RIP say (R45). -/
theorem hitsCode_congr {s t : State} (w : OpSize) (ilen : Nat) (addr : Word) (hlaunch : t.launch = s.launch)
    (hrip : t.rip = s.rip) : hitsCode w ilen addr t = hitsCode w ilen addr s := by
  simp only [hitsCode, codeAddrs, codeAddr, hlaunch, hrip]

/-- The next `n` bytes of the source hold `b`, they and the next `n` bytes of the destination are accessible, and no
destination byte is one of them or of the executing instruction. -/
def canCopyBytes (n : Nat) (i : Instr) (a : AddrSize) (s : State) (src dst : Nat → Word) (b : Nat → Byte) : Prop :=
  (∀ k, (src k).toNat = offsetAfter a s.df .b8 k (srcIdx a s).toNat)
    ∧ (∀ k, (dst k).toNat = offsetAfter a s.df .b8 k (dstIdx a s).toNat)
    ∧ (∀ k, k < n → accessOk s.launch .read i.pre.sourceSeg .b8 a (src k)
      ∧ accessOk s.launch .write .es .b8 a (dst k) ∧ hitsCode .b8 i.ilen (lin s.launch .es (dst k)) s = false
      ∧ readByte s.mem (lin s.launch i.pre.sourceSeg (src k)).toNat = some (b k))
    ∧ ∀ j k, j < n → k < n → lin s.launch i.pre.sourceSeg (src j) ≠ lin s.launch .es (dst k)

/-- Between two states the `n` bytes `b` have been stored at the offsets `dst`, and no other byte has changed. -/
def bytesCopied (n : Nat) (dst : Nat → Word) (b : Nat → Byte) (s t : State) : Prop :=
  (∀ k, k < n → readByte t.mem (lin s.launch .es (dst k)).toNat = some (b k))
    ∧ ∀ x, (∀ k, k < n → x ≠ (lin s.launch .es (dst k)).toNat) → readByte t.mem x = readByte s.mem x

section
variable {i : Instr} {a : AddrSize} {n : Nat} {s t u : State} {src dst : Nat → Word} {b : Nat → Byte}

/-- The destination bytes of a repeat that its count allows do not coincide (R38, R85). -/
theorem dst_addresses_inj (he : encodable s.launch.mode .b8 a = true) (hn : n ≤ (countReg a s).toNat)
    (hdst : ∀ k, (dst k).toNat = offsetAfter a s.df .b8 k (dstIdx a s).toNat) {j k : Nat} (hj : j < n) (hk : k < n)
    (h : lin s.launch .es (dst j) = lin s.launch .es (dst k)) : j = k := by
  have hcount := countReg_lt a s
  have hlt : ∀ m, (dst m).toNat < 2 ^ a.bits := fun m => hdst m ▸ offsetAfter_lt _ _ _ _ _
  have hoff := congrArg BitVec.toNat (lin_inj he (hlt j) (hlt k) h)
  rw [hdst, hdst] at hoff
  exact offsetAfter_b8_inj (by omega) (by omega) hoff

/-- The iteration on the first of several bytes. -/
theorem movsIteration_first (hform : i.form = ⟨.rep, .movs, .b8, a⟩) (hent : entered .b8 a s)
    (h : canCopyBytes (n + 1) i a s src dst b) :
    ∃ t, exec i s = .next t
      ∧ (∀ x, readByte t.mem x = if x = (lin s.launch .es (dst 0)).toNat then some (b 0) else readByte s.mem x)
      ∧ sourceMoved a .b8 s t ∧ destMoved a .b8 s t ∧ afterIteration .rep a i.ilen s t
      ∧ t.rax = s.rax ∧ t.status = s.status := by
  obtain ⟨hsrc, hdst, hbytes, -⟩ := h
  have hsrc0 : src 0 = srcIdx a s := BitVec.eq_of_toNat_eq (by rw [hsrc, offsetAfter_zero _ _ _ (srcIdx_lt a s)])
  have hdst0 : dst 0 = dstIdx a s := BitVec.eq_of_toNat_eq (by rw [hdst, offsetAfter_zero _ _ _ (dstIdx_lt a s)])
  obtain ⟨hread, hwrite, hcode, hbyte⟩ := hbytes 0 (Nat.succ_pos n)
  rw [hsrc0] at hread hbyte
  rw [hdst0] at hwrite hcode ⊢
  obtain ⟨t, hexec, hstored, hsmoved, hdmoved, hafter, hrax, hstatus, -⟩ :=
    movsIteration i .b8 a s _ hform hent hread hwrite (readElem_b8_of_readByte hbyte) hcode
  exact ⟨t, hexec, readByte_of_stored_b8 hstored, hsmoved, hdmoved, hafter, hrax, hstatus⟩

/-- The bytes left after the first: its store has touched none of them, and RIP is still at the instruction where any
is left. -/
theorem canCopyBytes_tail (h : canCopyBytes (n + 1) i a s src dst b) (hn : n + 1 ≤ (countReg a s).toNat)
    (hmem : ∀ x, readByte t.mem x = if x = (lin s.launch .es (dst 0)).toNat then some (b 0) else readByte s.mem x)
    (hsmoved : sourceMoved a .b8 s t) (hdmoved : destMoved a .b8 s t) (hafter : afterIteration .rep a i.ilen s t) :
    canCopyBytes n i a t (fun k => src (k + 1)) (fun k => dst (k + 1)) (fun k => b (k + 1)) := by
  obtain ⟨hsrc, hdst, hbytes, hapart⟩ := h
  obtain ⟨hsmoved, -⟩ := hsmoved
  obtain ⟨hdmoved, -⟩ := hdmoved
  obtain ⟨-, -, hrip, -, -, hdf, hlaunch⟩ := hafter
  refine ⟨fun k => ?_, fun k => ?_, fun k hk => ?_, fun j k hj hk => ?_⟩
  · rw [hsrc, hdf, hsmoved, offsetAfter_succ]
  · rw [hdst, hdf, hdmoved, offsetAfter_succ]
  · have hstay : t.rip = s.rip := by
      rw [hrip, if_neg]
      rintro (hone | hstop)
      · omega
      · cases hstop
    obtain ⟨hread, hwrite, hcode, hbyte⟩ := hbytes (k + 1) (Nat.succ_lt_succ hk)
    have hkept := hapart (k + 1) 0 (Nat.succ_lt_succ hk) (Nat.succ_pos n)
    rw [hitsCode_congr _ _ _ hlaunch hstay, hlaunch, hmem, if_neg fun heq => hkept (BitVec.eq_of_toNat_eq heq)]
    exact ⟨hread, hwrite, hcode, hbyte⟩
  · rw [hlaunch]
    exact hapart (j + 1) (k + 1) (Nat.succ_lt_succ hj) (Nat.succ_lt_succ hk)

/-- One byte and then the others, stored at different addresses. -/
theorem bytesCopied_succ (hlaunch : u.launch = s.launch)
    (hdistinct : ∀ k, k < n → lin s.launch .es (dst 0) ≠ lin s.launch .es (dst (k + 1)))
    (hfirst : ∀ x, readByte u.mem x = if x = (lin s.launch .es (dst 0)).toNat then some (b 0) else readByte s.mem x)
    (hrest : bytesCopied n (fun k => dst (k + 1)) (fun k => b (k + 1)) u t) : bytesCopied (n + 1) dst b s t := by
  obtain ⟨hcopied, hframe⟩ := hrest
  rw [hlaunch] at hcopied hframe
  refine ⟨fun k hk => ?_, fun x hx => ?_⟩
  · cases k with
    | zero =>
      rw [hframe _ fun k hk heq => hdistinct k hk (BitVec.eq_of_toNat_eq heq), hfirst, if_pos rfl]
    | succ k => exact hcopied k (Nat.lt_of_succ_lt_succ hk)
  · rw [hframe x fun k hk => hx (k + 1) (Nat.succ_lt_succ hk), hfirst, if_neg (hx 0 (Nat.succ_pos n))]

/-- `n` executions of REP MOVS m8 copy `n` bytes to a place that lies apart from them. -/
theorem movs_copies_bytes (hform : i.form = ⟨.rep, .movs, .b8, a⟩) (hcan : canIterate n i s)
    (h : canCopyBytes n i a s src dst b) :
    ∃ t, execTimes n i s = .next t ∧ bytesCopied n dst b s t ∧ t.rax = s.rax ∧ t.status = s.status := by
  induction n generalizing s src dst b with
  | zero => exact ⟨s, rfl, ⟨fun k hk => absurd hk (Nat.not_lt_zero k), fun x _ => rfl⟩, rfl, rfl⟩
  | succ n ih =>
    have hent : entered .b8 a s := by simpa [hform] using canIterate_succ hcan
    have ⟨he, hn, _⟩ := hcan
    rw [hform] at he hn
    obtain ⟨u, hexec, hfirst, hsmoved, hdmoved, hafter, hrax, hstatus⟩ := movsIteration_first hform hent h
    obtain ⟨t, hrun, hrest, trax, tstatus⟩ :=
      ih (canIterate_next hcan hexec) (canCopyBytes_tail h hn hfirst hsmoved hdmoved hafter)
    obtain ⟨-, -, -, -, -, -, hlaunch⟩ := hafter
    obtain ⟨-, hdst, -⟩ := h
    have hdistinct : ∀ k, k < n → lin s.launch .es (dst 0) ≠ lin s.launch .es (dst (k + 1)) := fun k hk heq =>
      Nat.succ_ne_zero k (dst_addresses_inj he hn hdst (Nat.succ_pos n) (Nat.succ_lt_succ hk) heq).symm
    refine ⟨t, ?_, bytesCopied_succ hlaunch hdistinct hfirst hrest, trax.trans hrax, tstatus.trans hstatus⟩
    rw [execTimes, hexec, andThen_next, hrun]

end

/-- Settles O34: the bytes by induction on the count, the registers from O32. -/
theorem repMovsCopiesBytes : Obligations.RepMovsCopiesBytes := by
  intro i a s src dst b hform he h0 hq hsrc hdst hbytes hapart
  have hcan : canIterate (countReg a s).toNat i s := by
    rw [canIterate, hform]
    exact ⟨he, le_rfl, hq⟩
  obtain ⟨t, hrun, ⟨hcopied, hframe⟩, hrax, hstatus⟩ := movs_copies_bytes hform hcan ⟨hsrc, hdst, hbytes, hapart⟩
  have hregs := registersAfterIterations i _ s t hq (by rw [hform]) hrun
  rw [hform] at hregs
  obtain ⟨hcount, hsidx, -, hdidx, -, -, -, -, hrip⟩ := hregs
  have hpos : 0 < (countReg a s).toNat := Nat.pos_of_ne_zero fun hz => h0 (BitVec.eq_of_toNat_eq hz)
  exact ⟨t, hrun, hcopied, hframe, BitVec.eq_of_toNat_eq (by rw [hcount, Nat.sub_self]; rfl),
    BitVec.eq_of_toNat_eq (by rw [hsidx rfl, hsrc]), BitVec.eq_of_toNat_eq (by rw [hdidx rfl, hdst]),
    by rw [hrip rfl hpos, if_pos rfl], hrax, hstatus⟩

end Sys2Proof.Machine
end

section
/-! PROOFS. The family 45_rep_stos.md: REP STOS m8 over a string, in either direction and around the wrap of the offsets
(R77, R81, R91, R120, R121). -/

namespace Sys2Proof.Machine

/-- A store of one byte takes AL alone from the accumulator (R30). -/
theorem stored_b8_low {s t : State} {addr v : Word} (h : stored .b8 addr v s t) :
    stored .b8 addr ((v.setWidth 8).setWidth 64) s t := by
  obtain ⟨hsame, hother⟩ := h
  refine ⟨fun k hk => ?_, hother⟩
  have hlow : ((v.setWidth 8).setWidth 64).extractLsb' 0 8 = v.extractLsb' 0 8 :=
    BitVec.eq_of_toNat_eq (by simp)
  obtain rfl : k = 0 := Nat.lt_one_iff.mp hk
  exact (hsame 0 hk).trans (congrArg some hlow.symm)

/-- REP stays at the instruction while the count is not used up (R74, R79). -/
theorem rip_of_afterIteration_rep {a : AddrSize} {ilen : Nat} {s t : State} (h : afterIteration .rep a ilen s t)
    (hmore : (countReg a s).toNat ≠ 1) : t.rip = s.rip := by
  obtain ⟨-, -, hrip, -⟩ := h
  simpa [hmore, stopsOn] using hrip

/-- The next `n` bytes of the destination are accessible, and none is of the executing instruction. -/
def canFillBytes (n : Nat) (i : Instr) (a : AddrSize) (s : State) (off : Nat → Word) : Prop :=
  (∀ k, (off k).toNat = offsetAfter a s.df .b8 k (dstIdx a s).toNat)
    ∧ ∀ k, k < n → accessOk s.launch .write .es .b8 a (off k)
      ∧ hitsCode .b8 i.ilen (lin s.launch .es (off k)) s = false

section
variable {i : Instr} {a : AddrSize} {n : Nat} {s t : State} {off : Nat → Word}

/-- The iteration on the first of several bytes. -/
theorem stosIteration_first (hform : i.form = ⟨.rep, .stos, .b8, a⟩) (hent : entered .b8 a s)
    (h : canFillBytes (n + 1) i a s off) :
    ∃ t, exec i s = .next t
      ∧ (∀ x, readByte t.mem x =
          if x = (lin s.launch .es (off 0)).toNat then some (s.rax.setWidth 8) else readByte s.mem x)
      ∧ destMoved a .b8 s t ∧ afterIteration .rep a i.ilen s t ∧ t.rax = s.rax ∧ t.status = s.status := by
  obtain ⟨hoff, hbytes⟩ := h
  have hoff0 : off 0 = dstIdx a s := BitVec.eq_of_toNat_eq (by rw [hoff, offsetAfter_zero _ _ _ (dstIdx_lt a s)])
  obtain ⟨hwrite, hcode⟩ := hbytes 0 (Nat.succ_pos n)
  rw [hoff0] at hwrite hcode ⊢
  obtain ⟨t, hexec, hstored, hmoved, hafter, hrax, -, hstatus, -⟩ := stosIteration i .b8 a s hform hent hwrite hcode
  exact ⟨t, hexec, readByte_of_stored_b8 (stored_b8_low hstored), hmoved, hafter, hrax, hstatus⟩

/-- The bytes left after the first: RIP is still at the instruction where any is left. -/
theorem canFillBytes_tail (h : canFillBytes (n + 1) i a s off) (hn : n + 1 ≤ (countReg a s).toNat)
    (hmoved : destMoved a .b8 s t) (hafter : afterIteration .rep a i.ilen s t) :
    canFillBytes n i a t (fun k => off (k + 1)) := by
  obtain ⟨hoff, hbytes⟩ := h
  obtain ⟨hmoved, -⟩ := hmoved
  have ⟨_, _, _, _, _, hdf, hlaunch⟩ := hafter
  refine ⟨fun k => ?_, fun k hk => ?_⟩
  · rw [hoff, hdf, hmoved, offsetAfter_succ]
  · rw [hitsCode_congr _ _ _ hlaunch (rip_of_afterIteration_rep hafter (by omega)), hlaunch]
    exact hbytes (k + 1) (Nat.succ_lt_succ hk)

/-- `n` executions of REP STOS m8 store AL at `n` offsets and nothing anywhere else. -/
theorem stos_fills_bytes (hform : i.form = ⟨.rep, .stos, .b8, a⟩) (hcan : canIterate n i s)
    (h : canFillBytes n i a s off) :
    ∃ t, execTimes n i s = .next t ∧ bytesCopied n off (fun _ => s.rax.setWidth 8) s t
      ∧ t.rax = s.rax ∧ t.status = s.status := by
  induction n generalizing s off with
  | zero => exact ⟨s, rfl, ⟨fun k hk => absurd hk (Nat.not_lt_zero k), fun x _ => rfl⟩, rfl, rfl⟩
  | succ n ih =>
    have hent : entered .b8 a s := by simpa [hform] using canIterate_succ hcan
    have ⟨he, hn, _⟩ := hcan
    rw [hform] at he hn
    obtain ⟨u, hexec, hfirst, hmoved, hafter, hrax, hstatus⟩ := stosIteration_first hform hent h
    obtain ⟨t, hrun, hrest, trax, tstatus⟩ :=
      ih (canIterate_next hcan hexec) (canFillBytes_tail h hn hmoved hafter)
    rw [hrax] at hrest
    obtain ⟨-, -, -, -, -, -, hlaunch⟩ := hafter
    obtain ⟨hoff, -⟩ := h
    have hdistinct : ∀ k, k < n → lin s.launch .es (off 0) ≠ lin s.launch .es (off (k + 1)) := fun k hk heq =>
      Nat.succ_ne_zero k (dst_addresses_inj he hn hoff (Nat.succ_pos n) (Nat.succ_lt_succ hk) heq).symm
    refine ⟨t, ?_, bytesCopied_succ hlaunch hdistinct hfirst hrest, trax.trans hrax, tstatus.trans hstatus⟩
    rw [execTimes, hexec, andThen_next, hrun]

end

/-- Settles O33: the bytes by induction on the count, the registers from O32. -/
theorem repStosFillsBytes : Obligations.RepStosFillsBytes := by
  intro i a s off hform he h0 hq hoff hbytes
  have hcan : canIterate (countReg a s).toNat i s := by
    rw [canIterate, hform]
    exact ⟨he, le_rfl, hq⟩
  obtain ⟨t, hrun, ⟨hfilled, hframe⟩, hrax, hstatus⟩ := stos_fills_bytes hform hcan ⟨hoff, hbytes⟩
  have hregs := registersAfterIterations i _ s t hq (by rw [hform]) hrun
  rw [hform] at hregs
  obtain ⟨hcount, -, hrsi, hdidx, -, -, -, -, hrip⟩ := hregs
  have hpos : 0 < (countReg a s).toNat := Nat.pos_of_ne_zero fun hz => h0 (BitVec.eq_of_toNat_eq hz)
  exact ⟨t, hrun, hfilled, hframe, BitVec.eq_of_toNat_eq (by rw [hcount, Nat.sub_self]; rfl),
    BitVec.eq_of_toNat_eq (by rw [hdidx rfl, hoff]), by rw [hrip rfl hpos, if_pos rfl], hrax, hrsi rfl, hstatus⟩

end Sys2Proof.Machine
end

section
/-! PROOFS. The family 60_exceptions.md: which rejection of an access is reported (R42, R149 step 2), whose event where
both operands raise (R149 step 3), and the end of a run and what is observed of it (R161, R172). -/

namespace Sys2Proof.Machine

/-! The order of rejections (R149 step 2). -/

/-- What R149 orders the rejections of one access by: the rank of the event, then the lowest rejected byte. -/
def rejectionKey (p : Nat × MemEvent) : Nat ×ₗ Nat := toLex (eventRank p.2, p.1)

theorem rejectionKey_le_iff {k j : Nat} {e e' : MemEvent} :
    rejectionKey (k, e) ≤ rejectionKey (j, e')
      ↔ eventRank e < eventRank e' ∨ (eventRank e = eventRank e' ∧ k ≤ j) := Prod.Lex.toLex_le_toLex

/-- Of two rejections the later one is taken where its key is less. -/
theorem argAux_rejectionKey (x y : Nat × MemEvent) :
    List.argAux (fun b c => rejectionKey b < rejectionKey c) (some x) y = some (firstEvent x y) := by
  have hlt : rejectionKey y < rejectionKey x
      ↔ eventRank y.2 < eventRank x.2 ∨ (eventRank y.2 = eventRank x.2 ∧ y.1 < x.1) := Prod.Lex.toLex_lt_toLex
  simp only [List.argAux, firstEvent, hlt, apply_ite some]

/-- The fold over the rejections keeps the first that none precedes. -/
theorem foldl_firstEvent (x : Nat × MemEvent) (xs : List (Nat × MemEvent)) :
    some (xs.foldl firstEvent x) = (x :: xs).argmin rejectionKey := by
  show _ = xs.foldl (List.argAux _) (some x)
  induction xs generalizing x with
  | nil => rfl
  | cons y ys ih => rw [List.foldl_cons, List.foldl_cons, argAux_rejectionKey, ih]

section
variable {l : Launch} {kind : AccessKind} {a : Word} {n : Nat}

theorem memFault_eq_argmin :
    memFault l kind a n = ((rejections l kind a n).argmin rejectionKey).map Prod.snd := by
  unfold memFault
  split
  · next h => rw [h]; rfl
  · next x xs h => rw [h, ← foldl_firstEvent]; rfl

theorem mem_rejections {k : Nat} {e : MemEvent} :
    (k, e) ∈ rejections l kind a n ↔ ∃ r ∈ l.memRules, ruleHit l r kind a n = some k ∧ r.event = e := by
  simp [rejections]

theorem memFault_eq_none_iff : memFault l kind a n = none ↔ ∀ r ∈ l.memRules, ruleHit l r kind a n = none := by
  rw [memFault_eq_argmin, Option.map_eq_none_iff, List.argmin_eq_none, rejections, List.filterMap_eq_nil_iff]
  simp

/-- What `MemFault` answers is the event of a rejection that no other precedes (R149 step 2). -/
theorem memFault_some_inv {e : MemEvent} (h : memFault l kind a n = some e) :
    ∃ k, (k, e) ∈ rejections l kind a n
      ∧ ∀ j e', (j, e') ∈ rejections l kind a n → rejectionKey (k, e) ≤ rejectionKey (j, e') := by
  rw [memFault_eq_argmin, Option.map_eq_some_iff] at h
  obtain ⟨⟨k, _⟩, hmin, rfl⟩ := h
  exact ⟨k, List.argmin_mem hmin, fun j e' hj => List.le_of_mem_argmin hj hmin⟩

end

/-- The order of R149 step 2 on the exceptions themselves. -/
theorem exn_of_eventRank_le {x y : Exn} (h : eventRank (.exn x) ≤ eventRank (.exn y)) :
    (y = .gp0 ∨ y = .ss0 → x = .gp0 ∨ x = .ss0) ∧ (y = .ac0 → ∀ c, x ≠ .pf c) := by
  cases y with
  | pf c => simp
  | gp0 | ss0 | ac0 => cases x <;> simp_all [eventRank]

theorem eventRank_eq_of_sameClass {x y : Exn}
    (h : (x = .gp0 ∨ x = .ss0) ∧ (y = .gp0 ∨ y = .ss0) ∨ x = .ac0 ∧ y = .ac0 ∨ ∃ c d, x = .pf c ∧ y = .pf d) :
    eventRank (.exn x) = eventRank (.exn y) := by
  obtain ⟨rfl | rfl, rfl | rfl⟩ | ⟨rfl, rfl⟩ | ⟨c, d, rfl, rfl⟩ := h <;> rfl

/-- Settles O18: the answer is the least rejection, and rank and byte say what that is on the exceptions. -/
theorem memFaultPriority : Obligations.MemFaultPriority := by
  refine fun l kind a n => ⟨memFault_eq_none_iff, fun e he => ?_⟩
  obtain ⟨k, hk, hmin⟩ := memFault_some_inv he
  have hfirst : ∀ q ∈ l.memRules, ∀ j, ruleHit l q kind a n = some j →
      eventRank e < eventRank q.event ∨ (eventRank e = eventRank q.event ∧ k ≤ j) := fun q hq j hj =>
    rejectionKey_le_iff.mp (hmin j q.event (mem_rejections.mpr ⟨q, hq, hj, rfl⟩))
  obtain ⟨r, hr, hhit, hevent⟩ := mem_rejections.mp hk
  refine ⟨r, hr, k, hhit, hevent, hfirst, ?_⟩
  rintro x rfl q hq j y hj hy
  have hle := hfirst q hq j hj
  rw [hy] at hle
  obtain ⟨hgp, hac⟩ := exn_of_eventRank_le (hle.elim Nat.le_of_lt fun ⟨heq, _⟩ => heq.le)
  refine ⟨hgp, hac, fun hclass => ?_⟩
  obtain hlt | ⟨-, hbyte⟩ := hle
  · exact absurd (eventRank_eq_of_sameClass hclass) hlt.ne
  · exact hbyte

/-! Both operands raise (R149 step 3). -/

/-- Whose event is reported is the launch's choice (D22). -/
theorem withOperands_both_raise (c : Bool) (e e' : MemEvent) (x x' : Access) (s : State) (f : Word → Word → Result) :
    withOperands c (.raises e x) (.raises e' x') s f =
      if s.launch.faultOrder = .sourceFirst then takeException c e (some x) s
      else takeException c e' (some x') s := by
  cases h : s.launch.faultOrder <;> simp [withOperands, h]

theorem elementOf_of_both_raise {i : Instr} {s : State} {e e' : MemEvent} {x x' : Access}
    (hop : i.form.op = .movs ∨ i.form.op = .cmps)
    (hsrc : operand s.launch .read i.pre.sourceSeg i.form.w i.form.a (srcIdx i.form.a s) = .raises e x)
    (hdst : operand s.launch (destKind i.form.op) .es i.form.w i.form.a (dstIdx i.form.a s) = .raises e' x') :
    elementOf i s =
      if s.launch.faultOrder = .sourceFirst then takeException i.form.op.compares e (some x) s
      else takeException i.form.op.compares e' (some x') s := by
  unfold elementOf
  obtain hop | hop := hop <;> simp only [hop, destKind] at hdst ⊢
  · rw [elementMovs, hsrc, hdst, withOperands_both_raise]; rfl
  · rw [elementCmps, hsrc, hdst, withOperands_both_raise]; rfl

/-- Settles O41: the chosen event ends the execution in the state before the iteration. -/
theorem faultOrderDecides : Obligations.FaultOrderDecides := by
  rintro i _ _ s e e' x x' hop rfl rfl hent hsrc hdst
  have hel := elementOf_of_both_raise (s := enter s) hop hsrc hdst
  refine ⟨_, keptAtFault_enter i.form.op.compares s, ?_⟩
  by_cases hfirst : s.launch.faultOrder = .sourceFirst
  · have hexec := exec_of_element_raises hent (hel.trans (if_pos hfirst))
    rw [if_pos hfirst]
    cases e <;> exact hexec
  · have hexec := exec_of_element_raises hent (hel.trans (if_neg hfirst))
    rw [if_neg hfirst]
    cases e' <;> exact hexec

/-! No instruction ends the run as completed: R172 a is the step's alone. -/

/-- The outcome is not `completed`. -/
def notCompleted : Result → Prop
  | .fault (.completed _) => False
  | _ => True

theorem notCompleted_takeException (c : Bool) (e : MemEvent) (x : Option Access) (s : State) :
    notCompleted (takeException c e x s) := by
  cases e <;> trivial

theorem notCompleted_andThen {r : Result} {f : State → Result} (hr : notCompleted r) (hf : ∀ s, notCompleted (f s)) :
    notCompleted (andThen r f) := by
  cases r with
  | next s => exact hf s
  | fault e => exact hr
  | refused e => trivial

theorem notCompleted_withElem {r : Except Nat Word} {f : Word → Result} (hf : ∀ v, notCompleted (f v)) :
    notCompleted (withElem r f) := by
  cases r with
  | ok v => exact hf v
  | error a => trivial

theorem notCompleted_withOperand {c : Bool} {o : Operand} {s : State} {f : Word → Result}
    (hf : ∀ x, notCompleted (f x)) : notCompleted (withOperand c o s f) := by
  cases o with
  | at' x => exact hf x
  | raises e x => exact notCompleted_takeException _ _ _ _
  | refused r => trivial

theorem notCompleted_withOperands {c : Bool} {o o' : Operand} {s : State} {f : Word → Word → Result}
    (hf : ∀ x y, notCompleted (f x y)) : notCompleted (withOperands c o o' s f) := by
  unfold withOperands
  split
  · trivial
  · trivial
  · exact hf _ _
  · exact notCompleted_takeException _ _ _ _
  · exact notCompleted_takeException _ _ _ _
  · split <;> exact notCompleted_takeException _ _ _ _

/-- A store of one element, then updates that always go through. -/
theorem notCompleted_storeElem (w : OpSize) (ilen : Nat) (a v : Word) (s : State) (g : State → State) :
    notCompleted (andThen (storeElem w ilen a v s) fun t => .next (g t)) := by
  refine notCompleted_andThen ?_ fun _ => trivial
  unfold storeElem
  split <;> trivial

theorem notCompleted_elementIns (w : OpSize) (a : AddrSize) (ilen : Nat) (s : State) :
    notCompleted (elementIns w a ilen s) := by
  unfold elementIns
  split
  · refine notCompleted_withOperand fun d => ?_
    split
    · exact notCompleted_takeException _ _ _ _
    · exact notCompleted_storeElem _ _ _ _ _ _
  · exact notCompleted_takeException _ _ _ _

theorem notCompleted_elementOuts (w : OpSize) (a : AddrSize) (seg : SegReg) (s : State) :
    notCompleted (elementOuts w a seg s) := by
  unfold elementOuts
  split
  · exact notCompleted_withOperand fun _ => notCompleted_withElem fun _ => trivial
  · exact notCompleted_takeException _ _ _ _

theorem notCompleted_elementOf (i : Instr) (s : State) : notCompleted (elementOf i s) := by
  unfold elementOf
  cases i.form.op with
  | ins => exact notCompleted_elementIns _ _ _ _
  | movs => exact notCompleted_withOperands fun _ _ => notCompleted_withElem fun _ => notCompleted_storeElem _ _ _ _ _ _
  | outs => exact notCompleted_elementOuts _ _ _ _
  | lods => exact notCompleted_withOperand fun _ => notCompleted_withElem fun _ => trivial
  | stos => exact notCompleted_withOperand fun _ => notCompleted_storeElem _ _ _ _ _ _
  | cmps =>
    exact notCompleted_withOperands fun _ _ => notCompleted_withElem fun _ => notCompleted_withElem fun _ => trivial
  | scas => exact notCompleted_withOperand fun _ => notCompleted_withElem fun _ => trivial

theorem exec_ne_completed (i : Instr) (s t : State) : exec i s ≠ .fault (.completed t) := by
  intro h
  rw [exec_eq] at h
  obtain ⟨-, hel⟩ := repStep_fault_inv h
  have hno := notCompleted_elementOf i (enter s)
  rwa [hel] at hno

/-! The end of a run (R172). -/

/-- A step that completes the run is one at the exit address, and changes nothing (R172 a). -/
theorem step_completed_inv {s t : State} (h : step s = .fault (.completed t)) : atExit s = true ∧ t = s := by
  obtain ⟨hexit, heq⟩ | ⟨i, -, -, hexec⟩ := step_fault_inv h
  · cases heq
    exact ⟨hexit, rfl⟩
  · exact absurd hexec (exec_ne_completed i s t)

/-- The state a step reports with any terminal outcome keeps every register and memory (R161). -/
theorem step_fault_kept {s : State} {f : Fault} (h : step s = .fault f) : keptAtFault s f.state := by
  obtain ⟨-, rfl⟩ | ⟨i, -, -, hexec⟩ := step_fault_inv h
  · exact ⟨rfl, rfl, rfl, rfl, rfl, rfl, rfl, rfl, rfl⟩
  · obtain ⟨hkept, -⟩ := faultStateKept i s f hexec
    exact hkept

/-- What is observed of a run is what the step of a state it has reached answers. -/
theorem run_some_inv {n : Nat} {s : State} {o : Observation} (h : run n s = some o) :
    ∃ k u, k ≤ n ∧ stepsTo k s u ∧ observe u (step u) = some o := by
  induction n generalizing s with
  | zero => exact ⟨0, s, le_rfl, rfl, h⟩
  | succ n ih =>
    by_cases hnext : ∃ t, step s = .next t
    · obtain ⟨t, hstep⟩ := hnext
      obtain ⟨k, u, hk, hsteps, hobs⟩ := ih (run_next n hstep ▸ h)
      exact ⟨k + 1, u, Nat.succ_le_succ hk, ⟨t, hstep, hsteps⟩, hobs⟩
    · rw [run_end _ (not_exists.mp hnext)] at h
      exact ⟨0, s, Nat.zero_le _, rfl, h⟩

/-- Settles O56: the run has reached a state whose step answers a terminal outcome, and each is one of the four ends. -/
theorem runEndsAsObserved : Obligations.RunEndsAsObserved := by
  intro n s o h
  obtain ⟨k, u, hk, hsteps, hobs⟩ := run_some_inv h
  refine ⟨k, u, hk, hsteps, ?_⟩
  cases hstep : step u with
  | next t => rw [hstep] at hobs; cases hobs
  | refused r =>
    rw [hstep] at hobs
    cases hobs
    exact .inr (.inr (.inr ⟨r, rfl, rfl⟩))
  | fault f =>
    rw [hstep] at hobs
    have hkept := step_fault_kept hstep
    cases f with
    | completed v =>
      cases hobs
      obtain ⟨hexit, rfl⟩ := step_completed_inv hstep
      exact .inl ⟨hexit, rfl⟩
    | exception e x v =>
      cases hobs
      exact .inr (.inl ⟨e, x, v, rfl, hkept, rfl⟩)
    | vmExit x v =>
      cases hobs
      exact .inr (.inr (.inl ⟨x, v, rfl, hkept, rfl⟩))

end Sys2Proof.Machine
end
